-- ==== Sys2Proof/Word.lean ====
section
/-! DEFINITION. The words of WARTQ: the widths the spec fixes (spec/00_scope.md R5, R6; 10_state.md R20; 43_pwm_frame.md R120). -/

namespace Sys2Proof

/-- A sample (`SAMPLE_W` = 8) or a symbol (`SYM_W` = 8): 00_scope.md R5. -/
abbrev Byte := BitVec 8

/-- A symbol index, format K, `IDX_W` = 4 bits: 30_encoding.md R63. -/
abbrev Index := BitVec 4

/-- The product `sample * 9`, `PROD_W` = 12 bits: 00_scope.md R6. -/
abbrev Product := BitVec 12

/-- The build counter `bidx`, 9 bits: 10_state.md R24. -/
abbrev BuildIndex := BitVec 9

/-- The frame shift register `fr`, 10 bits: 43_pwm_frame.md R120. -/
abbrev FrameReg := BitVec 10

/-- The slot counter `fcnt`, 4 bits: 43_pwm_frame.md R120. -/
abbrev SlotCount := BitVec 4

end Sys2Proof
end

