-- ==== Sys2Proof/Config.lean ====
section
/-! DEFINITION. What an implementation fixes (spec/00_scope.md R5, R6), and the one free value of the model. -/

namespace Sys2Proof

/-- The OPEN parameters of 00_scope.md R6. They are data, so a claim about every state is a claim about every value of them
(log entry 1). -/
structure Config where
  /-- `PREBUILT`: `MAP` holds its final contents at reset (40_build.md R86). -/
  prebuilt : Bool
  /-- `OQ_DEPTH`: the capacity of `oq` (10_state.md R26). -/
  oqDepth : Nat
  /-- `HAS_MOD`: the serialiser MOD is attached to the output port (43_pwm_frame.md R115). -/
  hasMod : Bool
  /-- `EOL`: the line terminator of the host's text (42_host_encoder.md R107). -/
  eol : List Byte
  /-- `FINAL_EOL`: the last line of the host's text ends with `EOL` (42_host_encoder.md R106). -/
  finalEol : Bool
  deriving DecidableEq, Repr

/-- The default values of 00_scope.md R6. -/
def Config.default : Config :=
  { prebuilt := false, oqDepth := 1, hasMod := false, eol := [0x0A], finalEol := true }

/-- `CHUNK`: samples per line of the host's text (00_scope.md R5, 42_host_encoder.md R102). -/
def chunkSize : Nat := 32

/-- FREE VALUE (log entry 21): what `m_data` shows while `m_valid = 0`, "unspecified" (10_state.md R29, 93 V3). No body, so
nothing can be proved of it; `State.free` selects a fresh one at each step. -/
opaque Config.idleData : Nat → Byte

end Sys2Proof
end

