-- ==== Sys2Proof/Syntax.lean ====
section
/-! DEFINITION. The operations of spec/opcode_table.json, one constructor per row, and the events that select them
(spec/30_encoding.md R60, R70). -/

namespace Sys2Proof

/-- One constructor per row of the operation table. Only LOOKUP and QUANT carry an operand (format S); the format Y word of
EMIT and MOD_LOAD is a result ("a result word, not an operand"), so they carry none. -/
inductive Instr where
  /-- RESET: 70_reset_and_hazards.md R150. -/
  | reset
  /-- BUILD_STEP: 40_build.md R80. -/
  | buildStep
  /-- LOOKUP `s`: 41_lookup.md R91. -/
  | lookup (s : Byte)
  /-- EMIT: 41_lookup.md R93. -/
  | emit
  /-- MOD_LOAD: 43_pwm_frame.md R121. -/
  | modLoad
  /-- MOD_SHIFT: 43_pwm_frame.md R122. -/
  | modShift
  /-- MOD_IDLE: 43_pwm_frame.md R123. -/
  | modIdle
  /-- BUILD, a pseudo-operation: 40_build.md R81. -/
  | build
  /-- QUANT `s`, a pseudo-operation: 30_encoding.md R70. -/
  | quant (s : Byte)
  /-- ENCODE, a pseudo-operation of the host: 42_host_encoder.md R101. -/
  | encode
  deriving DecidableEq, Repr

/-- What selects an operation (30_encoding.md R60, 43_pwm_frame.md R121 to R123): there are no opcode bits, an operation is
selected by an event, and the pseudo-operations by a line of a trace (30_encoding.md R70). -/
inductive Selector where
  /-- A rising edge of `clk` with `rst = 1`. -/
  | resetEdge
  /-- The builder's turn: "implicit", no port event. -/
  | builder
  /-- A transfer on the input channel; the word is `s_data`. -/
  | inputChannel
  /-- A transfer on the output channel. -/
  | outputChannel
  /-- MOD takes the next symbol. -/
  | modTake
  /-- A slot tick that drives a slot of the current frame. -/
  | slotOfFrame
  /-- A slot tick with nothing to send. -/
  | slotIdle
  /-- The trace line `BUILD`. -/
  | traceBuild
  /-- The trace line `QUANT s`; the word is `s`. -/
  | traceQuant
  /-- The trace line `ENCODE`. -/
  | traceEncode
  deriving DecidableEq, Repr

/-- The `mnemonic` of the operation's row in opcode_table.json. -/
def Instr.mnemonic : Instr → String
  | .reset => "RESET"
  | .buildStep => "BUILD_STEP"
  | .lookup _ => "LOOKUP"
  | .emit => "EMIT"
  | .modLoad => "MOD_LOAD"
  | .modShift => "MOD_SHIFT"
  | .modIdle => "MOD_IDLE"
  | .build => "BUILD"
  | .quant _ => "QUANT"
  | .encode => "ENCODE"

end Sys2Proof
end

