-- ==== Sys2Proof/Decode.lean ====
section
/-! DEFINITION. Selection of an operation: the decoder and the encoder (spec/30_encoding.md R60, R61, R68, R70). -/

namespace Sys2Proof

/-- Why an event with its word selects no operation. -/
inductive DecodeError where
  /-- The operation's data port carries one word and none is given. -/
  | missingWord (mnemonic : String)
  /-- More words are given than the operation carries. -/
  | extraWord (mnemonic : String)
  deriving DecidableEq, Repr

/-- An operation that carries no word. -/
def decodeNone (i : Instr) : List Byte → Except DecodeError Instr
  | [] => .ok i
  | _ :: _ => .error (.extraWord i.mnemonic)

/-- An operation whose one word, format S, is wholly operand (30_encoding.md R61). -/
def decodeSample (f : Byte → Instr) : List Byte → Except DecodeError Instr
  | [] => .error (.missingWord (f 0).mnemonic)
  | [s] => .ok (f s)
  | _ :: _ :: _ => .error (.extraWord (f 0).mnemonic)

/-- The operation an event selects, with the words its data port carries: 30_encoding.md R60. Total on any bytes. -/
def decode (sel : Selector) (word : List Byte) : Except DecodeError Instr :=
  match sel with
  | .resetEdge => decodeNone .reset word
  | .builder => decodeNone .buildStep word
  | .inputChannel => decodeSample .lookup word
  | .outputChannel => decodeNone .emit word
  | .modTake => decodeNone .modLoad word
  | .slotOfFrame => decodeNone .modShift word
  | .slotIdle => decodeNone .modIdle word
  | .traceBuild => decodeNone .build word
  | .traceQuant => decodeSample .quant word
  | .traceEncode => decodeNone .encode word

/-- The event and the words that select an operation, from the same table. -/
def encode : Instr → Selector × List Byte
  | .reset => (.resetEdge, [])
  | .buildStep => (.builder, [])
  | .lookup s => (.inputChannel, [s])
  | .emit => (.outputChannel, [])
  | .modLoad => (.modTake, [])
  | .modShift => (.slotOfFrame, [])
  | .modIdle => (.slotIdle, [])
  | .build => (.traceBuild, [])
  | .quant s => (.traceQuant, [s])
  | .encode => (.traceEncode, [])

/-- The words a transfer on the input channel carries, where the table gives a row `nbits` bits with value `w`. No operation has
opcode bits (30_encoding.md R68), so a word alone can only be one on `s_data`: "any word on `s_data` at a transfer is LOOKUP with
`s` = the word". A row of no word is selected by its event alone, which no bits show (log entry 15). -/
def tableWords (nbits w : Nat) : Option (List Byte) :=
  if nbits = 8 then some [BitVec.ofNat 8 w] else none

/-- The operation the decoder reads from the bits of a row of the table (log entry 15). -/
def decodeTableWord (nbits w : Nat) : Option Instr :=
  match tableWords nbits w with
  | none => none
  | some word =>
    match decode .inputChannel word with
    | .ok i => some i
    | .error _ => none

end Sys2Proof
end

