-- ==== Sys2Proof/Machine/State.lean ====
section
/-! DEFINITION. The state of WARTQ, its environment and its host (spec/10_state.md R20, R29, R30; 43_pwm_frame.md R120;
42_host_encoder.md R101, R108), the reasons a step stops, and the state after reset. -/

namespace Sys2Proof.Machine

/-- The model faults, exactly the two of 60_exceptions.md R132; both are unreachable from reset. -/
inductive Fault where
  /-- `SymRead(k)` with `k > 8`, raised by BUILD_STEP (and BUILD). SAFE: the spec gives no value there. -/
  | indexOutOfRange (k : Index)
  /-- `MemRead(a, 1)` of an entry of `MAP` that holds no value, raised by LOOKUP (and QUANT, ENCODE). SAFE: the spec gives no
  value there. -/
  | readUnbuilt (a : Byte)
  deriving DecidableEq, Repr

/-- Why there is no meaning for a turn. No operation is refused (00_scope.md R11). -/
inductive Refusal where
  /-- An operation with no meaning yet; no arm of `exec` answers it. SAFE. -/
  | notModelled (mnemonic : String)
  /-- A turn whose words fit no operation, which no port can carry; raised by `step` only. SAFE (log entry 27). -/
  | undecodable (e : DecodeError)
  deriving DecidableEq, Repr

/-- The holds: the step is not enabled in this state (00_scope.md R11), with what lifts each. A held step changes nothing but
`State.hold` (log entry 3). -/
inductive Hold where
  /-- LOOKUP while `ready = 0`; lifted by the builder (41_lookup.md R92). -/
  | notReady
  /-- LOOKUP while `oq` is full; lifted by an EMIT (41_lookup.md R92). -/
  | outputFull
  /-- LOOKUP while the source offers nothing; lifted by the source, or by nothing if it cannot be read (41_lookup.md R92,
  60_exceptions.md R131, R133). -/
  | noSample
  /-- LOOKUP of a word that is not `head(src)`: the source cannot offer it (00_scope.md R10, 93 V11; log entry 7). -/
  | notOffered
  /-- EMIT or MOD_LOAD while `oq` is empty; lifted by a LOOKUP (41_lookup.md R93, 43_pwm_frame.md R121). -/
  | empty
  /-- EMIT while the sink does not accept; lifted by the sink, or by nothing if it cannot be written to (41_lookup.md R93,
  60_exceptions.md R131, R134). -/
  | sinkStall
  /-- MOD_LOAD, or EMIT with `HAS_MOD`, or MOD_IDLE while `fcnt > 0`; lifted by MOD_SHIFT (43_pwm_frame.md R121, R123; the name is log
  entry 37). -/
  | modBusy
  /-- MOD_SHIFT while `fcnt = 0`; lifted by MOD_LOAD (43_pwm_frame.md R122). -/
  | nothingToShift
  /-- MOD_IDLE while a symbol waits in `oq`; lifted by MOD_LOAD (43_pwm_frame.md R123). -/
  | symbolWaiting
  /-- BUILD_STEP while `ready = 1`: the step does not exist; lifted by a RESET (40_build.md R80). -/
  | alreadyBuilt
  /-- The operation does not exist under the parameters; nothing lifts it (opcode_table.json `present_when`; log entry 4). -/
  | notPresent
  /-- BUILD_STEP, LOOKUP, EMIT or MOD_LOAD while `rst` stays 1; lifted by `rst = 0` (70_reset_and_hazards.md R150). -/
  | inReset
  deriving DecidableEq, Repr

/-- The host's I/O errors, surfaced by ENCODE to its caller (42_host_encoder.md R108, 60_exceptions.md R131). -/
inductive IoError where
  /-- The sample source cannot be read. -/
  | sourceUnreadable
  /-- The text sink cannot be written to. -/
  | sinkUnwritable
  deriving DecidableEq, Repr

/-- When the host's files fail (42_host_encoder.md R108): environment data (log entry 19). The block sees of them whether the source
offers and whether the sink accepts (60_exceptions.md R131; log entry 36). -/
structure HostIo where
  /-- How many more reads of the sample source succeed, one for a sample and one for finding that there is none; `none`: all. -/
  readable : Option Nat
  /-- How many more bytes the text sink takes; `none`: any number. -/
  writable : Option Nat
  /-- How many bytes of an aborted text the text sink keeps at most: "any prefix". -/
  kept : Nat
  deriving DecidableEq, Repr

/-- How far the host's Encoder has come (42_host_encoder.md R101); an ENCODE that a hold stops goes on from here (log entry 17).
The host formats `snk` (30_encoding.md R70), so both numbers are places in `snk` (log entry 30). -/
inductive EncPhase where
  /-- No ENCODE has been started, or it has ended. -/
  | idle
  /-- Inside step 2: the first symbol of this stream is or will be `snk[base]`; the symbols before `snk[pos]` are written. -/
  | filling (base pos : Nat)
  deriving DecidableEq, Repr

/-- The port levels at one rising edge of `clk` (10_state.md R29), with the choices the spec leaves to the block's timing
(10_state.md R29 `s_ready`, 70_reset_and_hazards.md R160; log entry 23). `s_valid` and `s_data` are no choice of the edge: they are
`State.sValid` and `head(src)`, since a sample once offered stays offered until LOOKUP accepts it (R29). -/
structure Edge where
  /-- The port `rst`. -/
  rst : Bool
  /-- Whether the host's sink is willing to accept: the level of `m_ready` that it drives, but for a sink that has failed (log entry
  36); with `HAS_MOD`, MOD drives it. -/
  mReady : Bool
  /-- A slot tick falls at this edge. -/
  tick : Bool
  /-- The block raises `s_ready` at this edge if LOOKUP is enabled ("1 only in a cycle in which LOOKUP is enabled"). -/
  sReadyWill : Bool
  /-- The builder is scheduled at this edge. -/
  build : Bool
  deriving DecidableEq, Repr

/-- Who acts next: every interleaving of the agents of 00_scope.md R10 is a list of turns (log entry 8). -/
inductive Turn where
  /-- An agent attempts the operation the event selects: one line of a trace (30_encoding.md R70). -/
  | op (sel : Selector) (word : List Byte)
  /-- The source offers one sample more, after those it offers already (10_state.md R29). -/
  | feed (s : Byte)
  /-- The sink begins to accept, or to decline (00_scope.md R10). -/
  | sink (accepts : Bool)
  /-- The host drives `rst`. -/
  | rst (level : Bool)
  /-- The host stops an ENCODE that waits (42_host_encoder.md R111 "It may stop at any time"; log entry 33). -/
  | stop
  /-- The host starts again: it applies RESET and feeds a fresh stream from its first sample, from files of its own
  (60_exceptions.md R138; log entry 33). -/
  | again (samples : List Byte) (io : HostIo)
  /-- A slot tick (43_pwm_frame.md R120). -/
  | tick
  /-- A rising edge of `clk` with its port levels (60_exceptions.md R136). -/
  | edge (e : Edge)
  deriving DecidableEq, Repr

/-- Everything the spec gives the machine, its environment and its host, and the model's own three fields. -/
structure State where
  /-- The parameters; no step writes them (00_scope.md R6; log entry 1). -/
  cfg : Config
  /-- `MAP` (10_state.md R23): the entries that hold a value, addresses strictly rising. -/
  map : List Host.Cell
  /-- `bidx` (10_state.md R24). -/
  bidx : BuildIndex
  /-- `ready` (10_state.md R25). -/
  ready : Bool
  /-- `oq`, oldest first (10_state.md R26). -/
  oq : List Byte
  /-- MOD's `fr` (43_pwm_frame.md R120); inert when `HAS_MOD` is false (log entry 11). -/
  fr : FrameReg
  /-- MOD's `fcnt` (43_pwm_frame.md R120). -/
  fcnt : SlotCount
  /-- MOD's `line` (43_pwm_frame.md R120). -/
  line : Bool
  /-- `tx`, the levels driven so far, first in time first (43_pwm_frame.md R120). -/
  tx : List Bool
  /-- `src`, the samples offered and not yet accepted, in order (10_state.md R29; log entry 6). -/
  src : List Byte
  /-- `snk`, the symbols taken so far, in order (10_state.md R29). -/
  snk : List Byte
  /-- Whether the host's sink is willing to accept (00_scope.md R10); the level it drives is `State.sinkAccepts`. -/
  mReady : Bool
  /-- `rst` (10_state.md R29). -/
  rst : Bool
  /-- The host's text sink (42_host_encoder.md R101). -/
  text : List Byte
  /-- The Encoder's progress (42_host_encoder.md R101). -/
  enc : EncPhase
  /-- The host's files (42_host_encoder.md R108). -/
  io : HostIo
  /-- The I/O error the last ENCODE surfaced (42_host_encoder.md R108). -/
  ioErr : Option IoError
  /-- MODEL'S OWN: the hold the last step ended in (00_scope.md R11; log entry 3). -/
  hold : Option Hold
  /-- MODEL'S OWN: the turns still to be taken (log entry 8). -/
  sched : List Turn
  /-- MODEL'S OWN: selects the free value of `m_data` (log entry 21). -/
  free : Nat
  deriving DecidableEq, Repr

/-- The state right after RESET with the default parameters (10_state.md R30, 43_pwm_frame.md R120); the environment's and the
host's values are log entry 10. -/
def State.reset : State :=
  { cfg := Config.default
    map := []
    bidx := 0#9
    ready := false
    oq := []
    fr := BitVec.allOnes 10
    fcnt := 0#4
    line := true
    tx := []
    src := []
    snk := []
    mReady := false
    rst := false
    text := []
    enc := .idle
    io := { readable := none, writable := none, kept := 0 }
    ioErr := none
    hold := none
    sched := []
    free := 0 }

/-- What a step answers. -/
abbrev Result := Host.Outcome State Fault Refusal

end Sys2Proof.Machine
end

