-- ==== Sys2Proof/Machine/Flags.lean ====
section
/-! DEFINITION. The one flag of the block, `ready` (spec/10_state.md R25): no operation sets a carry, zero, overflow or error
flag. -/

namespace Sys2Proof.Machine

/-- The value of `bidx` at which BUILD has finished, 256 (10_state.md R24). -/
def bidxDone : BuildIndex := 256#9

/-- `ready` after the BUILD_STEP that starts at `bidx = b`: 1 if `bidx + 1 = 256`, else 0 (40_build.md R80). -/
def readyAfter (b : BuildIndex) : Bool := b + 1#9 == bidxDone

end Sys2Proof.Machine
end

