-- ==== Sys2Proof/Machine/Frame.lean ====
section
/-! DEFINITION. The symbol as a PWM frame: pure definitions, available whatever `HAS_MOD` is (spec/43_pwm_frame.md R115 to R118;
the frame is the spec's own general knowledge, log entry 24). -/

namespace Sys2Proof.Machine

/-- `frame(y)`: start slot low, the data bits least significant first, stop slot high (43_pwm_frame.md R116). -/
def frame (y : Byte) : List Bool := false :: (List.range 8).map y.getLsbD ++ [true]

/-- `{ 1, y[7:0], 0 }`, what MOD_LOAD puts into `fr` (43_pwm_frame.md R121). -/
def frameWord (y : Byte) : FrameReg := (1#1 ++ y) ++ 0#1

/-- The number of 1 levels in a list of slots. -/
def highSlots (l : List Bool) : Nat := l.count true

/-- `duty(y)`, the fraction of the frame's slots that are high (43_pwm_frame.md R117). -/
def duty (y : Byte) : Rat := (highSlots (frame y) : Rat) / 10

/-- The number of bits set in a byte; for a symbol it is its index (30_encoding.md R62). -/
def bitsSet (y : Byte) : Nat := ((List.range 8).map y.getLsbD).count true

/-- The number of places where a low slot is followed by a high one. -/
def risingEdges : List Bool → Nat
  | a :: b :: l => (if !a && b then 1 else 0) + risingEdges (b :: l)
  | _ => 0

/-- The number of places where a high slot is followed by a low one. -/
def fallingEdges : List Bool → Nat
  | a :: b :: l => (if a && !b then 1 else 0) + fallingEdges (b :: l)
  | _ => 0

end Sys2Proof.Machine
end

