-- ==== Sys2Proof/Machine/Operands.lean ====
section
/-! DEFINITION. Operand assembly: from a sample to its index and its symbol (spec/30_encoding.md R64 to R66; 10_state.md R21;
41_lookup.md R90). -/

namespace Sys2Proof.Machine

/-- `p = zext_12(s) * 9` (30_encoding.md R64); never wraps (41_lookup.md R98). -/
def product (s : Byte) : Product := s.setWidth 12 * 9

/-- `idx(s) = p[11:8]` (30_encoding.md R64). -/
def idx (s : Byte) : Index := (product s).extractLsb' 8 4

/-- The symbol table `SYM` (10_state.md R21): the normative list of nine constants. -/
def symTable : List Byte :=
  [0b00000000, 0b10000000, 0b11000000, 0b11100000, 0b11110000, 0b11111000, 0b11111100, 0b11111110, 0b11111111]

/-- `SymRead(k)` (00_scope.md R8): there is no entry at index 9 to 15 (10_state.md R21). -/
def symRead (k : Index) : Option Byte := symTable[k.toNat]?

/-- `Q(s) = SYM[idx(s)]` (41_lookup.md R90). The default is never read: `idx(s) <= 8` (40_build.md R83); the machine itself
reads `SYM` by `symRead`, which has no default. -/
def Q (s : Byte) : Byte := (symRead (idx s)).getD 0

/-- The entry of `MAP` at address `a` once it is built. -/
def builtCell (a : Nat) : Host.Cell := (a, Q (BitVec.ofNat 8 a))

/-- The first `n` entries of the built `MAP`: what BUILD has written after `n` steps (40_build.md R80). -/
def builtPrefix (n : Nat) : List Host.Cell := (List.range n).map builtCell

/-- `MAP = Q`, all 256 entries (30_encoding.md R66, 40_build.md R81). -/
def builtMap : List Host.Cell := builtPrefix 256

/-- `bidx[7:0]`, the address BUILD_STEP writes (40_build.md R80). -/
def buildAddress (b : BuildIndex) : Byte := b.extractLsb' 0 8

end Sys2Proof.Machine
end

