-- ==== Sys2Proof/Machine/Ops.lean ====
section
/-! DEFINITION. The named operations over `MAP`, the queue, the streams and MOD, shared by the meanings (spec/00_scope.md R8;
40_build.md R80; 41_lookup.md R91 to R93; 43_pwm_frame.md R121 to R123; 70_reset_and_hazards.md R150). There is no exception
entry or return to share: WARTQ has no trap mechanism (60_exceptions.md R130); the outcome that takes its place is the hold. -/

namespace Sys2Proof.Machine

/-! ### The memory `MAP` -/

/-- The canonical form: addresses strictly rising and below 256. An unlisted entry holds no value, so no listed entry can equal
it. -/
abbrev Memory.wf (m : List Host.Cell) : Prop := m.Pairwise (fun c d => c.1 < d.1) ∧ ∀ c ∈ m, c.1 < 256

/-- `MAP[a]`: `none` where the entry holds no value (10_state.md R23). -/
def Memory.read : List Host.Cell → Nat → Option Byte
  | [], _ => none
  | (b, v) :: m, a => if b = a then some v else Memory.read m a

/-- `MemWrite(a, 1, v)` (00_scope.md R8), keeping the canonical form. -/
def Memory.write : List Host.Cell → Nat → Byte → List Host.Cell
  | [], a, v => [(a, v)]
  | (b, w) :: m, a, v =>
    if a < b then (a, v) :: (b, w) :: m
    else if a = b then (a, v) :: m
    else (b, w) :: Memory.write m a v

/-- `MAP[s]` for a sample: the address is the sample itself (20_memory.md R45). -/
def State.mapRead (s : State) (a : Byte) : Option Byte := Memory.read s.map a.toNat

/-! ### Outcomes -/

/-- The step is not enabled: a hold, which changes nothing else (00_scope.md R11; log entry 3). -/
def State.held (s : State) (h : Hold) : State := { s with hold := some h }

/-- Runs `op` where no hold stands, and records the hold where one does. -/
def unlessHeld (h : Option Hold) (s : State) (op : State → Result) : Result :=
  match h with
  | some h => .next (s.held h)
  | none => op s

/-- One step, and then another if the first was neither held nor a fault (log entry 16). -/
def thenIfDone (r : Result) (f : State → Result) : Result :=
  match r with
  | .next s => if s.hold.isSome then .next s else f s
  | .fault e => .fault e
  | .refused e => .refused e

/-! ### RESET -/

/-- The state after RESET (10_state.md R30, 70_reset_and_hazards.md R150, 43_pwm_frame.md R120): `src`, `snk` and everything else
of the host's stays, but that an ENCODE under way has no resume (60_exceptions.md R138; log entry 32). `tx` is "empty at reset" (log
entry 12). -/
def State.toReset (s : State) : State :=
  { s with
    map := if s.cfg.prebuilt then builtMap else []
    bidx := if s.cfg.prebuilt then bidxDone else 0#9
    ready := s.cfg.prebuilt
    oq := []
    fr := BitVec.allOnes 10
    fcnt := 0#4
    line := true
    tx := []
    enc := .idle
    hold := none }

/-- The state right after reset for any parameters; `State.reset` is the one with the defaults. -/
def State.resetWith (c : Config) : State := State.toReset { State.reset with cfg := c }

/-! ### BUILD_STEP -/

/-- The state after a BUILD_STEP that writes `v` (40_build.md R80). -/
def State.built (s : State) (v : Byte) : State :=
  { s with
    map := Memory.write s.map (buildAddress s.bidx).toNat v
    bidx := s.bidx + 1#9
    ready := readyAfter s.bidx
    hold := none }

/-- Why BUILD_STEP is not enabled: never with `PREBUILT = true`, not while `rst` stays 1, not when `ready = 1`. -/
def buildHold (s : State) : Option Hold :=
  if s.cfg.prebuilt then some .notPresent
  else if s.rst then some .inReset
  else if s.ready then some .alreadyBuilt
  else none

/-- One iteration of the document's `build()` (40_build.md R80). -/
def buildOne (s : State) : Result :=
  unlessHeld (buildHold s) s fun s =>
    match symRead (idx (buildAddress s.bidx)) with
    | none => .fault (.indexOutOfRange (idx (buildAddress s.bidx)))
    | some v => .next (s.built v)

/-- `n` BUILD_STEPs, fewer if one is held (40_build.md R81). -/
def buildMany : Nat → State → Result
  | 0, s => .next s
  | n + 1, s => thenIfDone (buildOne s) (buildMany n)

/-! ### The source and the sink -/

/-- The files after the source has answered one read, with a sample or with none (log entry 19). -/
def HostIo.afterRead (io : HostIo) : HostIo := { io with readable := io.readable.map (· - 1) }

/-- The source has answered a read. -/
def State.sourceRead (s : State) : State := { s with io := s.io.afterRead }

/-- `s_valid`: the source offers, until LOOKUP has taken the sample (10_state.md R29; log entry 6). A source that cannot be read
offers nothing (60_exceptions.md R131; log entry 36). -/
def State.sValid (s : State) : Bool := !s.src.isEmpty && s.io.readable != some 0

/-- `m_ready` as the host's sink drives it (10_state.md R29). A sink that could not be written to accepts nothing more
(60_exceptions.md R131; log entry 36). -/
def State.sinkAccepts (s : State) : Bool := s.mReady && s.ioErr != some .sinkUnwritable

/-! ### LOOKUP -/

/-- The state after a LOOKUP that read `v`: `v` is pushed, the sample consumed (41_lookup.md R91), and the source has answered one
read more. -/
def State.accepted (s : State) (v : Byte) : State :=
  { s with oq := s.oq ++ [v], src := s.src.tail, io := s.io.afterRead, hold := none }

/-- Why LOOKUP is not enabled (41_lookup.md R92); the order of the tests is log entry 5. -/
def lookupHold (s : State) : Option Hold :=
  if s.rst then some .inReset
  else if !s.ready then some .notReady
  else if s.cfg.oqDepth ≤ s.oq.length then some .outputFull
  else if !s.sValid then some .noSample
  else none

/-- The document's `lookup(x)` on the sample the source offers (41_lookup.md R91). -/
def lookupOne (x : Byte) (s : State) : Result :=
  unlessHeld (lookupHold s) s fun s =>
    if s.src.head? = some x then
      match s.mapRead x with
      | none => .fault (.readUnbuilt x)
      | some v => .next (s.accepted v)
    else .next (s.held .notOffered)

/-! ### EMIT and MOD_LOAD -/

/-- The state after the head `y` of `oq` has gone to `snk` (41_lookup.md R93). -/
def State.delivered (s : State) (y : Byte) : State :=
  { s with oq := s.oq.tail, snk := s.snk ++ [y], hold := none }

/-- Why EMIT is not enabled (41_lookup.md R93). -/
def emitHold (s : State) : Option Hold :=
  if s.rst then some .inReset
  else if s.oq.isEmpty then some .empty
  else if !s.sinkAccepts then some .sinkStall
  else none

/-- Why MOD_LOAD is not enabled (43_pwm_frame.md R121). R121 names neither hold; the names are log entry 37. -/
def loadHold (s : State) : Option Hold :=
  if !s.cfg.hasMod then some .notPresent
  else if s.rst then some .inReset
  else if s.fcnt ≠ 0#4 then some .modBusy
  else if s.oq.isEmpty then some .empty
  else none

/-- Delivery of `head(oq)`; `f` is what becomes of the state with the symbol taken. -/
def deliverHead (f : State → Byte → State) (s : State) : Result :=
  match s.oq with
  | [] => .next (s.held .empty)
  | y :: _ => .next (f s y)

/-- The state after MOD has taken `y`: EMIT with MOD as the sink (43_pwm_frame.md R121). -/
def State.loaded (s : State) (y : Byte) : State :=
  { s.delivered y with fr := frameWord y, fcnt := 10#4 }

/-- MOD takes the next symbol (43_pwm_frame.md R121). -/
def loadOne (s : State) : Result := unlessHeld (loadHold s) s (deliverHead State.loaded)

/-- The delivery of the oldest symbol (41_lookup.md R93): with `HAS_MOD` it is the step MOD_LOAD (log entry 14), and where MOD's frame
stands in its way it is held as `modBusy`, not as R93's `SinkStall` (log entry 37). -/
def emitOne (s : State) : Result :=
  if s.cfg.hasMod then loadOne s else unlessHeld (emitHold s) s (deliverHead State.delivered)

/-! ### MOD_SHIFT and MOD_IDLE -/

/-- The state after a slot of the frame has been driven (43_pwm_frame.md R122). -/
def State.shifted (s : State) : State :=
  { s with
    line := s.fr.getLsbD 0
    tx := s.tx ++ [s.fr.getLsbD 0]
    fr := 1#1 ++ s.fr.extractLsb' 1 9
    fcnt := s.fcnt - 1#4
    hold := none }

/-- The state after an idle slot (43_pwm_frame.md R123). -/
def State.idled (s : State) : State :=
  { s with line := true, tx := s.tx ++ [true], hold := none }

/-- Why MOD_SHIFT is not enabled (43_pwm_frame.md R122); the name of the hold is log entry 37. -/
def shiftHold (s : State) : Option Hold :=
  if !s.cfg.hasMod then some .notPresent
  else if s.fcnt = 0#4 then some .nothingToShift
  else none

/-- Why MOD_IDLE is not enabled (43_pwm_frame.md R123); the names of the holds are log entry 37. -/
def idleHold (s : State) : Option Hold :=
  if !s.cfg.hasMod then some .notPresent
  else if s.fcnt ≠ 0#4 then some .modBusy
  else if !s.oq.isEmpty then some .symbolWaiting
  else none

/-- Drives one slot of the current frame (43_pwm_frame.md R122). -/
def shiftOne (s : State) : Result := unlessHeld (shiftHold s) s fun s => .next s.shifted

/-- Drives an idle slot (43_pwm_frame.md R123). -/
def idleOne (s : State) : Result := unlessHeld (idleHold s) s fun s => .next s.idled

/-- `QUANT x`: LOOKUP `x` immediately followed by EMIT (30_encoding.md R70). -/
def quantOne (x : Byte) (s : State) : Result := thenIfDone (lookupOne x s) emitOne

end Sys2Proof.Machine
end

