-- ==== Sys2Proof/Machine/Build.lean ====
section
/-! DEFINITION. The meanings of BUILD_STEP and BUILD (spec/40_build.md R80, R81). -/

namespace Sys2Proof.Machine

/-- BUILD_STEP: one entry of `MAP` (40_build.md R80). -/
def execBuildStep (s : State) : Result := buildOne s

/-- BUILD: BUILD_STEP repeated 256 times, as one atomic step (40_build.md R81; log entry 16). -/
def execBuild (s : State) : Result := buildMany 256 s

end Sys2Proof.Machine
end

