-- ==== Sys2Proof/Machine/Text.lean ====
section
/-! DEFINITION. The host's text, byte by byte (spec/42_host_encoder.md R102 to R107; 90_conflicts.md C5 to C7). -/

namespace Sys2Proof.Machine

/-- The bytes of a text of ASCII characters. -/
def ascii (t : String) : List Byte := t.toList.map fun c => BitVec.ofNat 8 c.toNat

/-- A lower-case hexadecimal digit (42_host_encoder.md R103). -/
def hexDigit (d : Nat) : Byte := if d < 10 then BitVec.ofNat 8 (0x30 + d) else BitVec.ofNat 8 (0x61 + (d - 10))

/-- The literal of a symbol: `0x`, the digits of `y[7:4]` and `y[3:0]`, a comma (42_host_encoder.md R103). -/
def literal (y : Byte) : List Byte :=
  ascii "0x" ++ [hexDigit (y.extractLsb' 4 4).toNat, hexDigit (y.extractLsb' 0 4).toNat] ++ ascii ","

/-- The characters of a data line, without its terminator (42_host_encoder.md R104). -/
def dataLineBody (syms : List Byte) : List Byte := ascii "  " ++ syms.flatMap literal

/-- A data line (42_host_encoder.md R104). -/
def dataLine (c : Config) (syms : List Byte) : List Byte := dataLineBody syms ++ c.eol

/-- The six lines of PREAMBLE without terminators; the last ends in an opening brace, 0x7B (42_host_encoder.md R105). -/
def preambleLines : List (List Byte) :=
  [ascii "#ifndef _WART_H_", ascii "#define _WART_H_", [], ascii "#include <stdint.h>", [],
    ascii "const uint8_t wart[] = " ++ [0x7B]]

/-- PREAMBLE: each line followed by `EOL` (42_host_encoder.md R105). -/
def preamble (c : Config) : List Byte := preambleLines.flatMap (· ++ c.eol)

/-- The first line of POSTAMBLE: a closing brace, 0x7D, and a semicolon (42_host_encoder.md R106). -/
def postambleFirst : List Byte := 0x7D :: ascii ";"

/-- The second line of POSTAMBLE (42_host_encoder.md R106). -/
def postambleLast : List Byte := ascii "#endif // #ifndef _WART_H_"

/-- POSTAMBLE: the last terminator is there when `FINAL_EOL` is true (42_host_encoder.md R106). -/
def postamble (c : Config) : List Byte :=
  postambleFirst ++ c.eol ++ postambleLast ++ (if c.finalEol then c.eol else [])

/-- `chunks` with a bound on their number. -/
def chunksUpTo : Nat → List Byte → List (List Byte)
  | 0, _ => []
  | _ + 1, [] => []
  | n + 1, y :: ys => (y :: ys).take chunkSize :: chunksUpTo n ((y :: ys).drop chunkSize)

/-- The chunks of a stream: 32 each, the last may be shorter, none is empty (42_host_encoder.md R102). -/
def chunks (l : List Byte) : List (List Byte) := chunksUpTo l.length l

/-- The whole text of a list of symbols: `PREAMBLE ++ LINE_0 ++ ... ++ LINE_(L-1) ++ POSTAMBLE` (42_host_encoder.md R101). -/
def wholeText (c : Config) (syms : List Byte) : List Byte :=
  preamble c ++ (chunks syms).flatMap (dataLine c) ++ postamble c

end Sys2Proof.Machine
end

