-- ==== Sys2Proof/Machine/Encoder.lean ====
section
/-! DEFINITION. The meaning of ENCODE, the host's Encoder (spec/42_host_encoder.md R100 to R109). It reaches the block only
through LOOKUP and EMIT (R100). -/

namespace Sys2Proof.Machine

/-- An I/O error: the run is aborted where it stands, and the text sink holds a prefix of what was written (42_host_encoder.md
R108; log entry 19). From then on the source offers nothing, or the sink accepts nothing (60_exceptions.md R131; log entry 36). -/
def State.abortEncode (s : State) (e : IoError) : State :=
  { s with ioErr := some e, enc := .idle, text := s.text.take s.io.kept, hold := none }

/-- Writing to the text sink: all of the bytes, or as many as it still takes and then the error (42_host_encoder.md R108). -/
def textWrite (bytes : List Byte) (s : State) : State :=
  match s.io.writable with
  | none => { s with text := s.text ++ bytes }
  | some m =>
    if bytes.length ≤ m then
      { s with text := s.text ++ bytes, io := { s.io with writable := some (m - bytes.length) } }
    else
      State.abortEncode { s with text := s.text ++ bytes.take m, io := { s.io with writable := some 0 } } .sinkUnwritable

/-- Step 1 of ENCODE, into an empty text sink (42_host_encoder.md R101; log entry 20); an ENCODE that was held goes on instead
(log entry 17). The symbols that are already on their way in `oq` come before those of this stream (log entry 30). -/
def beginEncode (s : State) : State :=
  match s.enc with
  | .idle =>
    textWrite (preamble s.cfg)
      { s with
        text := []
        ioErr := none
        enc := .filling (s.snk.length + s.oq.length) (s.snk.length + s.oq.length)
        hold := none }
  | .filling _ _ => s

/-- The symbols delivered to the host and not yet written (30_encoding.md R70 "the host formats `snk` as text"). -/
def State.unwritten (s : State) (pos : Nat) : List Byte := s.snk.drop pos

/-- One data line for the next chunk of delivered symbols (42_host_encoder.md R102, R104). -/
def flushLine (base pos : Nat) (s : State) : State :=
  textWrite (dataLine s.cfg ((s.unwritten pos).take chunkSize))
    { s with enc := .filling base (pos + ((s.unwritten pos).take chunkSize).length) }

/-- Step 3 of ENCODE (42_host_encoder.md R101). -/
def finishEncode (s : State) : State := { textWrite (postamble s.cfg) s with enc := .idle, hold := none }

/-- A symbol of this stream that is not written yet waits in `oq`. -/
def State.awaited (s : State) (pos : Nat) : Bool := !s.oq.isEmpty && decide (pos < s.snk.length + s.oq.length)

/-- A read that finds the source empty (42_host_encoder.md R101, step 2): it ends the chunk that was being pulled, and where that
chunk has no sample it ends the reading. That an empty `src` is the end of the stream is log entry 31. -/
def readNothing (base pos : Nat) (s : State) (next : State → Result) : Result :=
  if (s.unwritten pos).isEmpty then .next (finishEncode s.sourceRead) else next (flushLine base pos s.sourceRead)

/-- A read that finds a sample: LOOKUP of it, as soon as the symbols before it have left `oq` (log entry 30). -/
def readSample (x : Byte) (s : State) (next : State → Result) : Result :=
  if s.oq.isEmpty then thenIfDone (lookupOne x s) next else thenIfDone (emitOne s) next

/-- Step 2 of ENCODE: samples go through the block by LOOKUP and EMIT, one after the other (QUANT), and every 32 symbols that
`snk` has received since the start a line is written. Which step delivered them to `snk` does not matter, so an EMIT, a tick or an
edge that comes while ENCODE waits changes nothing in the text (42_host_encoder.md R109; log entry 30), also where it comes between
the LOOKUP and the EMIT of a QUANT that is held (log entry 17). An empty `src` ends the stream (log entry 31). The number bounds
the turns of the loop. -/
def encodeLoop : Nat → State → Result
  | 0, s => .next s
  | n + 1, s =>
    match s.enc with
    | .idle => .next s
    | .filling base pos =>
      if chunkSize ≤ (s.unwritten pos).length then encodeLoop n (flushLine base pos s)
      else if s.awaited pos then thenIfDone (emitOne s) (encodeLoop n)
      else if s.io.readable = some 0 then .next (s.abortEncode .sourceUnreadable)
      else
        match s.src with
        | [] => readNothing base pos s (encodeLoop n)
        | x :: _ => readSample x s (encodeLoop n)

/-- Enough turns: a LOOKUP and an EMIT for each sample, an EMIT for each symbol in `oq`, at most one line for each symbol, and the
end. -/
def encodeFuel (s : State) : Nat := 3 * s.src.length + 2 * s.oq.length + s.snk.length + 2

/-- ENCODE (42_host_encoder.md R101; log entries 16 to 20, 30 to 33, 36). -/
def execEncode (s : State) : Result := encodeLoop (encodeFuel s) (beginEncode s)

end Sys2Proof.Machine
end

