-- ==== Sys2Proof/Machine/Lookup.lean ====
section
/-! DEFINITION. The meanings of LOOKUP, EMIT and QUANT (spec/41_lookup.md R91 to R93; 30_encoding.md R70). -/

namespace Sys2Proof.Machine

/-- LOOKUP `x` (41_lookup.md R91, R92). -/
def execLookup (x : Byte) (s : State) : Result := lookupOne x s

/-- EMIT (41_lookup.md R93); with `HAS_MOD` it is the step MOD_LOAD (43_pwm_frame.md R121). -/
def execEmit (s : State) : Result := emitOne s

/-- QUANT `x`: LOOKUP `x` immediately followed by EMIT (30_encoding.md R70; log entry 16). -/
def execQuant (x : Byte) (s : State) : Result := quantOne x s

end Sys2Proof.Machine
end

