-- ==== Sys2Proof/Machine/Mod.lean ====
section
/-! DEFINITION. The meanings of MOD_LOAD, MOD_SHIFT and MOD_IDLE (spec/43_pwm_frame.md R121 to R123). -/

namespace Sys2Proof.Machine

/-- MOD_LOAD (43_pwm_frame.md R121). -/
def execModLoad (s : State) : Result := loadOne s

/-- MOD_SHIFT (43_pwm_frame.md R122). -/
def execModShift (s : State) : Result := shiftOne s

/-- MOD_IDLE (43_pwm_frame.md R123). -/
def execModIdle (s : State) : Result := idleOne s

end Sys2Proof.Machine
end

