-- ==== Sys2Proof/Machine/Reset.lean ====
section
/-! DEFINITION. The meaning of RESET (spec/70_reset_and_hazards.md R150, R152). -/

namespace Sys2Proof.Machine

/-- RESET: enabled in every state (70_reset_and_hazards.md R150). -/
def execReset (s : State) : Result := .next s.toReset

end Sys2Proof.Machine
end

