-- ==== Sys2Proof/Machine/Dispatch.lean ====
section
/-! DEFINITION. One arm per operation of spec/opcode_table.json. -/

namespace Sys2Proof.Machine

def exec (i : Instr) (s : State) : Host.Outcome State Fault Refusal :=
  match i with
  | .reset => Sys2Proof.Machine.execReset s
  | .buildStep => Sys2Proof.Machine.execBuildStep s
  | .lookup x => Sys2Proof.Machine.execLookup x s
  | .emit => Sys2Proof.Machine.execEmit s
  | .modLoad => Sys2Proof.Machine.execModLoad s
  | .modShift => Sys2Proof.Machine.execModShift s
  | .modIdle => Sys2Proof.Machine.execModIdle s
  | .build => Sys2Proof.Machine.execBuild s
  | .quant x => Sys2Proof.Machine.execQuant x s
  | .encode => Sys2Proof.Machine.execEncode s

end Sys2Proof.Machine
end

