-- ==== Sys2Proof/Machine/Ports.lean ====
section
/-! DEFINITION. The port binding (spec/10_state.md R29), the operations of one clock edge (60_exceptions.md R136) and of one slot
tick (43_pwm_frame.md R123). -/

namespace Sys2Proof.Machine

/-- `s_data = head(src)` (10_state.md R29). -/
def State.sData (s : State) : Option Byte := s.src.head?

/-- Whether `s_ready` may be 1: "only in a cycle in which LOOKUP is enabled" (10_state.md R29, 90_conflicts.md C8). -/
def State.sReadyAllowed (s : State) : Bool := (lookupHold s).isNone

/-- `m_valid`: 1 exactly when `oq` is not empty (10_state.md R29); taken as 0 in a cycle with `rst = 1` (60_exceptions.md
R136). -/
def State.mValid (s : State) : Bool := !s.rst && !s.oq.isEmpty

/-- `m_data`: `head(oq)` when `m_valid = 1`, else the free value (10_state.md R29; log entry 21). -/
def State.mData (s : State) : Byte :=
  if s.mValid then s.oq.headD 0 else Config.idleData s.free

/-- `m_ready`: the host's sink drives it, or MOD, which accepts when it is idle (43_pwm_frame.md R120, R121; log entry 14). -/
def State.mReadyPort (s : State) : Bool := if s.cfg.hasMod then s.fcnt == 0#4 else s.sinkAccepts

/-- The wire `line`, which exists only with `HAS_MOD` (43_pwm_frame.md R115, R120). -/
def State.linePort (s : State) : Option Bool := if s.cfg.hasMod then some s.line else none

/-- A transfer on the output channel happens at an edge (10_state.md R29). -/
def State.transfersOut (s : State) : Bool := s.mValid && s.mReadyPort

/-- What a slot tick does: a waiting symbol is loaded first and the tick is then its first slot (43_pwm_frame.md R123,
60_exceptions.md R136 (d)). While `rst = 1` MOD_LOAD is held, and such a tick drives no slot (log entry 34). -/
def tickOps (s : State) : List Instr :=
  if !s.cfg.hasMod then []
  else if s.fcnt ≠ 0#4 then [.modShift]
  else if s.oq.isEmpty then [.modIdle]
  else [.modLoad, .modShift]

/-- The levels the host drives at an edge. -/
def State.drive (s : State) (e : Edge) : State := { s with rst := e.rst, mReady := e.mReady }

/-- The builder's operation at an edge (60_exceptions.md R136 (b)). -/
def edgeBuild (s : State) (e : Edge) : List Instr :=
  if e.build && (buildHold s).isNone then [.buildStep] else []

/-- The output channel's operations at an edge, with the slot tick if one falls there. -/
def edgeOut (s : State) (e : Edge) : List Instr :=
  if s.cfg.hasMod && e.tick then tickOps s
  else if s.transfersOut then [if s.cfg.hasMod then .modLoad else .emit]
  else []

/-- The queue as the input channel finds it: without the symbol the same edge takes (60_exceptions.md R136 (c)). -/
def State.afterOut (s : State) : State := if s.transfersOut then { s with oq := s.oq.tail } else s

/-- The input channel's operation at an edge (10_state.md R29, 60_exceptions.md R136 (c)). -/
def edgeIn (s : State) (e : Edge) : List Instr :=
  match s.src with
  | [] => []
  | x :: _ => if e.sReadyWill && s.afterOut.sReadyAllowed then [.lookup x] else []

/-- The operations of one rising edge, in an order that gives their combined effect (60_exceptions.md R136; log entry 23); `s`
already has the edge's levels. RESET wins over everything else. -/
def edgeOps (s : State) (e : Edge) : List Instr :=
  if e.rst then [.reset] else edgeBuild s e ++ edgeOut s e ++ edgeIn s e

end Sys2Proof.Machine
end

