-- ==== Sys2Proof/Machine/Sched.lean ====
section
/-! DEFINITION. Which operation the next step runs: WARTQ fetches no instructions (spec/30_encoding.md R60), so what stands in
place of a fetch is the next turn of the schedule (00_scope.md R12; log entries 8, 9). -/

namespace Sys2Proof.Machine

/-- What the next turn comes to. -/
inductive Fetched where
  /-- The operation `i` runs at the state `s`. -/
  | run (i : Instr) (s : State)
  /-- No operation runs: a host action, or the turns of an edge or a tick put in its place, or nothing is enabled. -/
  | settle (s : State)
  /-- The turn's words fit no operation. -/
  | reject (e : DecodeError)
  deriving DecidableEq, Repr

/-- The turn that selects an operation. -/
def opTurn (i : Instr) : Turn := .op (encode i).1 (encode i).2

/-- The turn taken, with the turns that are left. -/
def State.advance (s : State) (rest : List Turn) : State := { s with sched := rest, free := s.free + 1 }

/-- A fresh stream from files of its own, of which no error is known (60_exceptions.md R138; log entry 33). -/
def State.afresh (s : State) (samples : List Byte) (io : HostIo) : State :=
  { s with src := samples, io := io, ioErr := none }

/-- The operation that runs where nothing is scheduled (log entry 9): RESET while `rst = 1`, else the builder, else the output
port, else LOOKUP, else a slot of MOD's frame. -/
def autoOp (s : State) : Option Instr :=
  if s.rst then some .reset
  else if (buildHold s).isNone then some .buildStep
  else if s.transfersOut then some (if s.cfg.hasMod then .modLoad else .emit)
  else
    match s.src with
    | x :: _ =>
      if s.sReadyAllowed then some (.lookup x)
      else if s.cfg.hasMod && s.fcnt != 0#4 then some .modShift else none
    | [] => if s.cfg.hasMod && s.fcnt != 0#4 then some .modShift else none

/-- A host action or an expansion: a turn that runs no operation. -/
def settleWith (s : State) : Fetched := .settle { s with hold := none }

/-- The next turn (log entries 8, 9). Where nothing is scheduled and nothing enabled, the block waits, and `hold` says what LOOKUP
waits for, also where EMIT waits too (log entry 35). -/
def fetch (s : State) : Fetched :=
  match s.sched with
  | [] =>
    match autoOp s with
    | some i => .run i (s.advance [])
    | none => .settle { s.advance [] with hold := lookupHold s }
  | .op sel word :: rest =>
    match decode sel word with
    | .ok i => .run i (s.advance rest)
    | .error e => .reject e
  | .feed x :: rest => settleWith { s.advance rest with src := s.src ++ [x] }
  | .sink b :: rest => settleWith { s.advance rest with mReady := b }
  | .rst b :: rest => settleWith { s.advance rest with rst := b }
  | .stop :: rest => settleWith { s.advance rest with enc := .idle }
  | .again l io :: rest => .run .reset (s.afresh l io |>.advance rest)
  | .tick :: rest => settleWith (s.advance ((tickOps s).map opTurn ++ rest))
  | .edge e :: rest => settleWith ((s.drive e).advance ((edgeOps (s.drive e) e).map opTurn ++ rest))

/-- The state in which the input channel's transfer of `x` is the very next operation and is not held: the map built, room in the
queue, `rst = 0`, `x` the sample offered by a source that can be read (log entry 15). -/
def State.placeSample (s : State) (x : Byte) : State :=
  { s with
    map := builtMap
    bidx := bidxDone
    ready := true
    oq := s.oq.take (s.cfg.oqDepth - 1)
    rst := false
    src := x :: s.src
    io := { s.io with readable := none }
    sched := opTurn (.lookup x) :: s.sched }

end Sys2Proof.Machine
end

