-- ==== Sys2Proof/Machine/Step.lean ====
section
/-! DEFINITION. One step of the machine (spec/00_scope.md R11, R12), and the word the host places for it. -/

namespace Sys2Proof.Machine

/-- Runs what the next turn comes to. -/
def runFetched : Fetched → Host.Outcome State Fault Refusal
  | .run i s => exec i s
  | .settle s => .next s
  | .reject e => .refused (.undecodable e)

/-- One step: the next turn of the schedule, or the block's own move where nothing is scheduled. -/
def step (s : State) : Host.Outcome State Fault Refusal := runFetched (fetch s)

/-- `s` with the operation of a row's bits placed as the very next one (log entry 15); unchanged where the bits select none. -/
def State.withFetchWord (s : State) (nbits w : Nat) : State :=
  match decodeTableWord nbits w with
  | some (.lookup x) => s.placeSample x
  | _ => s

end Sys2Proof.Machine
end

