-- ==== Sys2Proof/Machine/Numerics.lean ====
section
/-! DEFINITION. The real-valued index formula of the source and its exactness in floating point (spec/40_build.md R82): the
block computes none of this; the definitions tie its integer formula to the source's. -/

namespace Sys2Proof.Machine

/-- `lerp` (40_build.md R82): `y = y0 + (x - x0) * (y1 - y0) / (x1 - x0)`, on exact rationals. -/
def lerp (x x0 x1 y0 y1 : Rat) : Rat := y0 + (x - x0) * (y1 - y0) / (x1 - x0)

/-- `trunc(r)`: `r` rounded toward zero (00_scope.md R8). -/
def trunc (r : Rat) : Int := if 0 ≤ r then r.floor else r.ceil

/-- The source's `j = lerp(i, 0, 256, 0, 9)` (40_build.md R80). -/
def lerpIndex (i : Byte) : Rat := lerp (i.toNat : Rat) 0 256 0 9

/-- `x` is exact with `p` significand bits, exponents unbounded: a rounding to `p` bits returns it unchanged (log entry 29). -/
def ExactIn (p : Nat) (x : Rat) : Prop := ∃ m e : Nat, m < 2 ^ p ∧ x = (m : Rat) / 2 ^ e

/-- The intermediates of `i * 9 / 256` in the document's operation order and in the orders `(i / 256) * 9` and
`i * (9 / 256)` (40_build.md R82). -/
def floatIntermediates (i : Byte) : List Rat :=
  let x : Rat := i.toNat
  [x * 9, x * 9 / 256, x / 256, x / 256 * 9, 9 / 256, x * (9 / 256)]

end Sys2Proof.Machine
end

