-- ==== Sys2Proof/WellFormed.lean ====
section
/-! DEFINITION. What makes a configuration and an operation well formed (spec/00_scope.md R6; the column `present_when` of
spec/opcode_table.json). -/

namespace Sys2Proof

/-- `OQ_DEPTH` is at least 1 (00_scope.md R6). -/
abbrev Config.WF (c : Config) : Prop := 1 ≤ c.oqDepth

/-- The operation exists under these parameters: the row's `present_when`. Every operand word is legal (30_encoding.md R67), so
there is nothing else to check of an operation. -/
def Instr.present (c : Config) : Instr → Bool
  | .buildStep => !c.prebuilt
  | .build => !c.prebuilt
  | .modLoad => c.hasMod
  | .modShift => c.hasMod
  | .modIdle => c.hasMod
  | .reset => true
  | .lookup _ => true
  | .emit => true
  | .quant _ => true
  | .encode => true

end Sys2Proof
end

