-- ==== Sys2Proof/Safety.lean ====
section
/-! DEFINITION. What counts as a safe state and a safe run of WARTQ, in the terms the claims use (spec/10_state.md R31, R33;
41_lookup.md R94, R96; 43_pwm_frame.md R124). -/

namespace Sys2Proof

open Sys2Proof.Machine

/-- Every element is one of the nine symbols (41_lookup.md R94). -/
def SymbolsOnly (l : List Byte) : Prop := ∀ y ∈ l, y ∈ symTable

/-- The invariants of every reachable state (10_state.md R31), with those of MOD (43_pwm_frame.md R120); those of the host's
Encoder are `EncodeLaw`. -/
structure BlockInv (s : State) : Prop where
  /-- `OQ_DEPTH >= 1` (00_scope.md R6). -/
  depth : s.cfg.WF
  /-- R31 (a). -/
  bidx_le : s.bidx.toNat ≤ 256
  /-- R31 (b). -/
  ready_iff : s.ready = true ↔ s.bidx.toNat = 256
  /-- 40_build.md R86: with `PREBUILT` the block is always ready. -/
  prebuilt_ready : s.cfg.prebuilt = true → s.ready = true
  /-- `MAP` is in canonical form. -/
  map_wf : Memory.wf s.map
  /-- R31 (c). -/
  map_built : ∀ a : Byte, a.toNat < s.bidx.toNat → s.mapRead a = some (Q a)
  /-- R31 (d). -/
  map_unbuilt : ∀ a : Byte, s.bidx.toNat ≤ a.toNat → s.mapRead a = none
  /-- R31 (e). -/
  oq_le : s.oq.length ≤ s.cfg.oqDepth
  /-- R31 (f). -/
  oq_symbols : SymbolsOnly s.oq
  /-- R31 (g). -/
  oq_empty : s.ready = false → s.oq = []
  /-- 41_lookup.md R94: every symbol delivered. -/
  snk_symbols : SymbolsOnly s.snk
  /-- 43_pwm_frame.md R120: `fcnt` is 0 to 10. -/
  fcnt_le : s.fcnt.toNat ≤ 10
  /-- 43_pwm_frame.md R122: the slots beyond the current frame are high. -/
  fr_high : ∀ i : Nat, s.fcnt.toNat ≤ i → i < 10 → s.fr.getLsbD i = true
  /-- 43_pwm_frame.md R115: without `HAS_MOD` there is no MOD; its fields stand at their reset values. -/
  mod_absent : s.cfg.hasMod = false → s.fr = BitVec.allOnes 10 ∧ s.fcnt = 0#4 ∧ s.line = true ∧ s.tx = []

/-- The law of an ENCODE under way (42_host_encoder.md R101, R109): no error has been surfaced, and what is in the text sink is
PREAMBLE and the lines of the symbols that `snk` has received since the start, up to a chunk boundary. Nothing else is in it,
whichever steps delivered the symbols. -/
def EncodeLaw (s : State) : Prop :=
  ∀ base pos : Nat, s.enc = .filling base pos →
    s.ioErr = none ∧ base ≤ pos ∧ pos ≤ s.snk.length + s.oq.length ∧ (pos = base ∨ pos ≤ s.snk.length) ∧
    chunkSize ∣ pos - base ∧
    s.text = preamble s.cfg ++ (chunks ((s.snk.drop base).take (pos - base))).flatMap (dataLine s.cfg)

/-- The symbols that an ENCODE has to write, those that are written included: of the samples it has had accepted, and of the samples
that the source still offers (42_host_encoder.md R101). -/
def encodeStream (s : State) : List Byte :=
  match s.enc with
  | .idle => s.src.map Q
  | .filling base _ => (s.snk ++ s.oq).drop base ++ s.src.map Q

/-- How often ENCODE asks the source for a stream of `n` samples: once for each sample, once for the end of a chunk that is not
full, and once for the end of the stream (42_host_encoder.md R101, step 2). -/
def encodeReads (n : Nat) : Nat := n + (if n % chunkSize = 0 then 1 else 2)

/-- The slots of the current frame that have not been driven, next first (43_pwm_frame.md R120). -/
def frameRest (s : State) : List Bool := (List.range s.fcnt.toNat).map s.fr.getLsbD

/-- `LineOf ys l`: the levels `l` are frames of the symbols `ys`, in order, with idle slots at the high level between them and
never inside one (43_pwm_frame.md R124). -/
inductive LineOf : List Byte → List Bool → Prop where
  | nil : LineOf [] []
  | idle {ys : List Byte} {l : List Bool} : LineOf ys l → LineOf ys (l ++ [true])
  | frame {ys : List Byte} {l : List Bool} (y : Byte) : LineOf ys l → LineOf (ys ++ [y]) (l ++ frame y)

/-- The line law of a stream (43_pwm_frame.md R124): `before` is what `snk` held when the line began, and what has been driven since
then, with the rest of the current frame, is the line of exactly the symbols delivered since then. -/
structure LineLawFrom (before : List Byte) (s : State) : Prop where
  fcnt_le : s.fcnt.toNat ≤ 10
  line_of : s.cfg.hasMod = true → ∃ since : List Byte, s.snk = before ++ since ∧ LineOf since (s.tx ++ frameRest s)
  mod_absent : s.cfg.hasMod = false → s.fcnt = 0#4 ∧ s.tx = []

/-- The line law, for a line that began somewhere in `snk`; where it began is `LineLawFrom`. -/
def LineLaw (s : State) : Prop := ∃ before : List Byte, LineLawFrom before s

/-- From `s` to `t` the samples `acc` have been accepted, in order, and the symbols on their way and delivered are those that
were there and then `Q` of the samples (41_lookup.md R96). -/
def Streams (s t : State) (acc : List Byte) : Prop :=
  s.src = acc ++ t.src ∧ t.snk ++ t.oq = s.snk ++ s.oq ++ acc.map Q

/-- The next step is no RESET and offers no new sample: the steps a run is made of (10_state.md R33). -/
def quiet (s : State) : Prop :=
  match s.sched with
  | .feed _ :: _ => False
  | _ => ∀ t, fetch s ≠ .run .reset t

/-- A run (10_state.md R33): any number of steps, none of them RESET. -/
inductive Run : State → State → Prop where
  | refl (s : State) : Run s s
  | step {s t u : State} : Run s t → quiet t → step t = .next u → Run s u

/-- `n` steps, stopping at the first fault or refusal. -/
def stepMany : Nat → State → Result
  | 0, s => .next s
  | n + 1, s =>
    match step s with
    | .next t => stepMany n t
    | .fault e => .fault e
    | .refused e => .refused e

/-- `n` MOD_SHIFTs, one after the other. -/
def shiftMany : Nat → State → Result
  | 0, s => .next s
  | n + 1, s =>
    match exec .modShift s with
    | .next t => shiftMany n t
    | .fault e => .fault e
    | .refused e => .refused e

/-- The first sample of bucket `k`, `ceil(256 * k / 9)` (30_encoding.md R65). -/
def bucketFirst (k : Nat) : Nat := (256 * k + 8) / 9

/-- The block can take a sample and the host's Encoder gets its symbols: `ready`, no reset, an accepting sink, no serialiser, and
files that do not fail. -/
structure EncodeReady (s : State) : Prop where
  inv : BlockInv s
  ready : s.ready = true
  rst : s.rst = false
  accepts : s.mReady = true
  noMod : s.cfg.hasMod = false
  readable : s.io.readable = none
  writable : s.io.writable = none

/-- A finished run (10_state.md R33): nothing to accept, nothing to deliver, and MOD idle. -/
def Finished (s : State) : Prop := s.src = [] ∧ s.oq = [] ∧ (s.cfg.hasMod = true → s.fcnt = 0#4)

/-- How many steps the block left to itself takes to finish a run: without the serialiser an EMIT for each symbol that waits and two
steps for each sample; with it a MOD_LOAD and ten slots for each symbol, and a LOOKUP for each sample. -/
def stepsLeft (s : State) : Nat :=
  if s.cfg.hasMod then s.fcnt.toNat + 11 * s.oq.length + 12 * s.src.length else s.oq.length + 2 * s.src.length

/-- Nothing is scheduled, the host holds `rst` at 0, its sink accepts (with the serialiser MOD does) and its source can be read to
the end: the block moves by itself (10_state.md R34). -/
def FreeRunning (s : State) : Prop :=
  s.sched = [] ∧ s.rst = false ∧ (s.cfg.hasMod = false → s.sinkAccepts = true) ∧
    ∀ r, s.io.readable = some r → s.src.length ≤ r

/-- Everything an operation of the block can leave as it was and does: the parameters, the host's pins and the schedule. -/
def SameSetting (s t : State) : Prop :=
  t.cfg = s.cfg ∧ t.mReady = s.mReady ∧ t.rst = s.rst ∧ t.sched = s.sched ∧ t.free = s.free

/-- `MAP`, `bidx` and `ready` unchanged. -/
def SameTables (s t : State) : Prop := t.map = s.map ∧ t.bidx = s.bidx ∧ t.ready = s.ready

/-- MOD unchanged. -/
def SameMod (s t : State) : Prop := t.fr = s.fr ∧ t.fcnt = s.fcnt ∧ t.line = s.line ∧ t.tx = s.tx

/-- The host's Encoder and its files unchanged. -/
def SameHost (s t : State) : Prop := t.text = s.text ∧ t.enc = s.enc ∧ t.io = s.io ∧ t.ioErr = s.ioErr

end Sys2Proof
end

