-- ==== Sys2Proof/Certificates/Slice0/Obligations.lean ====
section
/-! DEFINITION. The statements for the provers, from the numbered rules of spec/. -/

open Sys2Proof Sys2Proof.Machine

/-! ### The tables and the arithmetic -/

/-- R22: the closed forms of `SYM`. -/
def Obligations.SymTableClosedForms : Prop :=
  symTable.length = 9 ∧
  (∀ k : Nat, k < 9 → ∃ v : Byte, symTable[k]? = some v ∧
    v = (0xFF00#16 >>> k).extractLsb' 0 8 ∧
    v.toNat = (256 - 2 ^ (8 - k)) % 256 ∧
    (∀ b : Nat, b < 8 → (v.getLsbD b = true ↔ 8 - k ≤ b)) ∧
    bitsSet v = k) ∧
  symTable.Pairwise (fun u v => u.toNat < v.toNat)

/-- R64: `p = s * 9` never wraps and `idx(s) = floor(s * 9 / 256)`; the shift-and-add form. -/
def Obligations.IndexIsFloor : Prop :=
  ∀ s : Byte,
    (product s).toNat = s.toNat * 9 ∧
    (product s).toNat ≤ 2295 ∧
    idx s = (product s).extractLsb' 8 4 ∧
    (idx s).toNat = s.toNat * 9 / 256 ∧
    product s = (s.setWidth 12 <<< 3) + s.setWidth 12

/-- 40_build.md section 3: the integer index is the truncated real-valued `lerp`. -/
def Obligations.IndexIsTruncatedLerp : Prop :=
  ∀ i : Byte,
    lerpIndex i = 9 * (i.toNat : Rat) / 256 ∧
    trunc (lerpIndex i) = ((idx i).toNat : Int)

/-- 40_build.md section 3: with 12 significand bits or more every intermediate of the three operation orders is exact, and the
three orders give one value. -/
def Obligations.FloatEvaluationExact : Prop :=
  ∀ (i : Byte) (p : Nat), 12 ≤ p →
    (∀ x ∈ floatIntermediates i, ExactIn p x) ∧
    (i.toNat : Rat) * 9 / 256 = lerpIndex i ∧
    (i.toNat : Rat) / 256 * 9 = lerpIndex i ∧
    (i.toNat : Rat) * (9 / 256) = lerpIndex i

/-- R83: the index never passes 8, so `SYM` always has the entry, `Q` is it, and no operation in any state takes the fault
`IndexOutOfRange`. -/
def Obligations.IndexWithinTable : Prop :=
  (∀ i : Byte, (idx i).toNat ≤ 8 ∧ symRead (idx i) = some (Q i)) ∧
  idx 255 = 8 ∧ lerpIndex 255 = 2295 / 256 ∧
  (∀ (i : Instr) (s : State) (k : Index), exec i s ≠ .fault (.indexOutOfRange k))

/-- 30_encoding.md section 3 (R65): the index as a range decode; first samples, sizes and symbols. -/
def Obligations.BucketDecode : Prop :=
  (∀ (s : Byte) (k : Nat), k < 9 →
    ((idx s).toNat = k ↔ bucketFirst k ≤ s.toNat ∧ s.toNat < bucketFirst (k + 1))) ∧
  (∀ s : Byte, some (Q s) = symTable[(idx s).toNat]?) ∧
  (List.range 10).map bucketFirst = [0, 29, 57, 86, 114, 143, 171, 200, 228, 256] ∧
  (List.range 9).map (fun k => bucketFirst (k + 1) - bucketFirst k) = [29, 28, 29, 28, 29, 28, 29, 28, 28]

/-- R84: monotone, not strictly; every index is hit; consecutive samples differ in index by at most 1. -/
def Obligations.MapMonotone : Prop :=
  (∀ i j : Byte, i.toNat ≤ j.toNat → (idx i).toNat ≤ (idx j).toNat ∧ (Q i).toNat ≤ (Q j).toNat) ∧
  (∀ k : Nat, k ≤ 8 → ∃ i : Byte, (idx i).toNat = k) ∧
  (∀ i j : Byte, j.toNat = i.toNat + 1 → (idx j).toNat ≤ (idx i).toNat + 1) ∧
  (∃ i j : Byte, i.toNat < j.toNat ∧ Q i = Q j)

/-- R95: the boundary values and the middle one. -/
def Obligations.QuantizerBoundary : Prop :=
  Q 0 = 0b00000000 ∧ Q 255 = 0b11111111 ∧ Q 128 = 0b11110000

/-- The sixteen rows of the printed map (30_encoding.md R66), the high nibble of the sample choosing the row. -/
def printedRows : List (List Nat) :=
  [
    [0x00, 0x00, 0x00, 0x00, 0x00, 0x00, 0x00, 0x00, 0x00, 0x00, 0x00, 0x00, 0x00, 0x00, 0x00, 0x00],
    [0x00, 0x00, 0x00, 0x00, 0x00, 0x00, 0x00, 0x00, 0x00, 0x00, 0x00, 0x00, 0x00, 0x80, 0x80, 0x80],
    [0x80, 0x80, 0x80, 0x80, 0x80, 0x80, 0x80, 0x80, 0x80, 0x80, 0x80, 0x80, 0x80, 0x80, 0x80, 0x80],
    [0x80, 0x80, 0x80, 0x80, 0x80, 0x80, 0x80, 0x80, 0x80, 0xc0, 0xc0, 0xc0, 0xc0, 0xc0, 0xc0, 0xc0],
    [0xc0, 0xc0, 0xc0, 0xc0, 0xc0, 0xc0, 0xc0, 0xc0, 0xc0, 0xc0, 0xc0, 0xc0, 0xc0, 0xc0, 0xc0, 0xc0],
    [0xc0, 0xc0, 0xc0, 0xc0, 0xc0, 0xc0, 0xe0, 0xe0, 0xe0, 0xe0, 0xe0, 0xe0, 0xe0, 0xe0, 0xe0, 0xe0],
    [0xe0, 0xe0, 0xe0, 0xe0, 0xe0, 0xe0, 0xe0, 0xe0, 0xe0, 0xe0, 0xe0, 0xe0, 0xe0, 0xe0, 0xe0, 0xe0],
    [0xe0, 0xe0, 0xf0, 0xf0, 0xf0, 0xf0, 0xf0, 0xf0, 0xf0, 0xf0, 0xf0, 0xf0, 0xf0, 0xf0, 0xf0, 0xf0],
    [0xf0, 0xf0, 0xf0, 0xf0, 0xf0, 0xf0, 0xf0, 0xf0, 0xf0, 0xf0, 0xf0, 0xf0, 0xf0, 0xf0, 0xf0, 0xf8],
    [0xf8, 0xf8, 0xf8, 0xf8, 0xf8, 0xf8, 0xf8, 0xf8, 0xf8, 0xf8, 0xf8, 0xf8, 0xf8, 0xf8, 0xf8, 0xf8],
    [0xf8, 0xf8, 0xf8, 0xf8, 0xf8, 0xf8, 0xf8, 0xf8, 0xf8, 0xf8, 0xf8, 0xfc, 0xfc, 0xfc, 0xfc, 0xfc],
    [0xfc, 0xfc, 0xfc, 0xfc, 0xfc, 0xfc, 0xfc, 0xfc, 0xfc, 0xfc, 0xfc, 0xfc, 0xfc, 0xfc, 0xfc, 0xfc],
    [0xfc, 0xfc, 0xfc, 0xfc, 0xfc, 0xfc, 0xfc, 0xfc, 0xfe, 0xfe, 0xfe, 0xfe, 0xfe, 0xfe, 0xfe, 0xfe],
    [0xfe, 0xfe, 0xfe, 0xfe, 0xfe, 0xfe, 0xfe, 0xfe, 0xfe, 0xfe, 0xfe, 0xfe, 0xfe, 0xfe, 0xfe, 0xfe],
    [0xfe, 0xfe, 0xfe, 0xfe, 0xff, 0xff, 0xff, 0xff, 0xff, 0xff, 0xff, 0xff, 0xff, 0xff, 0xff, 0xff],
    [0xff, 0xff, 0xff, 0xff, 0xff, 0xff, 0xff, 0xff, 0xff, 0xff, 0xff, 0xff, 0xff, 0xff, 0xff, 0xff]]

/-- 30_encoding.md section 3 (R66): `Q` is the printed map, and it is what `MAP` holds at reset with `PREBUILT`. -/
def Obligations.PrintedMap : Prop :=
  ((List.range 256).map fun a => (Q (BitVec.ofNat 8 a)).toNat) = printedRows.flatten ∧
  ∀ c : Config, c.prebuilt = true → (State.resetWith c).map = (List.range 256).map fun a => (a, Q (BitVec.ofNat 8 a))

/-! ### RESET -/

/-- R30 and R120: what reset leaves, for every value of the parameters. The clause on `tx` is log entry 12's reading; nothing is
said of the host's fields. -/
def Obligations.ResetState : Prop :=
  State.reset = State.resetWith Config.default ∧
  ∀ c : Config, ∃ s : State, s = State.resetWith c ∧ s.cfg = c ∧
    s.bidx.toNat = (if c.prebuilt then 256 else 0) ∧
    s.ready = c.prebuilt ∧ s.oq = [] ∧ s.mValid = false ∧
    (∀ a : Byte, s.mapRead a = if c.prebuilt then some (Q a) else none) ∧
    (c.prebuilt = false → s.sReadyAllowed = false) ∧
    s.fr = 0b1111111111 ∧ s.fcnt = 0#4 ∧ s.line = true ∧ s.tx = []

/-- R150: RESET in every state; what it sets, what it leaves to the host, that no BUILD_STEP, LOOKUP or EMIT occurs while `rst`
stays 1, and that the first BUILD_STEP can follow it at `rst = 0`. -/
def Obligations.ResetEffect : Prop :=
  (∀ s : State, ∃ t : State, exec .reset s = .next t ∧
    (s.cfg.prebuilt = false →
      t.bidx.toNat = 0 ∧ t.ready = false ∧ t.oq = [] ∧ ∀ a : Byte, t.mapRead a = none) ∧
    (s.cfg.prebuilt = true →
      t.bidx.toNat = 256 ∧ t.ready = true ∧ t.oq = [] ∧ ∀ a : Byte, t.mapRead a = some (Q a)) ∧
    (s.cfg.hasMod = true → t.fr = 0b1111111111 ∧ t.fcnt = 0#4 ∧ t.line = true) ∧
    (s.cfg.prebuilt = false → s.rst = false →
      ∃ u : State, exec .buildStep t = .next u ∧ u.bidx.toNat = 1 ∧ u.mapRead 0 = some (Q 0)) ∧
    t.src = s.src ∧ t.snk = s.snk ∧ t.cfg = s.cfg) ∧
  (∀ (s : State) (x : Byte), s.rst = true →
    (∃ h, exec .buildStep s = .next (s.held h)) ∧
    (∃ h, exec (.lookup x) s = .next (s.held h)) ∧
    (∃ h, exec .emit s = .next (s.held h)))

/-- 70_reset_and_hazards.md section 1: the whole frame of RESET. It empties `tx` by log entry 12 and ends an ENCODE under way by
log entry 32. -/
def Obligations.ResetFrame : Prop :=
  ∀ s t : State, exec .reset s = .next t →
    SameSetting s t ∧ t.text = s.text ∧ t.io = s.io ∧ t.ioErr = s.ioErr ∧ t.src = s.src ∧ t.snk = s.snk ∧ t.tx = [] ∧
      t.enc = .idle

/-! ### BUILD -/

/-- R80: BUILD_STEP, with `MAP` at every other address as before; it does not exist when `ready = 1` or with `PREBUILT`. -/
def Obligations.BuildStepEffect : Prop :=
  (∀ s : State, s.cfg.prebuilt = false → s.rst = false → s.ready = false →
    ∃ (k : Index) (v : Byte),
      k = ((buildAddress s.bidx).setWidth 12 * 9#12).extractLsb' 8 4 ∧ symRead k = some v ∧
      exec .buildStep s = .next (s.built v) ∧
      (s.built v).mapRead (buildAddress s.bidx) = some v ∧
      (∀ a : Byte, a ≠ buildAddress s.bidx → (s.built v).mapRead a = s.mapRead a) ∧
      (s.built v).bidx = s.bidx + 1#9 ∧
      ((s.built v).ready = true ↔ s.bidx + 1#9 = 256#9) ∧
      (s.built v).oq = s.oq ∧ SameSetting s (s.built v) ∧ SameMod s (s.built v) ∧ SameHost s (s.built v) ∧
      (s.built v).src = s.src ∧ (s.built v).snk = s.snk) ∧
  (∀ s : State, s.ready = true ∨ s.cfg.prebuilt = true → ∃ h, exec .buildStep s = .next (s.held h))

/-- R81: from the reset state BUILD takes exactly 256 BUILD_STEPs, and leaves `MAP = Q`. -/
def Obligations.BuildFillsMap : Prop :=
  ∀ s : State, s.cfg.prebuilt = false → s.rst = false → s.bidx = 0#9 → s.ready = false → s.map = [] →
    exec .build s = .next { s with map := builtMap, bidx := 256#9, ready := true, hold := none } ∧
    (∀ a : Byte, Memory.read builtMap a.toNat = some (Q a)) ∧
    (∀ n : Nat, 0 < n → n < 256 →
      buildMany n s = .next { s with map := builtPrefix n, bidx := BitVec.ofNat 9 n, hold := none })

/-- R85: once `ready = 1` nothing but RESET changes the map, and RESET followed by BUILD gives the same map. -/
def Obligations.MapImmutableOnceReady : Prop :=
  (∀ (i : Instr) (s t : State), i ≠ .reset → s.ready = true → exec i s = .next t → SameTables s t) ∧
  (∀ s : State, s.cfg.prebuilt = false → s.rst = false →
    ∃ t u : State, exec .reset s = .next t ∧ exec .build t = .next u ∧ u.map = builtMap ∧ u.ready = true)

/-! ### LOOKUP, EMIT, QUANT -/

/-- R91: LOOKUP of the offered sample; where it is not enabled it is held. What it leaves of the host's files is in
`PortOutputs`. -/
def Obligations.LookupEffect : Prop :=
  (∀ (s : State) (x v : Byte) (rest : List Byte),
    s.rst = false → s.ready = true → s.oq.length < s.cfg.oqDepth → s.sValid = true → s.src = x :: rest →
    s.mapRead x = some v →
    ∃ io, exec (.lookup x) s = .next { s with oq := s.oq ++ [v], src := rest, io := io, hold := none }) ∧
  (∀ (s : State) (x : Byte) (rest : List Byte),
    s.rst = false → s.ready = true → s.oq.length < s.cfg.oqDepth → s.sValid = true → s.src = x :: rest →
    s.mapRead x = none →
    exec (.lookup x) s = .fault (.readUnbuilt x)) ∧
  (∀ (s : State) (x : Byte) (rest : List Byte),
    BlockInv s → s.rst = false → s.ready = true → s.oq.length < s.cfg.oqDepth → s.sValid = true → s.src = x :: rest →
    ∃ io, exec (.lookup x) s = .next { s with oq := s.oq ++ [Q x], src := rest, io := io, hold := none }) ∧
  (∀ (s : State) (x : Byte), s.ready = false ∨ s.cfg.oqDepth ≤ s.oq.length ∨ s.src = [] ∨ s.sValid = false →
    ∃ h, exec (.lookup x) s = .next (s.held h))

/-- 41_lookup.md section 2 (R92), 60_exceptions.md sections 2 and 3 (R131, R133): in each of the three conditions LOOKUP is held,
`s_ready` is 0 and the offered sample stays. The source offers nothing where `src` is empty and where it cannot be read (log entry
36). -/
def Obligations.LookupHolds : Prop :=
  ∀ (s : State) (x : Byte), s.rst = false →
    (s.ready = false → exec (.lookup x) s = .next (s.held .notReady) ∧ s.sReadyAllowed = false) ∧
    (s.ready = true → s.oq.length = s.cfg.oqDepth →
      exec (.lookup x) s = .next (s.held .outputFull) ∧ s.sReadyAllowed = false) ∧
    (s.ready = true → s.oq.length < s.cfg.oqDepth → s.sValid = false →
      exec (.lookup x) s = .next (s.held .noSample) ∧ s.sReadyAllowed = false)

/-- 00_scope.md section 5 (R10), 93_implementation_defined.md V11: a word that is not the offered sample is not accepted (log
entry 7). -/
def Obligations.OnlyOfferedAccepted : Prop :=
  ∀ (s : State) (x y : Byte) (rest : List Byte), lookupHold s = none → s.src = y :: rest → x ≠ y →
    exec (.lookup x) s = .next (s.held .notOffered)

/-- 41_lookup.md section 3 (R93): EMIT without the serialiser, and its two holds; `m_data` is the head it delivers. A sink that could
not be written to accepts nothing (60_exceptions.md R131; log entry 36). -/
def Obligations.EmitEffect : Prop :=
  (∀ (s : State) (y : Byte) (rest : List Byte),
    s.cfg.hasMod = false → s.rst = false → s.oq = y :: rest → s.sinkAccepts = true →
    s.mData = y ∧ exec .emit s = .next { s with snk := s.snk ++ [y], oq := rest, hold := none }) ∧
  (∀ s : State, s.cfg.hasMod = false → s.rst = false → s.oq = [] → exec .emit s = .next (s.held .empty)) ∧
  (∀ s : State, s.cfg.hasMod = false → s.rst = false → s.oq ≠ [] → s.sinkAccepts = false →
    exec .emit s = .next (s.held .sinkStall))

/-- 30_encoding.md section 6 (R70): QUANT is LOOKUP and then EMIT; on an empty queue it delivers the sample's own symbol. That
the source has answered one read is log entry 19. -/
def Obligations.QuantEffect : Prop :=
  (∀ (s : State) (x : Byte) (rest : List Byte), BlockInv s → s.cfg.hasMod = false → s.rst = false → s.ready = true →
    s.oq.length < s.cfg.oqDepth → s.sValid = true → s.src = x :: rest → s.sinkAccepts = true →
    exec (.quant x) s =
      .next { s with
        src := rest
        io := s.io.afterRead
        snk := s.snk ++ (s.oq ++ [Q x]).take 1
        oq := (s.oq ++ [Q x]).drop 1
        hold := none }) ∧
  (∀ (s t u : State) (x : Byte), exec (.lookup x) s = .next t → t.hold = none → exec .emit t = .next u →
    exec (.quant x) s = .next u) ∧
  (∀ (s : State) (x : Byte) (h : Hold), lookupHold s = some h → exec (.quant x) s = .next (s.held h))

/-- 60_exceptions.md sections 2 and 3 (R131, R134): a sink that does not accept, or that could not be written to, loses nothing; the
queue and `m_data` stay (log entry 36). -/
def Obligations.SinkStallKeepsQueue : Prop :=
  ∀ (i : Instr) (s t : State), BlockInv s → i ≠ .reset → s.cfg.hasMod = false →
    s.mReady = false ∨ (s.ioErr = some .sinkUnwritable ∧ s.io.writable = some 0) → exec i s = .next t →
    t.snk = s.snk ∧ ∃ more : List Byte, t.oq = s.oq ++ more ∧ t.oq.length ≤ s.cfg.oqDepth

/-! ### The ports and the clock edge -/

/-- 10_state.md section 7 (R29), 60_exceptions.md section 2 (R131): the ports, and that a sample once offered stays offered until
LOOKUP has accepted it. A source that cannot be read offers nothing, a sink that could not be written to accepts nothing (log
entries 6, 36), and a sample accepted is a read answered (log entry 19). -/
def Obligations.PortOutputs : Prop :=
  ∀ s : State,
    (s.rst = false → (s.mValid = true ↔ 0 < s.oq.length)) ∧
    (s.mValid = true → s.oq.head? = some s.mData) ∧
    (s.ready = false → s.sReadyAllowed = false) ∧
    (s.sReadyAllowed = true ↔ s.rst = false ∧ s.ready = true ∧ s.oq.length < s.cfg.oqDepth ∧ s.sValid = true) ∧
    s.sData = s.src.head? ∧ (s.sValid = true ↔ s.src ≠ [] ∧ s.io.readable ≠ some 0) ∧
    s.mReadyPort =
      (if s.cfg.hasMod then decide (s.fcnt = 0#4) else s.mReady && decide (s.ioErr ≠ some .sinkUnwritable)) ∧
    (s.linePort = if s.cfg.hasMod then some s.line else none) ∧
    (∀ (t : State) (x : Byte), exec (.lookup x) s = .next t → t.hold = none →
      t.io = { s.io with readable := s.io.readable.map (· - 1) }) ∧
    (∀ (t : State) (x : Byte), BlockInv s → quiet s → s.sValid = true → s.sData = some x → step s = .next t →
      (t.sValid = true ∧ t.sData = some x) ∨ ∃ more : List Byte, t.snk ++ t.oq = s.snk ++ s.oq ++ Q x :: more)

/-- 60_exceptions.md section 4 (R136): simultaneous events of one edge; `s` has the edge's levels. `m_ready` is the sink's or, with
the serialiser, MOD's. The turns of an edge with a slot tick in it are log entry 23. -/
def Obligations.SimultaneousEvents : Prop :=
  (∀ (s : State) (e : Edge), e.rst = true → edgeOps s e = [.reset]) ∧
  (∀ (s : State) (x : Byte), BlockInv s → s.ready = false →
    (∃ h, exec (.lookup x) s = .next (s.held h)) ∧ (∃ h, exec .emit s = .next (s.held h))) ∧
  (∀ (s : State) (x : Byte) (rest : List Byte), BlockInv s → s.ready = true → s.rst = false →
    s.mReadyPort = true → 0 < s.oq.length → s.oq.length < s.cfg.oqDepth → s.sValid = true → s.src = x :: rest →
    ∃ t u v : State, exec .emit s = .next t ∧ exec (.lookup x) t = .next v ∧
      exec (.lookup x) s = .next u ∧ exec .emit u = .next v) ∧
  (∀ (s : State) (e : Edge) (x : Byte) (rest : List Byte), BlockInv s → s.ready = true → s.rst = false →
    s.mReadyPort = true → s.oq ≠ [] → s.sValid = true → s.src = x :: rest → e.rst = false → e.sReadyWill = true →
    edgeOps s e =
      (if s.cfg.hasMod then (if e.tick then [.modLoad, .modShift] else [.modLoad]) else [.emit]) ++ [.lookup x]) ∧
  (∀ (s : State) (e : Edge) (x : Byte) (rest : List Byte), BlockInv s → s.ready = true → s.rst = false →
    s.mReadyPort = false → s.sValid = true → s.src = x :: rest → e.rst = false → e.sReadyWill = true →
    edgeOps s e =
      (if s.cfg.hasMod && e.tick then [.modShift] else []) ++
        (if s.oq.length < s.cfg.oqDepth then [.lookup x] else [])) ∧
  (∀ (s : State) (e : Edge), s.ready = true → s.oq = [] → e.rst = false →
    ∀ i ∈ edgeOps s e, (∃ x : Byte, i = .lookup x) ∨
      (s.cfg.hasMod = true ∧ e.tick = true ∧ i = if s.fcnt = 0#4 then .modIdle else .modShift)) ∧
  (∀ (s : State) (e : Edge) (x : Byte), s.sValid = false → .lookup x ∉ edgeOps s e) ∧
  (∀ s : State, s.cfg.hasMod = true → s.fcnt = 0#4 → s.oq ≠ [] → tickOps s = [.modLoad, .modShift])

/-! ### The frame and MOD -/

/-- 43_pwm_frame.md section 2 (R116): the frame of a byte, and the frame word MOD shifts out. -/
def Obligations.FrameBits : Prop :=
  ∀ y : Byte,
    frame y = [false, y.getLsbD 0, y.getLsbD 1, y.getLsbD 2, y.getLsbD 3, y.getLsbD 4, y.getLsbD 5, y.getLsbD 6,
      y.getLsbD 7, true] ∧
    (List.range 10).map (frameWord y).getLsbD = frame y

/-- 43_pwm_frame.md section 2 (R117), section 3 (R124): the duty cycle of a byte and of the nine symbols, and
the high slots of a row of frames. -/
def Obligations.DutyCycle : Prop :=
  (∀ y : Byte, duty y = (1 + (bitsSet y : Rat)) / 10) ∧
  (∀ (k : Nat) (y : Byte), symTable[k]? = some y → duty y = ((k : Rat) + 1) / 10) ∧
  (∀ y : Byte, 0 < duty y ∧ duty y < 1) ∧
  (∀ l : List Byte, highSlots ((l.map Q).flatMap frame) = (l.map fun s => (idx s).toNat + 1).sum)

/-- 43_pwm_frame.md section 2 (R118): one pulse per frame, and one rising and one falling edge per frame in a row of frames. -/
def Obligations.OnePulsePerFrame : Prop :=
  (∀ (k : Nat) (y : Byte), symTable[k]? = some y →
    frame y = List.replicate (9 - k) false ++ List.replicate (k + 1) true) ∧
  (∀ ys : List Byte, SymbolsOnly ys →
    risingEdges (ys.flatMap frame) = ys.length ∧ fallingEdges (ys.flatMap frame) = ys.length - 1)

/-- 43_pwm_frame.md section 3 (R121): MOD_LOAD is EMIT with MOD as the sink; where it is not enabled it is held (the name of the hold
with `fcnt > 0` and an empty queue is log entry 5, the names of MOD's holds are log entry 37), and so it is while `rst` stays 1
(70_reset_and_hazards.md section 1; log entry 13). -/
def Obligations.ModLoadEffect : Prop :=
  (∀ (s : State) (y : Byte) (rest : List Byte),
    s.cfg.hasMod = true → s.rst = false → s.fcnt = 0#4 → s.oq = y :: rest →
    exec .modLoad s =
      .next { s with oq := rest, snk := s.snk ++ [y], fr := (1#1 ++ y) ++ 0#1, fcnt := 10#4, hold := none } ∧
    exec .emit s = exec .modLoad s) ∧
  (∀ s : State, s.cfg.hasMod = true → s.rst = false → s.fcnt ≠ 0#4 →
    exec .modLoad s = .next (s.held .modBusy)) ∧
  (∀ s : State, s.cfg.hasMod = true → s.rst = false → s.fcnt = 0#4 → s.oq = [] →
    exec .modLoad s = .next (s.held .empty)) ∧
  (∀ s : State, s.cfg.hasMod = true → s.rst = true → exec .modLoad s = .next (s.held .inReset))

/-- 43_pwm_frame.md section 3 (R122): MOD_SHIFT drives one slot, and ten of them after a MOD_LOAD drive the frame; at `fcnt = 0` it is
not enabled. That `rst` does not gate it is log entry 13, the name of the hold log entry 37. -/
def Obligations.ModShiftEffect : Prop :=
  (∀ s : State, s.cfg.hasMod = true → s.fcnt ≠ 0#4 →
    exec .modShift s =
      .next { s with
        line := s.fr.getLsbD 0
        tx := s.tx ++ [s.fr.getLsbD 0]
        fr := 1#1 ++ s.fr.extractLsb' 1 9
        fcnt := s.fcnt - 1#4
        hold := none }) ∧
  (∀ (s : State) (y : Byte), s.cfg.hasMod = true →
    shiftMany 10 (s.loaded y) =
      .next { s.loaded y with tx := s.tx ++ frame y, fcnt := 0#4, fr := 0b1111111111, line := true }) ∧
  (∀ s : State, s.cfg.hasMod = true → s.fcnt = 0#4 → exec .modShift s = .next (s.held .nothingToShift))

/-- 43_pwm_frame.md section 3 (R123): MOD_IDLE, where it is not enabled, and the tick of a waiting symbol, which is loaded and
shifted instead. The name of the hold with `fcnt > 0` and a symbol waiting is log entry 5, the names of MOD's holds
are log entry 37; that `rst` does not gate it is log entry 13. -/
def Obligations.ModIdleEffect : Prop :=
  (∀ s : State, s.cfg.hasMod = true → s.fcnt = 0#4 → s.oq = [] →
    exec .modIdle s = .next { s with line := true, tx := s.tx ++ [true], hold := none } ∧ tickOps s = [.modIdle]) ∧
  (∀ s : State, s.cfg.hasMod = true → s.fcnt ≠ 0#4 → exec .modIdle s = .next (s.held .modBusy)) ∧
  (∀ s : State, s.cfg.hasMod = true → s.fcnt = 0#4 → s.oq ≠ [] →
    exec .modIdle s = .next (s.held .symbolWaiting) ∧ tickOps s = [.modLoad, .modShift])

/-! ### The host's text -/

/-- R103: the literal of a symbol, and the nine that can occur. -/
def Obligations.LiteralForm : Prop :=
  (∀ y : Byte, literal y =
    [0x30, 0x78, hexDigit (y.toNat / 16), hexDigit (y.toNat % 16), 0x2C]) ∧
  (List.range 16).map hexDigit = ascii "0123456789abcdef" ∧
  symTable.map literal =
    [ascii "0x00,", ascii "0x80,", ascii "0xc0,", ascii "0xe0,", ascii "0xf0,", ascii "0xf8,", ascii "0xfc,",
      ascii "0xfe,", ascii "0xff,"]

/-- R104: two spaces, the literals without separators, `EOL`; `2 + 5n` characters before the terminator. -/
def Obligations.DataLineForm : Prop :=
  ∀ (c : Config) (ys : List Byte),
    dataLine c ys = [0x20, 0x20] ++ ys.flatMap literal ++ c.eol ∧
    (dataLine c ys).length = 2 + 5 * ys.length + c.eol.length

/-- R102: the chunks in order are the stream; every chunk but the last has 32 elements, the last 1 to 32. -/
def Obligations.ChunkShape : Prop :=
  ∀ l : List Byte,
    (chunks l).flatten = l ∧
    (chunks l).length = (l.length + 31) / 32 ∧
    (∀ (i : Nat) (ch : List Byte), (chunks l)[i]? = some ch →
      ch = (l.drop (32 * i)).take 32 ∧ 1 ≤ ch.length ∧ ch.length ≤ 32 ∧
      (i + 1 < (chunks l).length → ch.length = 32))

/-- R105: the six lines of PREAMBLE and their lengths. -/
def Obligations.PreambleForm : Prop :=
  preambleLines =
    [ascii "#ifndef _WART_H_", ascii "#define _WART_H_", [], ascii "#include <stdint.h>", [],
      ascii "const uint8_t wart[] = " ++ [0x7B]] ∧
  preambleLines.map List.length = [16, 16, 0, 19, 0, 24] ∧
  (∀ c : Config, preamble c = preambleLines.flatMap (fun l => l ++ c.eol)) ∧
  (preamble Config.default).length = 81

/-- R106: the lengths of POSTAMBLE, and of the whole text with the default terminators. -/
def Obligations.WholeTextLength : Prop :=
  postambleFirst = [0x7D, 0x3B] ∧ postambleLast = ascii "#endif // #ifndef _WART_H_" ∧
  postambleFirst.length = 2 ∧ postambleLast.length = 26 ∧
  (∀ c : Config, postamble c =
    postambleFirst ++ c.eol ++ postambleLast ++ (if c.finalEol then c.eol else [])) ∧
  (postamble Config.default).length = 30 ∧
  (∀ (c : Config) (ys : List Byte), c.eol = [0x0A] → c.finalEol = true →
    (wholeText c ys).length = 111 + 5 * ys.length + 3 * ((ys.length + 31) / 32))

/-- 42_host_encoder.md section 2 (R101, R109): ENCODE quantizes the whole stream and writes its text, whatever the terminators and
the depth of the queue, into an empty text sink (log entry 20). Symbols that wait in the queue at the start are delivered and are
no part of the text (log entry 30). -/
def Obligations.EncodeWritesText : Prop :=
  ∀ s : State, EncodeReady s → s.enc = .idle → s.src ≠ [] ∨ s.oq = [] →
    exec .encode s =
      .next { s with
        src := []
        snk := s.snk ++ s.oq ++ s.src.map Q
        oq := []
        text := wholeText s.cfg (s.src.map Q)
        enc := .idle
        ioErr := none
        hold := none }

/-- 42_host_encoder.md section 2 (R101, R109, R111): an ENCODE that a hold had stopped goes on where it stood (log entry 17), in
every form: with symbols delivered and not yet written, with its own and with other symbols in the queue, without the serialiser
and with it. Whatever the block and its host did while it waited, short of a RESET and new offers, the text it ends with is that of
the samples accepted since it started (log entry 30). That MOD's frame holds it as `modBusy` is log entry 37. -/
def Obligations.EncodeGoesOn : Prop :=
  (∀ (s : State) (base pos : Nat), EncodeReady s → s.ioErr ≠ some .sinkUnwritable →
    s.enc = .filling base pos → pos ≤ s.snk.length + s.oq.length →
    s.src ≠ [] ∨ s.oq = [] ∨ pos < s.snk.length + s.oq.length →
    exec .encode s =
      .next { s with
        src := []
        snk := s.snk ++ s.oq ++ s.src.map Q
        oq := []
        text := s.text ++ (chunks ((s.snk ++ s.oq).drop pos ++ s.src.map Q)).flatMap (dataLine s.cfg) ++ postamble s.cfg
        enc := .idle
        hold := none }) ∧
  (∀ (s : State) (base pos : Nat), EncodeReady s → s.enc = .filling base pos → pos = s.snk.length + s.oq.length →
    s.src = [] →
    exec .encode s = .next { s with text := s.text ++ postamble s.cfg, enc := .idle, hold := none }) ∧
  (∀ (s : State) (base pos : Nat) (x y : Byte) (rest : List Byte), BlockInv s → s.ready = true → s.rst = false →
    s.cfg.hasMod = true → s.fcnt = 0#4 → s.enc = .filling base pos → pos ≤ s.snk.length → s.oq = [y] →
    s.snk.length + 1 < pos + chunkSize → s.io.readable = none → s.src = x :: rest →
    exec .encode s =
      .next { s with
        src := rest
        oq := [Q x]
        snk := s.snk ++ [y]
        fr := (1#1 ++ y) ++ 0#1
        fcnt := 10#4
        hold := some .modBusy }) ∧
  (∀ (s : State) (base pos : Nat) (y : Byte), BlockInv s → s.rst = false →
    s.cfg.hasMod = true → s.fcnt = 0#4 → s.enc = .filling base pos → pos ≤ s.snk.length → s.oq = [y] →
    s.snk.length + 1 < pos + chunkSize → s.io.readable = none → s.io.writable = none → s.src = [] →
    exec .encode s =
      .next { s with
        oq := []
        snk := s.snk ++ [y]
        fr := (1#1 ++ y) ++ 0#1
        fcnt := 10#4
        text := s.text ++ dataLine s.cfg (s.snk.drop pos ++ [y]) ++ postamble s.cfg
        enc := .idle
        hold := none }) ∧
  (∀ (s t u v : State) (base pos pos' : Nat), BlockInv s → s.enc = .idle → exec .encode s = .next t →
    t.enc = .filling base pos → Run t u → u.enc = .filling base pos' → exec .encode u = .next v → v.enc = .idle →
    v.ioErr = none →
    ∃ accepted : List Byte, s.src = accepted ++ v.src ∧ v.text = wholeText s.cfg (accepted.map Q))

/-- 42_host_encoder.md section 2 (R101, section 8 of the source): an empty stream gives PREAMBLE and POSTAMBLE and does not touch
the block, built or not. -/
def Obligations.EncodeEmptyStream : Prop :=
  ∀ s : State, s.enc = .idle → s.src = [] → s.io.readable = none → s.io.writable = none →
    exec .encode s =
      .next { s with text := preamble s.cfg ++ postamble s.cfg, enc := .idle, ioErr := none, hold := none }

/-- 42_host_encoder.md section 2 (R108): whatever fails, in a new ENCODE or in one that goes on, with the serialiser or without it,
the text sink holds a prefix of the complete text (log entry 19) with the Encoder at rest, and a source that cannot be read offers,
a sink that cannot be written to accepts, nothing from then on (R131; log entry 36). Where the block takes every sample and the
sink every symbol, the error is surfaced exactly when the text sink takes less than the text that is left or the source answers
fewer reads than the stream still needs. -/
def Obligations.EncodeFailureLeavesPrefix : Prop :=
  (∀ (s t : State) (e : IoError), BlockInv s → EncodeLaw s → exec .encode s = .next t → t.ioErr = some e →
    t.enc = .idle ∧ t.text <+: wholeText s.cfg (encodeStream s) ∧
    (e = .sourceUnreadable → ∀ x, ∃ h, exec (.lookup x) t = .next (t.held h)) ∧
    (e = .sinkUnwritable → t.io.writable = some 0 ∧ (t.cfg.hasMod = false → ∃ h, exec .emit t = .next (t.held h)))) ∧
  (∀ s : State, BlockInv s → s.ready = true → s.rst = false → s.mReady = true → s.cfg.hasMod = false → s.enc = .idle →
    ∃ t : State, exec .encode s = .next t ∧ t.enc = .idle ∧
      ((∃ e, t.ioErr = some e) ↔
        (∃ m, s.io.writable = some m ∧ m < (wholeText s.cfg (s.src.map Q)).length) ∨
        (∃ r, s.io.readable = some r ∧ r < encodeReads s.src.length))) ∧
  (∀ (s : State) (base pos : Nat), BlockInv s → s.ready = true → s.rst = false → s.mReady = true → s.cfg.hasMod = false →
    s.enc = .filling base pos → s.ioErr = none → pos ≤ s.snk.length + s.oq.length →
    ∃ (t : State) (rest : List Byte), rest = (s.snk ++ s.oq).drop pos ++ s.src.map Q ∧
      exec .encode s = .next t ∧ t.enc = .idle ∧
      ((∃ e, t.ioErr = some e) ↔
        (∃ m, s.io.writable = some m ∧
          m < ((chunks rest).flatMap (dataLine s.cfg)).length + (postamble s.cfg).length) ∨
        (∃ r, s.io.readable = some r ∧ r < s.src.length + (if rest.length % chunkSize = 0 then 1 else 2))))

/-- 42_host_encoder.md section 2 (R108): a text sink that takes nothing stops ENCODE before it reads a sample, and one that does not
take a whole line stops it at that line, with the serialiser or without it. -/
def Obligations.EncodeUnwritable : Prop :=
  (∀ s : State, s.enc = .idle → s.io.writable = some 0 →
    exec .encode s =
      .next { s with
        text := []
        enc := .idle
        ioErr := some .sinkUnwritable
        io := { s.io with writable := some 0 }
        hold := none }) ∧
  (∀ (s : State) (base pos m : Nat), s.enc = .filling base pos → pos + chunkSize ≤ s.snk.length →
    s.io.writable = some m → m < 2 + 5 * chunkSize + s.cfg.eol.length →
    exec .encode s =
      .next { s with
        text := (s.text ++ (dataLine s.cfg ((s.snk.drop pos).take chunkSize)).take m).take s.io.kept
        enc := .idle
        ioErr := some .sinkUnwritable
        io := { s.io with writable := some 0 }
        hold := none })

/-- 42_host_encoder.md section 2 (R108): a source that cannot be read stops ENCODE after PREAMBLE, and an ENCODE that goes on at its
next read, with the serialiser or without it. -/
def Obligations.EncodeUnreadable : Prop :=
  (∀ s : State, s.enc = .idle → s.io.writable = none → s.io.readable = some 0 →
    exec .encode s =
      .next { s with
        text := (preamble s.cfg).take s.io.kept
        enc := .idle
        ioErr := some .sourceUnreadable
        hold := none }) ∧
  (∀ (s : State) (base pos : Nat), s.enc = .filling base pos → s.snk.length < pos + chunkSize →
    s.oq = [] ∨ s.snk.length + s.oq.length ≤ pos → s.io.readable = some 0 →
    exec .encode s =
      .next { s with
        text := s.text.take s.io.kept
        enc := .idle
        ioErr := some .sourceUnreadable
        hold := none })

/-- 42_host_encoder.md section 2 (R111): ENCODE waits where the block holds it: before BUILD has finished, with the serialiser
until MOD has sent the symbol before, and while the sink does not accept (log entries 16, 17; the name `modBusy` is log entry 37). -/
def Obligations.EncodeWaits : Prop :=
  (∀ s : State, BlockInv s → s.enc = .idle → s.io.readable = none → s.io.writable = none → s.rst = false →
    s.ready = false → s.src ≠ [] →
    exec .encode s =
      .next { s with
        text := preamble s.cfg
        enc := .filling s.snk.length s.snk.length
        ioErr := none
        hold := some .notReady }) ∧
  (∀ (s : State) (x y : Byte) (rest : List Byte), BlockInv s → s.ready = true → s.rst = false → s.cfg.hasMod = true →
    s.fcnt = 0#4 → s.oq = [] → s.enc = .idle → s.io.readable = none → s.io.writable = none → s.src = x :: y :: rest →
    exec .encode s =
      .next { s with
        src := rest
        oq := [Q y]
        snk := s.snk ++ [Q x]
        fr := (1#1 ++ Q x) ++ 0#1
        fcnt := 10#4
        text := preamble s.cfg
        enc := .filling s.snk.length s.snk.length
        ioErr := none
        hold := some .modBusy }) ∧
  (∀ (s : State) (base pos : Nat), s.rst = false → s.enc = .filling base pos → s.oq ≠ [] →
    s.snk.length < pos + chunkSize → pos < s.snk.length + s.oq.length →
    (s.cfg.hasMod = false → s.sinkAccepts = false → exec .encode s = .next (s.held .sinkStall)) ∧
    (s.cfg.hasMod = true → s.fcnt ≠ 0#4 → exec .encode s = .next (s.held .modBusy)))

/-! ### The whole machine -/

/-- 10_state.md section 9 (R31) at reset, for every value of the parameters. -/
def Obligations.InvAtReset : Prop := ∀ c : Config, c.WF → BlockInv (State.resetWith c) ∧ EncodeLaw (State.resetWith c)

/-- 10_state.md section 9 (R31), 41_lookup.md section 4 (R94): every step keeps the invariants, whatever is scheduled. -/
def Obligations.InvKeptByStep : Prop := ∀ s t : State, BlockInv s → step s = .next t → BlockInv t

/-- 42_host_encoder.md section 2 (R101, R109): every step keeps the law of an ENCODE under way, and an ENCODE that ends without an
error leaves the text of the symbols that `snk` has received since it started, whichever steps delivered them (log entry 30). -/
def Obligations.EncodeLawKeptByStep : Prop :=
  (∀ s t : State, BlockInv s → EncodeLaw s → step s = .next t → EncodeLaw t) ∧
  (∀ (s t : State) (base pos : Nat), BlockInv s → EncodeLaw s → s.enc = .filling base pos → exec .encode s = .next t →
    t.enc = .idle → t.ioErr = none → t.text = wholeText s.cfg (t.snk.drop base))

/-- 60_exceptions.md section 2 (R132): neither fault is reachable, and no operation is refused (00_scope.md R11). -/
def Obligations.NoFaultNoRefusal : Prop :=
  ∀ s : State, BlockInv s →
    (∀ i : Instr, ∃ t, exec i s = .next t) ∧ (∀ e, step s ≠ .fault e)

/-- 41_lookup.md section 4 (R96), 20_memory.md section 5 (R48): no operation but RESET drops, doubles or reorders a symbol. -/
def Obligations.StreamLaw : Prop :=
  ∀ (i : Instr) (s t : State), BlockInv s → i ≠ .reset → exec i s = .next t → ∃ acc : List Byte, Streams s t acc

/-- 10_state.md section 10 (R33), 41_lookup.md section 4 (R96, R97): whatever the schedule and the parameters, a finished run has
delivered `Q` of every sample, in order. -/
def Obligations.FinishedRunDelivers : Prop :=
  ∀ s t : State, BlockInv s → Run s t → Finished t → t.snk = s.snk ++ s.oq ++ s.src.map Q

/-- 70_reset_and_hazards.md section 4 (R161): over a run that starts with an empty queue the deliveries never pass the samples
accepted, and trail them by at most `OQ_DEPTH`. -/
def Obligations.DeliveriesTrailAcceptances : Prop :=
  ∀ s t : State, BlockInv s → s.oq = [] → Run s t →
    ∃ accepted delivered : Nat, s.src.length = accepted + t.src.length ∧ t.snk.length = s.snk.length + delivered ∧
      delivered ≤ accepted ∧ accepted ≤ delivered + s.cfg.oqDepth

/-- 43_pwm_frame.md section 3 (R124): the line law is kept by every step. A step that runs no RESET keeps it with the same beginning
of the line, so that the n-th frame after the beginning is that of the n-th symbol delivered after it; a RESET begins a new line at
the symbols that `snk` then holds (log entry 12). -/
def Obligations.LineLawKeptByStep : Prop :=
  (∀ s t : State, LineLaw s → step s = .next t → LineLaw t) ∧
  (∀ (before : List Byte) (s t : State), LineLawFrom before s → (∀ u, fetch s ≠ .run .reset u) → step s = .next t →
    LineLawFrom before t) ∧
  (∀ s t u : State, fetch s = .run .reset u → step s = .next t → t.snk = s.snk ∧ LineLawFrom s.snk t)

/-- 43_pwm_frame.md section 3 (R124): the line law at reset, the line beginning with the first symbol of `snk`. -/
def Obligations.LineLawAtReset : Prop := ∀ c : Config, LineLawFrom [] (State.resetWith c)

/-- 70_reset_and_hazards.md section 4 (R160), 10_state.md section 10 (R34): a builder that is scheduled finishes in the steps that
are left, and only `ready` lets LOOKUP run. The schedule that runs it is log entry 9. -/
def Obligations.BuilderFinishes : Prop :=
  ∀ s : State, BlockInv s → s.sched = [] → s.rst = false → s.ready = false →
    ∃ t : State, stepMany (256 - s.bidx.toNat) s = .next t ∧ t.ready = true ∧ t.oq = [] ∧ t.src = s.src ∧ t.snk = s.snk ∧
      SameMod s t

/-- 10_state.md section 10 (R33, R34): where the sink accepts, the block left to itself (log entry 9) finishes the run, without the
serialiser and with it, in the number of steps that its symbols and samples take. -/
def Obligations.FreeRunFinishes : Prop :=
  ∀ s : State, BlockInv s → FreeRunning s → s.ready = true →
    ∃ t : State, stepMany (stepsLeft s) s = .next t ∧ Finished t ∧
      t.snk = s.snk ++ s.oq ++ s.src.map Q

/-- 10_state.md section 1 (R20), 20_memory.md section 1 (R41), 42_host_encoder.md section 1 (R100): who writes what. -/
def Obligations.WritersOfState : Prop :=
  ∀ (i : Instr) (s t : State), exec i s = .next t →
    SameSetting s t ∧
    (i ∉ [.reset, .buildStep, .build] → SameTables s t) ∧
    ((∀ x, i ≠ .lookup x) → (∀ x, i ≠ .quant x) → i ≠ .encode → t.src = s.src) ∧
    ((∀ x, i ≠ .quant x) → i ∉ [.emit, .modLoad, .encode] → t.snk = s.snk) ∧
    (i ∈ [.buildStep, .build, .modShift, .modIdle] → t.oq = s.oq) ∧
    (i ∈ [.buildStep, .build] ∨ (∃ x, i = .lookup x) ∨ (s.cfg.hasMod = false ∧ i ≠ .reset) → SameMod s t) ∧
    ((∀ x, i ≠ .lookup x) → (∀ x, i ≠ .quant x) → i ≠ .encode → i ≠ .reset → SameHost s t) ∧
    (i ≠ .encode → i ≠ .reset →
      t.text = s.text ∧ t.enc = s.enc ∧ t.ioErr = s.ioErr ∧ (t.io = s.io ∨ t.io = s.io.afterRead)) ∧
    (i = .reset → t.text = s.text ∧ t.io = s.io ∧ t.ioErr = s.ioErr)

/-- 00_scope.md section 5 (R11), 41_lookup.md section 2 (R92): a step that is not enabled changes nothing (log entry 3). -/
def Obligations.HeldStepChangesNothing : Prop :=
  ∀ (i : Instr) (s t : State) (h : Hold), i ≠ .build → (∀ x, i ≠ .quant x) → i ≠ .encode →
    exec i s = .next t → t.hold = some h → t = s.held h

/-- opcode_table.json `present_when` (40_build.md section 4, 43_pwm_frame.md section 1): an operation that the parameters leave out
never runs (log entry 4). -/
def Obligations.AbsentOperationHeld : Prop :=
  ∀ (i : Instr) (s : State), Instr.present s.cfg i = false → exec i s = .next (s.held .notPresent)

/-- 70_reset_and_hazards.md section 1 (R152): a RESET in mid-stream loses exactly the symbols in `oq`; later deliveries follow
those made before it. -/
def Obligations.ResetLosesQueueOnly : Prop :=
  ∀ s t u : State, BlockInv s → exec .reset s = .next t → Run t u → Finished u → u.snk = s.snk ++ s.src.map Q

/-! ### Decoding and stepping -/

/-- 30_encoding.md section 1 (R60): the events of the table select the operations they stand for. The last clause is of no event: that
a bare word is read as LOOKUP of it rests on 30_encoding.md section 5 (R68) and is log entry 15, the model's choice. -/
def Obligations.SelectionsDecode : Prop :=
  decode .inputChannel [0x80] = .ok (.lookup 0x80) ∧ decode .resetEdge [] = .ok .reset ∧
  decode .builder [] = .ok .buildStep ∧ decode .outputChannel [] = .ok .emit ∧
  decodeTableWord 8 0x1D = some (.lookup 0x1D)

/-- 30_encoding.md sections 1 and 5 (R60, R68): selection and its inverse agree, for every operand. -/
def Obligations.EncodeThenDecode : Prop :=
  (∀ i : Instr, decode (encode i).1 (encode i).2 = .ok i) ∧
  (∀ (sel : Selector) (w : List Byte) (i : Instr), decode sel w = .ok i → encode i = (sel, w))

/-- 00_scope.md section 5 (R12): a step whose next turn selects the operation `i` is `exec i`, the turn taken off the schedule
and the model's free-value counter advanced; the turns of an edge are put in its place and nothing else changes but the levels it
drives. Where nothing is scheduled and nothing enabled the block waits (log entries 9, 35); a turn that fits no operation is refused (log
entry 27). -/
def Obligations.StepRunsSelected : Prop :=
  (∀ (s : State) (sel : Selector) (w : List Byte) (rest : List Turn) (i : Instr),
    s.sched = .op sel w :: rest → decode sel w = .ok i →
    step s = exec i { s with sched := rest, free := s.free + 1 }) ∧
  (∀ (s : State) (i : Instr), s.sched = [] → autoOp s = some i →
    step s = exec i { s with sched := [], free := s.free + 1 }) ∧
  (∀ (s : State) (e : Edge) (rest : List Turn), s.sched = .edge e :: rest →
    step s =
      .next { s with
        rst := e.rst
        mReady := e.mReady
        sched := (edgeOps (s.drive e) e).map opTurn ++ rest
        free := s.free + 1
        hold := none }) ∧
  (∀ s : State, s.sched = [] → autoOp s = none →
    step s = .next { s with free := s.free + 1, hold := lookupHold s }) ∧
  (∀ (s : State) (sel : Selector) (w : List Byte) (rest : List Turn) (e : DecodeError),
    s.sched = .op sel w :: rest → decode sel w = .error e → step s = .refused (.undecodable e))

/-- 00_scope.md section 5 (R10), 43_pwm_frame.md section 3 (R123), 60_exceptions.md section 5 (R138): the host's turns and the slot
tick, with the model's free-value counter (log entries 6, 8, 33). -/
def Obligations.StepHostTurns : Prop :=
  ∀ (s : State) (rest : List Turn),
    (∀ x : Byte, s.sched = .feed x :: rest →
      step s = .next { s with src := s.src ++ [x], sched := rest, free := s.free + 1, hold := none }) ∧
    (∀ b : Bool, s.sched = .sink b :: rest →
      step s = .next { s with mReady := b, sched := rest, free := s.free + 1, hold := none }) ∧
    (∀ b : Bool, s.sched = .rst b :: rest →
      step s = .next { s with rst := b, sched := rest, free := s.free + 1, hold := none }) ∧
    (s.sched = .stop :: rest →
      step s = .next { s with enc := .idle, sched := rest, free := s.free + 1, hold := none }) ∧
    (∀ (l : List Byte) (io : HostIo), s.sched = .again l io :: rest →
      step s = exec .reset { s with src := l, io := io, ioErr := none, sched := rest, free := s.free + 1 }) ∧
    (s.sched = .tick :: rest →
      step s = .next { s with sched := (tickOps s).map opTurn ++ rest, free := s.free + 1, hold := none })
end

