-- ==== Sys2Proof/Laws/State.lean ====
section
/-! SUPPORT. One lemma per field per named update of the state, so that no proof unfolds a record update. -/

namespace Sys2Proof.Machine

/-! ### `State.held` -/

@[simp] theorem State.held_cfg (s : State) (h : Hold) : (s.held h).cfg = s.cfg := rfl
@[simp] theorem State.held_map (s : State) (h : Hold) : (s.held h).map = s.map := rfl
@[simp] theorem State.held_bidx (s : State) (h : Hold) : (s.held h).bidx = s.bidx := rfl
@[simp] theorem State.held_ready (s : State) (h : Hold) : (s.held h).ready = s.ready := rfl
@[simp] theorem State.held_oq (s : State) (h : Hold) : (s.held h).oq = s.oq := rfl
@[simp] theorem State.held_fr (s : State) (h : Hold) : (s.held h).fr = s.fr := rfl
@[simp] theorem State.held_fcnt (s : State) (h : Hold) : (s.held h).fcnt = s.fcnt := rfl
@[simp] theorem State.held_line (s : State) (h : Hold) : (s.held h).line = s.line := rfl
@[simp] theorem State.held_tx (s : State) (h : Hold) : (s.held h).tx = s.tx := rfl
@[simp] theorem State.held_src (s : State) (h : Hold) : (s.held h).src = s.src := rfl
@[simp] theorem State.held_snk (s : State) (h : Hold) : (s.held h).snk = s.snk := rfl
@[simp] theorem State.held_mReady (s : State) (h : Hold) : (s.held h).mReady = s.mReady := rfl
@[simp] theorem State.held_rst (s : State) (h : Hold) : (s.held h).rst = s.rst := rfl
@[simp] theorem State.held_text (s : State) (h : Hold) : (s.held h).text = s.text := rfl
@[simp] theorem State.held_enc (s : State) (h : Hold) : (s.held h).enc = s.enc := rfl
@[simp] theorem State.held_io (s : State) (h : Hold) : (s.held h).io = s.io := rfl
@[simp] theorem State.held_ioErr (s : State) (h : Hold) : (s.held h).ioErr = s.ioErr := rfl
@[simp] theorem State.held_hold (s : State) (h : Hold) : (s.held h).hold = some h := rfl
@[simp] theorem State.held_sched (s : State) (h : Hold) : (s.held h).sched = s.sched := rfl
@[simp] theorem State.held_free (s : State) (h : Hold) : (s.held h).free = s.free := rfl

/-! ### `State.toReset` -/

@[simp] theorem State.toReset_cfg (s : State) : s.toReset.cfg = s.cfg := rfl
@[simp] theorem State.toReset_map (s : State) : s.toReset.map = if s.cfg.prebuilt then builtMap else [] := rfl
@[simp] theorem State.toReset_bidx (s : State) : s.toReset.bidx = if s.cfg.prebuilt then bidxDone else 0#9 := rfl
@[simp] theorem State.toReset_ready (s : State) : s.toReset.ready = s.cfg.prebuilt := rfl
@[simp] theorem State.toReset_oq (s : State) : s.toReset.oq = [] := rfl
@[simp] theorem State.toReset_fr (s : State) : s.toReset.fr = BitVec.allOnes 10 := rfl
@[simp] theorem State.toReset_fcnt (s : State) : s.toReset.fcnt = 0#4 := rfl
@[simp] theorem State.toReset_line (s : State) : s.toReset.line = true := rfl
@[simp] theorem State.toReset_tx (s : State) : s.toReset.tx = [] := rfl
@[simp] theorem State.toReset_src (s : State) : s.toReset.src = s.src := rfl
@[simp] theorem State.toReset_snk (s : State) : s.toReset.snk = s.snk := rfl
@[simp] theorem State.toReset_mReady (s : State) : s.toReset.mReady = s.mReady := rfl
@[simp] theorem State.toReset_rst (s : State) : s.toReset.rst = s.rst := rfl
@[simp] theorem State.toReset_text (s : State) : s.toReset.text = s.text := rfl
@[simp] theorem State.toReset_enc (s : State) : s.toReset.enc = .idle := rfl
@[simp] theorem State.toReset_io (s : State) : s.toReset.io = s.io := rfl
@[simp] theorem State.toReset_ioErr (s : State) : s.toReset.ioErr = s.ioErr := rfl
@[simp] theorem State.toReset_hold (s : State) : s.toReset.hold = none := rfl
@[simp] theorem State.toReset_sched (s : State) : s.toReset.sched = s.sched := rfl
@[simp] theorem State.toReset_free (s : State) : s.toReset.free = s.free := rfl

/-! ### `State.built` -/

@[simp] theorem State.built_cfg (s : State) (v : Byte) : (s.built v).cfg = s.cfg := rfl
@[simp] theorem State.built_map (s : State) (v : Byte) : (s.built v).map = Memory.write s.map (buildAddress s.bidx).toNat v := rfl
@[simp] theorem State.built_bidx (s : State) (v : Byte) : (s.built v).bidx = s.bidx + 1#9 := rfl
@[simp] theorem State.built_ready (s : State) (v : Byte) : (s.built v).ready = readyAfter s.bidx := rfl
@[simp] theorem State.built_oq (s : State) (v : Byte) : (s.built v).oq = s.oq := rfl
@[simp] theorem State.built_fr (s : State) (v : Byte) : (s.built v).fr = s.fr := rfl
@[simp] theorem State.built_fcnt (s : State) (v : Byte) : (s.built v).fcnt = s.fcnt := rfl
@[simp] theorem State.built_line (s : State) (v : Byte) : (s.built v).line = s.line := rfl
@[simp] theorem State.built_tx (s : State) (v : Byte) : (s.built v).tx = s.tx := rfl
@[simp] theorem State.built_src (s : State) (v : Byte) : (s.built v).src = s.src := rfl
@[simp] theorem State.built_snk (s : State) (v : Byte) : (s.built v).snk = s.snk := rfl
@[simp] theorem State.built_mReady (s : State) (v : Byte) : (s.built v).mReady = s.mReady := rfl
@[simp] theorem State.built_rst (s : State) (v : Byte) : (s.built v).rst = s.rst := rfl
@[simp] theorem State.built_text (s : State) (v : Byte) : (s.built v).text = s.text := rfl
@[simp] theorem State.built_enc (s : State) (v : Byte) : (s.built v).enc = s.enc := rfl
@[simp] theorem State.built_io (s : State) (v : Byte) : (s.built v).io = s.io := rfl
@[simp] theorem State.built_ioErr (s : State) (v : Byte) : (s.built v).ioErr = s.ioErr := rfl
@[simp] theorem State.built_hold (s : State) (v : Byte) : (s.built v).hold = none := rfl
@[simp] theorem State.built_sched (s : State) (v : Byte) : (s.built v).sched = s.sched := rfl
@[simp] theorem State.built_free (s : State) (v : Byte) : (s.built v).free = s.free := rfl

/-! ### `State.accepted` -/

@[simp] theorem State.accepted_cfg (s : State) (v : Byte) : (s.accepted v).cfg = s.cfg := rfl
@[simp] theorem State.accepted_map (s : State) (v : Byte) : (s.accepted v).map = s.map := rfl
@[simp] theorem State.accepted_bidx (s : State) (v : Byte) : (s.accepted v).bidx = s.bidx := rfl
@[simp] theorem State.accepted_ready (s : State) (v : Byte) : (s.accepted v).ready = s.ready := rfl
@[simp] theorem State.accepted_oq (s : State) (v : Byte) : (s.accepted v).oq = s.oq ++ [v] := rfl
@[simp] theorem State.accepted_fr (s : State) (v : Byte) : (s.accepted v).fr = s.fr := rfl
@[simp] theorem State.accepted_fcnt (s : State) (v : Byte) : (s.accepted v).fcnt = s.fcnt := rfl
@[simp] theorem State.accepted_line (s : State) (v : Byte) : (s.accepted v).line = s.line := rfl
@[simp] theorem State.accepted_tx (s : State) (v : Byte) : (s.accepted v).tx = s.tx := rfl
@[simp] theorem State.accepted_src (s : State) (v : Byte) : (s.accepted v).src = s.src.tail := rfl
@[simp] theorem State.accepted_snk (s : State) (v : Byte) : (s.accepted v).snk = s.snk := rfl
@[simp] theorem State.accepted_mReady (s : State) (v : Byte) : (s.accepted v).mReady = s.mReady := rfl
@[simp] theorem State.accepted_rst (s : State) (v : Byte) : (s.accepted v).rst = s.rst := rfl
@[simp] theorem State.accepted_text (s : State) (v : Byte) : (s.accepted v).text = s.text := rfl
@[simp] theorem State.accepted_enc (s : State) (v : Byte) : (s.accepted v).enc = s.enc := rfl
@[simp] theorem State.accepted_io (s : State) (v : Byte) : (s.accepted v).io = s.io.afterRead := rfl
@[simp] theorem State.accepted_ioErr (s : State) (v : Byte) : (s.accepted v).ioErr = s.ioErr := rfl
@[simp] theorem State.accepted_hold (s : State) (v : Byte) : (s.accepted v).hold = none := rfl
@[simp] theorem State.accepted_sched (s : State) (v : Byte) : (s.accepted v).sched = s.sched := rfl
@[simp] theorem State.accepted_free (s : State) (v : Byte) : (s.accepted v).free = s.free := rfl

/-! ### `State.delivered` -/

@[simp] theorem State.delivered_cfg (s : State) (y : Byte) : (s.delivered y).cfg = s.cfg := rfl
@[simp] theorem State.delivered_map (s : State) (y : Byte) : (s.delivered y).map = s.map := rfl
@[simp] theorem State.delivered_bidx (s : State) (y : Byte) : (s.delivered y).bidx = s.bidx := rfl
@[simp] theorem State.delivered_ready (s : State) (y : Byte) : (s.delivered y).ready = s.ready := rfl
@[simp] theorem State.delivered_oq (s : State) (y : Byte) : (s.delivered y).oq = s.oq.tail := rfl
@[simp] theorem State.delivered_fr (s : State) (y : Byte) : (s.delivered y).fr = s.fr := rfl
@[simp] theorem State.delivered_fcnt (s : State) (y : Byte) : (s.delivered y).fcnt = s.fcnt := rfl
@[simp] theorem State.delivered_line (s : State) (y : Byte) : (s.delivered y).line = s.line := rfl
@[simp] theorem State.delivered_tx (s : State) (y : Byte) : (s.delivered y).tx = s.tx := rfl
@[simp] theorem State.delivered_src (s : State) (y : Byte) : (s.delivered y).src = s.src := rfl
@[simp] theorem State.delivered_snk (s : State) (y : Byte) : (s.delivered y).snk = s.snk ++ [y] := rfl
@[simp] theorem State.delivered_mReady (s : State) (y : Byte) : (s.delivered y).mReady = s.mReady := rfl
@[simp] theorem State.delivered_rst (s : State) (y : Byte) : (s.delivered y).rst = s.rst := rfl
@[simp] theorem State.delivered_text (s : State) (y : Byte) : (s.delivered y).text = s.text := rfl
@[simp] theorem State.delivered_enc (s : State) (y : Byte) : (s.delivered y).enc = s.enc := rfl
@[simp] theorem State.delivered_io (s : State) (y : Byte) : (s.delivered y).io = s.io := rfl
@[simp] theorem State.delivered_ioErr (s : State) (y : Byte) : (s.delivered y).ioErr = s.ioErr := rfl
@[simp] theorem State.delivered_hold (s : State) (y : Byte) : (s.delivered y).hold = none := rfl
@[simp] theorem State.delivered_sched (s : State) (y : Byte) : (s.delivered y).sched = s.sched := rfl
@[simp] theorem State.delivered_free (s : State) (y : Byte) : (s.delivered y).free = s.free := rfl

/-! ### `State.loaded` -/

@[simp] theorem State.loaded_cfg (s : State) (y : Byte) : (s.loaded y).cfg = s.cfg := rfl
@[simp] theorem State.loaded_map (s : State) (y : Byte) : (s.loaded y).map = s.map := rfl
@[simp] theorem State.loaded_bidx (s : State) (y : Byte) : (s.loaded y).bidx = s.bidx := rfl
@[simp] theorem State.loaded_ready (s : State) (y : Byte) : (s.loaded y).ready = s.ready := rfl
@[simp] theorem State.loaded_oq (s : State) (y : Byte) : (s.loaded y).oq = s.oq.tail := rfl
@[simp] theorem State.loaded_fr (s : State) (y : Byte) : (s.loaded y).fr = frameWord y := rfl
@[simp] theorem State.loaded_fcnt (s : State) (y : Byte) : (s.loaded y).fcnt = 10#4 := rfl
@[simp] theorem State.loaded_line (s : State) (y : Byte) : (s.loaded y).line = s.line := rfl
@[simp] theorem State.loaded_tx (s : State) (y : Byte) : (s.loaded y).tx = s.tx := rfl
@[simp] theorem State.loaded_src (s : State) (y : Byte) : (s.loaded y).src = s.src := rfl
@[simp] theorem State.loaded_snk (s : State) (y : Byte) : (s.loaded y).snk = s.snk ++ [y] := rfl
@[simp] theorem State.loaded_mReady (s : State) (y : Byte) : (s.loaded y).mReady = s.mReady := rfl
@[simp] theorem State.loaded_rst (s : State) (y : Byte) : (s.loaded y).rst = s.rst := rfl
@[simp] theorem State.loaded_text (s : State) (y : Byte) : (s.loaded y).text = s.text := rfl
@[simp] theorem State.loaded_enc (s : State) (y : Byte) : (s.loaded y).enc = s.enc := rfl
@[simp] theorem State.loaded_io (s : State) (y : Byte) : (s.loaded y).io = s.io := rfl
@[simp] theorem State.loaded_ioErr (s : State) (y : Byte) : (s.loaded y).ioErr = s.ioErr := rfl
@[simp] theorem State.loaded_hold (s : State) (y : Byte) : (s.loaded y).hold = none := rfl
@[simp] theorem State.loaded_sched (s : State) (y : Byte) : (s.loaded y).sched = s.sched := rfl
@[simp] theorem State.loaded_free (s : State) (y : Byte) : (s.loaded y).free = s.free := rfl

/-! ### `State.shifted` -/

@[simp] theorem State.shifted_cfg (s : State) : s.shifted.cfg = s.cfg := rfl
@[simp] theorem State.shifted_map (s : State) : s.shifted.map = s.map := rfl
@[simp] theorem State.shifted_bidx (s : State) : s.shifted.bidx = s.bidx := rfl
@[simp] theorem State.shifted_ready (s : State) : s.shifted.ready = s.ready := rfl
@[simp] theorem State.shifted_oq (s : State) : s.shifted.oq = s.oq := rfl
@[simp] theorem State.shifted_fr (s : State) : s.shifted.fr = 1#1 ++ s.fr.extractLsb' 1 9 := rfl
@[simp] theorem State.shifted_fcnt (s : State) : s.shifted.fcnt = s.fcnt - 1#4 := rfl
@[simp] theorem State.shifted_line (s : State) : s.shifted.line = s.fr.getLsbD 0 := rfl
@[simp] theorem State.shifted_tx (s : State) : s.shifted.tx = s.tx ++ [s.fr.getLsbD 0] := rfl
@[simp] theorem State.shifted_src (s : State) : s.shifted.src = s.src := rfl
@[simp] theorem State.shifted_snk (s : State) : s.shifted.snk = s.snk := rfl
@[simp] theorem State.shifted_mReady (s : State) : s.shifted.mReady = s.mReady := rfl
@[simp] theorem State.shifted_rst (s : State) : s.shifted.rst = s.rst := rfl
@[simp] theorem State.shifted_text (s : State) : s.shifted.text = s.text := rfl
@[simp] theorem State.shifted_enc (s : State) : s.shifted.enc = s.enc := rfl
@[simp] theorem State.shifted_io (s : State) : s.shifted.io = s.io := rfl
@[simp] theorem State.shifted_ioErr (s : State) : s.shifted.ioErr = s.ioErr := rfl
@[simp] theorem State.shifted_hold (s : State) : s.shifted.hold = none := rfl
@[simp] theorem State.shifted_sched (s : State) : s.shifted.sched = s.sched := rfl
@[simp] theorem State.shifted_free (s : State) : s.shifted.free = s.free := rfl

/-! ### `State.idled` -/

@[simp] theorem State.idled_cfg (s : State) : s.idled.cfg = s.cfg := rfl
@[simp] theorem State.idled_map (s : State) : s.idled.map = s.map := rfl
@[simp] theorem State.idled_bidx (s : State) : s.idled.bidx = s.bidx := rfl
@[simp] theorem State.idled_ready (s : State) : s.idled.ready = s.ready := rfl
@[simp] theorem State.idled_oq (s : State) : s.idled.oq = s.oq := rfl
@[simp] theorem State.idled_fr (s : State) : s.idled.fr = s.fr := rfl
@[simp] theorem State.idled_fcnt (s : State) : s.idled.fcnt = s.fcnt := rfl
@[simp] theorem State.idled_line (s : State) : s.idled.line = true := rfl
@[simp] theorem State.idled_tx (s : State) : s.idled.tx = s.tx ++ [true] := rfl
@[simp] theorem State.idled_src (s : State) : s.idled.src = s.src := rfl
@[simp] theorem State.idled_snk (s : State) : s.idled.snk = s.snk := rfl
@[simp] theorem State.idled_mReady (s : State) : s.idled.mReady = s.mReady := rfl
@[simp] theorem State.idled_rst (s : State) : s.idled.rst = s.rst := rfl
@[simp] theorem State.idled_text (s : State) : s.idled.text = s.text := rfl
@[simp] theorem State.idled_enc (s : State) : s.idled.enc = s.enc := rfl
@[simp] theorem State.idled_io (s : State) : s.idled.io = s.io := rfl
@[simp] theorem State.idled_ioErr (s : State) : s.idled.ioErr = s.ioErr := rfl
@[simp] theorem State.idled_hold (s : State) : s.idled.hold = none := rfl
@[simp] theorem State.idled_sched (s : State) : s.idled.sched = s.sched := rfl
@[simp] theorem State.idled_free (s : State) : s.idled.free = s.free := rfl

/-! ### `State.abortEncode` -/

@[simp] theorem State.abortEncode_cfg (s : State) (e : IoError) : (s.abortEncode e).cfg = s.cfg := rfl
@[simp] theorem State.abortEncode_map (s : State) (e : IoError) : (s.abortEncode e).map = s.map := rfl
@[simp] theorem State.abortEncode_bidx (s : State) (e : IoError) : (s.abortEncode e).bidx = s.bidx := rfl
@[simp] theorem State.abortEncode_ready (s : State) (e : IoError) : (s.abortEncode e).ready = s.ready := rfl
@[simp] theorem State.abortEncode_oq (s : State) (e : IoError) : (s.abortEncode e).oq = s.oq := rfl
@[simp] theorem State.abortEncode_fr (s : State) (e : IoError) : (s.abortEncode e).fr = s.fr := rfl
@[simp] theorem State.abortEncode_fcnt (s : State) (e : IoError) : (s.abortEncode e).fcnt = s.fcnt := rfl
@[simp] theorem State.abortEncode_line (s : State) (e : IoError) : (s.abortEncode e).line = s.line := rfl
@[simp] theorem State.abortEncode_tx (s : State) (e : IoError) : (s.abortEncode e).tx = s.tx := rfl
@[simp] theorem State.abortEncode_src (s : State) (e : IoError) : (s.abortEncode e).src = s.src := rfl
@[simp] theorem State.abortEncode_snk (s : State) (e : IoError) : (s.abortEncode e).snk = s.snk := rfl
@[simp] theorem State.abortEncode_mReady (s : State) (e : IoError) : (s.abortEncode e).mReady = s.mReady := rfl
@[simp] theorem State.abortEncode_rst (s : State) (e : IoError) : (s.abortEncode e).rst = s.rst := rfl
@[simp] theorem State.abortEncode_text (s : State) (e : IoError) : (s.abortEncode e).text = s.text.take s.io.kept := rfl
@[simp] theorem State.abortEncode_enc (s : State) (e : IoError) : (s.abortEncode e).enc = .idle := rfl
@[simp] theorem State.abortEncode_io (s : State) (e : IoError) : (s.abortEncode e).io = s.io := rfl
@[simp] theorem State.abortEncode_ioErr (s : State) (e : IoError) : (s.abortEncode e).ioErr = some e := rfl
@[simp] theorem State.abortEncode_hold (s : State) (e : IoError) : (s.abortEncode e).hold = none := rfl
@[simp] theorem State.abortEncode_sched (s : State) (e : IoError) : (s.abortEncode e).sched = s.sched := rfl
@[simp] theorem State.abortEncode_free (s : State) (e : IoError) : (s.abortEncode e).free = s.free := rfl

/-! ### `State.afresh` -/

@[simp] theorem State.afresh_cfg (s : State) (l : List Byte) (io : HostIo) : (s.afresh l io).cfg = s.cfg := rfl
@[simp] theorem State.afresh_map (s : State) (l : List Byte) (io : HostIo) : (s.afresh l io).map = s.map := rfl
@[simp] theorem State.afresh_bidx (s : State) (l : List Byte) (io : HostIo) : (s.afresh l io).bidx = s.bidx := rfl
@[simp] theorem State.afresh_ready (s : State) (l : List Byte) (io : HostIo) : (s.afresh l io).ready = s.ready := rfl
@[simp] theorem State.afresh_oq (s : State) (l : List Byte) (io : HostIo) : (s.afresh l io).oq = s.oq := rfl
@[simp] theorem State.afresh_fr (s : State) (l : List Byte) (io : HostIo) : (s.afresh l io).fr = s.fr := rfl
@[simp] theorem State.afresh_fcnt (s : State) (l : List Byte) (io : HostIo) : (s.afresh l io).fcnt = s.fcnt := rfl
@[simp] theorem State.afresh_line (s : State) (l : List Byte) (io : HostIo) : (s.afresh l io).line = s.line := rfl
@[simp] theorem State.afresh_tx (s : State) (l : List Byte) (io : HostIo) : (s.afresh l io).tx = s.tx := rfl
@[simp] theorem State.afresh_src (s : State) (l : List Byte) (io : HostIo) : (s.afresh l io).src = l := rfl
@[simp] theorem State.afresh_snk (s : State) (l : List Byte) (io : HostIo) : (s.afresh l io).snk = s.snk := rfl
@[simp] theorem State.afresh_mReady (s : State) (l : List Byte) (io : HostIo) : (s.afresh l io).mReady = s.mReady := rfl
@[simp] theorem State.afresh_rst (s : State) (l : List Byte) (io : HostIo) : (s.afresh l io).rst = s.rst := rfl
@[simp] theorem State.afresh_text (s : State) (l : List Byte) (io : HostIo) : (s.afresh l io).text = s.text := rfl
@[simp] theorem State.afresh_enc (s : State) (l : List Byte) (io : HostIo) : (s.afresh l io).enc = s.enc := rfl
@[simp] theorem State.afresh_io (s : State) (l : List Byte) (io : HostIo) : (s.afresh l io).io = io := rfl
@[simp] theorem State.afresh_ioErr (s : State) (l : List Byte) (io : HostIo) : (s.afresh l io).ioErr = none := rfl
@[simp] theorem State.afresh_hold (s : State) (l : List Byte) (io : HostIo) : (s.afresh l io).hold = s.hold := rfl
@[simp] theorem State.afresh_sched (s : State) (l : List Byte) (io : HostIo) : (s.afresh l io).sched = s.sched := rfl
@[simp] theorem State.afresh_free (s : State) (l : List Byte) (io : HostIo) : (s.afresh l io).free = s.free := rfl

/-! ### `HostIo.afterRead` -/

@[simp] theorem HostIo.afterRead_readable (io : HostIo) : io.afterRead.readable = io.readable.map (· - 1) := rfl
@[simp] theorem HostIo.afterRead_writable (io : HostIo) : io.afterRead.writable = io.writable := rfl
@[simp] theorem HostIo.afterRead_kept (io : HostIo) : io.afterRead.kept = io.kept := rfl

/-- The files of a source that never fails are left as they were. -/
theorem HostIo.afterRead_unlimited {io : HostIo} (h : io.readable = none) : io.afterRead = io := by
  cases io
  simp_all [HostIo.afterRead]

/-! ### `State.sourceRead` -/

@[simp] theorem State.sourceRead_cfg (s : State) : s.sourceRead.cfg = s.cfg := rfl
@[simp] theorem State.sourceRead_map (s : State) : s.sourceRead.map = s.map := rfl
@[simp] theorem State.sourceRead_bidx (s : State) : s.sourceRead.bidx = s.bidx := rfl
@[simp] theorem State.sourceRead_ready (s : State) : s.sourceRead.ready = s.ready := rfl
@[simp] theorem State.sourceRead_oq (s : State) : s.sourceRead.oq = s.oq := rfl
@[simp] theorem State.sourceRead_fr (s : State) : s.sourceRead.fr = s.fr := rfl
@[simp] theorem State.sourceRead_fcnt (s : State) : s.sourceRead.fcnt = s.fcnt := rfl
@[simp] theorem State.sourceRead_line (s : State) : s.sourceRead.line = s.line := rfl
@[simp] theorem State.sourceRead_tx (s : State) : s.sourceRead.tx = s.tx := rfl
@[simp] theorem State.sourceRead_src (s : State) : s.sourceRead.src = s.src := rfl
@[simp] theorem State.sourceRead_snk (s : State) : s.sourceRead.snk = s.snk := rfl
@[simp] theorem State.sourceRead_mReady (s : State) : s.sourceRead.mReady = s.mReady := rfl
@[simp] theorem State.sourceRead_rst (s : State) : s.sourceRead.rst = s.rst := rfl
@[simp] theorem State.sourceRead_text (s : State) : s.sourceRead.text = s.text := rfl
@[simp] theorem State.sourceRead_enc (s : State) : s.sourceRead.enc = s.enc := rfl
@[simp] theorem State.sourceRead_io (s : State) : s.sourceRead.io = s.io.afterRead := rfl
@[simp] theorem State.sourceRead_ioErr (s : State) : s.sourceRead.ioErr = s.ioErr := rfl
@[simp] theorem State.sourceRead_hold (s : State) : s.sourceRead.hold = s.hold := rfl
@[simp] theorem State.sourceRead_sched (s : State) : s.sourceRead.sched = s.sched := rfl
@[simp] theorem State.sourceRead_free (s : State) : s.sourceRead.free = s.free := rfl

/-! ### `State.advance` -/

@[simp] theorem State.advance_cfg (s : State) (rest : List Turn) : (s.advance rest).cfg = s.cfg := rfl
@[simp] theorem State.advance_map (s : State) (rest : List Turn) : (s.advance rest).map = s.map := rfl
@[simp] theorem State.advance_bidx (s : State) (rest : List Turn) : (s.advance rest).bidx = s.bidx := rfl
@[simp] theorem State.advance_ready (s : State) (rest : List Turn) : (s.advance rest).ready = s.ready := rfl
@[simp] theorem State.advance_oq (s : State) (rest : List Turn) : (s.advance rest).oq = s.oq := rfl
@[simp] theorem State.advance_fr (s : State) (rest : List Turn) : (s.advance rest).fr = s.fr := rfl
@[simp] theorem State.advance_fcnt (s : State) (rest : List Turn) : (s.advance rest).fcnt = s.fcnt := rfl
@[simp] theorem State.advance_line (s : State) (rest : List Turn) : (s.advance rest).line = s.line := rfl
@[simp] theorem State.advance_tx (s : State) (rest : List Turn) : (s.advance rest).tx = s.tx := rfl
@[simp] theorem State.advance_src (s : State) (rest : List Turn) : (s.advance rest).src = s.src := rfl
@[simp] theorem State.advance_snk (s : State) (rest : List Turn) : (s.advance rest).snk = s.snk := rfl
@[simp] theorem State.advance_mReady (s : State) (rest : List Turn) : (s.advance rest).mReady = s.mReady := rfl
@[simp] theorem State.advance_rst (s : State) (rest : List Turn) : (s.advance rest).rst = s.rst := rfl
@[simp] theorem State.advance_text (s : State) (rest : List Turn) : (s.advance rest).text = s.text := rfl
@[simp] theorem State.advance_enc (s : State) (rest : List Turn) : (s.advance rest).enc = s.enc := rfl
@[simp] theorem State.advance_io (s : State) (rest : List Turn) : (s.advance rest).io = s.io := rfl
@[simp] theorem State.advance_ioErr (s : State) (rest : List Turn) : (s.advance rest).ioErr = s.ioErr := rfl
@[simp] theorem State.advance_hold (s : State) (rest : List Turn) : (s.advance rest).hold = s.hold := rfl
@[simp] theorem State.advance_sched (s : State) (rest : List Turn) : (s.advance rest).sched = rest := rfl
@[simp] theorem State.advance_free (s : State) (rest : List Turn) : (s.advance rest).free = s.free + 1 := rfl

/-! ### `State.drive` -/

@[simp] theorem State.drive_cfg (s : State) (e : Edge) : (s.drive e).cfg = s.cfg := rfl
@[simp] theorem State.drive_map (s : State) (e : Edge) : (s.drive e).map = s.map := rfl
@[simp] theorem State.drive_bidx (s : State) (e : Edge) : (s.drive e).bidx = s.bidx := rfl
@[simp] theorem State.drive_ready (s : State) (e : Edge) : (s.drive e).ready = s.ready := rfl
@[simp] theorem State.drive_oq (s : State) (e : Edge) : (s.drive e).oq = s.oq := rfl
@[simp] theorem State.drive_fr (s : State) (e : Edge) : (s.drive e).fr = s.fr := rfl
@[simp] theorem State.drive_fcnt (s : State) (e : Edge) : (s.drive e).fcnt = s.fcnt := rfl
@[simp] theorem State.drive_line (s : State) (e : Edge) : (s.drive e).line = s.line := rfl
@[simp] theorem State.drive_tx (s : State) (e : Edge) : (s.drive e).tx = s.tx := rfl
@[simp] theorem State.drive_src (s : State) (e : Edge) : (s.drive e).src = s.src := rfl
@[simp] theorem State.drive_snk (s : State) (e : Edge) : (s.drive e).snk = s.snk := rfl
@[simp] theorem State.drive_mReady (s : State) (e : Edge) : (s.drive e).mReady = e.mReady := rfl
@[simp] theorem State.drive_rst (s : State) (e : Edge) : (s.drive e).rst = e.rst := rfl
@[simp] theorem State.drive_text (s : State) (e : Edge) : (s.drive e).text = s.text := rfl
@[simp] theorem State.drive_enc (s : State) (e : Edge) : (s.drive e).enc = s.enc := rfl
@[simp] theorem State.drive_io (s : State) (e : Edge) : (s.drive e).io = s.io := rfl
@[simp] theorem State.drive_ioErr (s : State) (e : Edge) : (s.drive e).ioErr = s.ioErr := rfl
@[simp] theorem State.drive_hold (s : State) (e : Edge) : (s.drive e).hold = s.hold := rfl
@[simp] theorem State.drive_sched (s : State) (e : Edge) : (s.drive e).sched = s.sched := rfl
@[simp] theorem State.drive_free (s : State) (e : Edge) : (s.drive e).free = s.free := rfl

end Sys2Proof.Machine
end

