-- ==== Sys2Proof/Laws/Ops.lean ====
section
/-! SUPPORT. What each shared operation can do, said once: if it answers a next state, it held, or it did the one thing its rule
says. -/

namespace Sys2Proof.Machine

theorem unlessHeld_some {h : Option Hold} {k : Hold} (hk : h = some k) (s : State) (op : State → Result) :
    unlessHeld h s op = .next (s.held k) := by
  rw [hk]; rfl

theorem unlessHeld_none {h : Option Hold} (hn : h = none) (s : State) (op : State → Result) :
    unlessHeld h s op = op s := by
  rw [hn]; rfl

theorem unlessHeld_next {h : Option Hold} {s t : State} {op : State → Result} (hr : unlessHeld h s op = .next t) :
    (∃ k, h = some k ∧ t = s.held k) ∨ (h = none ∧ op s = .next t) := by
  cases h with
  | none => exact .inr ⟨rfl, hr⟩
  | some k => exact .inl ⟨k, rfl, (Host.Outcome.next.inj hr).symm⟩

theorem thenIfDone_next {r : Result} {f : State → Result} {t : State} (hr : thenIfDone r f = .next t) :
    (r = .next t ∧ t.hold.isSome = true) ∨ ∃ u, r = .next u ∧ u.hold = none ∧ f u = .next t := by
  cases r with
  | fault e => cases hr
  | refused e => cases hr
  | next u =>
    rw [thenIfDone] at hr
    split at hr
    · rename_i hs
      cases hr
      exact .inl ⟨rfl, hs⟩
    · rename_i hs
      exact .inr ⟨u, rfl, by simpa using hs, hr⟩

theorem thenIfDone_done {r : Result} {u : State} (hr : r = .next u) (hu : u.hold = none) (f : State → Result) :
    thenIfDone r f = f u := by
  rw [hr, thenIfDone, hu]; rfl

theorem thenIfDone_held {r : Result} {u : State} {k : Hold} (hr : r = .next u) (hu : u.hold = some k)
    (f : State → Result) : thenIfDone r f = .next u := by
  rw [hr, thenIfDone, hu]; rfl

/-- When the source offers a sample (10_state.md R29, 60_exceptions.md R131). -/
theorem sValid_eq_true {s : State} : s.sValid = true ↔ s.src ≠ [] ∧ s.io.readable ≠ some 0 := by
  simp [State.sValid]

/-- A source that never fails offers what there is. -/
theorem sValid_of_unlimited {s : State} (hs : s.src ≠ []) (h : s.io.readable = none) : s.sValid = true :=
  sValid_eq_true.2 ⟨hs, by simp [h]⟩

/-- When the host's sink accepts (10_state.md R29, 60_exceptions.md R131). -/
theorem sinkAccepts_eq_true {s : State} : s.sinkAccepts = true ↔ s.mReady = true ∧ s.ioErr ≠ some .sinkUnwritable := by
  simp [State.sinkAccepts]

/-- When LOOKUP is enabled (41_lookup.md R91). -/
theorem lookupHold_eq_none {s : State} : lookupHold s = none ↔
    s.rst = false ∧ s.ready = true ∧ s.oq.length < s.cfg.oqDepth ∧ s.sValid = true := by
  simp only [lookupHold]
  cases s.rst <;> cases s.ready <;> cases s.sValid <;> simp
  by_cases h : s.cfg.oqDepth ≤ s.oq.length <;> simp [h]

/-- When BUILD_STEP is enabled (40_build.md R80). -/
theorem buildHold_eq_none {s : State} : buildHold s = none ↔
    s.cfg.prebuilt = false ∧ s.rst = false ∧ s.ready = false := by
  simp only [buildHold]
  cases s.cfg.prebuilt <;> cases s.rst <;> cases s.ready <;> simp

/-- When EMIT is enabled without the serialiser (41_lookup.md R93). -/
theorem emitHold_eq_none {s : State} : emitHold s = none ↔ s.rst = false ∧ s.oq ≠ [] ∧ s.sinkAccepts = true := by
  simp only [emitHold]
  cases s.rst <;> cases s.oq <;> cases s.sinkAccepts <;> simp

/-- When MOD_LOAD is enabled (43_pwm_frame.md R121). -/
theorem loadHold_eq_none {s : State} : loadHold s = none ↔
    s.cfg.hasMod = true ∧ s.rst = false ∧ s.fcnt = 0#4 ∧ s.oq ≠ [] := by
  simp only [loadHold]
  cases s.cfg.hasMod <;> cases s.rst <;> cases s.oq <;> by_cases h : s.fcnt = 0#4 <;> simp [h]

/-- When MOD_SHIFT is enabled (43_pwm_frame.md R122). -/
theorem shiftHold_eq_none {s : State} : shiftHold s = none ↔ s.cfg.hasMod = true ∧ s.fcnt ≠ 0#4 := by
  simp only [shiftHold]
  cases s.cfg.hasMod <;> by_cases h : s.fcnt = 0#4 <;> simp [h]

/-- When MOD_IDLE is enabled (43_pwm_frame.md R123). -/
theorem idleHold_eq_none {s : State} : idleHold s = none ↔ s.cfg.hasMod = true ∧ s.fcnt = 0#4 ∧ s.oq = [] := by
  simp only [idleHold]
  cases s.cfg.hasMod <;> cases s.oq <;> by_cases h : s.fcnt = 0#4 <;> simp [h]

/-- What BUILD_STEP can do (40_build.md R80). -/
theorem buildOne_next {s t : State} (hr : buildOne s = .next t) :
    (∃ k, buildHold s = some k ∧ t = s.held k) ∨
    (buildHold s = none ∧ ∃ v, symRead (idx (buildAddress s.bidx)) = some v ∧ t = s.built v) := by
  rcases unlessHeld_next hr with h | ⟨hn, h⟩
  · exact .inl h
  · refine .inr ⟨hn, ?_⟩
    cases hv : symRead (idx (buildAddress s.bidx)) with
    | none => simp [hv] at h
    | some v => exact ⟨v, rfl, by simpa [hv] using h.symm⟩

/-- What LOOKUP can do (41_lookup.md R91, R92). -/
theorem lookupOne_next {x : Byte} {s t : State} (hr : lookupOne x s = .next t) :
    (∃ k, t = s.held k) ∨
    (lookupHold s = none ∧ s.src.head? = some x ∧ ∃ v, s.mapRead x = some v ∧ t = s.accepted v) := by
  rcases unlessHeld_next hr with ⟨k, -, h⟩ | ⟨hn, h⟩
  · exact .inl ⟨k, h⟩
  · by_cases hx : s.src.head? = some x
    · simp only [hx, if_true] at h
      cases hv : s.mapRead x with
      | none => simp [hv] at h
      | some v => exact .inr ⟨hn, hx, v, rfl, by simpa [hv] using h.symm⟩
    · simp only [if_neg hx] at h
      exact .inl ⟨_, (Host.Outcome.next.inj h).symm⟩

theorem deliverHead_next {f : State → Byte → State} {s t : State} (hr : deliverHead f s = .next t) :
    (∃ k, t = s.held k) ∨ ∃ y rest, s.oq = y :: rest ∧ t = f s y := by
  rw [deliverHead] at hr
  split at hr
  · exact .inl ⟨_, (Host.Outcome.next.inj hr).symm⟩
  · rename_i y rest hq
    exact .inr ⟨y, rest, hq, (Host.Outcome.next.inj hr).symm⟩

/-- What MOD_LOAD can do (43_pwm_frame.md R121). -/
theorem loadOne_next {s t : State} (hr : loadOne s = .next t) :
    (∃ k, t = s.held k) ∨ (loadHold s = none ∧ ∃ y rest, s.oq = y :: rest ∧ t = s.loaded y) := by
  rcases unlessHeld_next hr with ⟨k, -, h⟩ | ⟨hn, h⟩
  · exact .inl ⟨k, h⟩
  · rcases deliverHead_next h with h | h
    · exact .inl h
    · exact .inr ⟨hn, h⟩

/-- What EMIT can do (41_lookup.md R93). -/
theorem emitOne_next {s t : State} (hr : emitOne s = .next t) :
    (∃ k, t = s.held k) ∨
    (s.cfg.hasMod = true ∧ loadHold s = none ∧ ∃ y rest, s.oq = y :: rest ∧ t = s.loaded y) ∨
    (s.cfg.hasMod = false ∧ emitHold s = none ∧ ∃ y rest, s.oq = y :: rest ∧ t = s.delivered y) := by
  rw [emitOne] at hr
  split at hr
  · rename_i hm
    rcases loadOne_next hr with h | h
    · exact .inl h
    · exact .inr (.inl ⟨hm, h⟩)
  · rename_i hm
    rcases unlessHeld_next hr with ⟨k, -, h⟩ | ⟨hn, h⟩
    · exact .inl ⟨k, h⟩
    · rcases deliverHead_next h with h | h
      · exact .inl h
      · exact .inr (.inr ⟨by simpa using hm, hn, h⟩)

/-- What MOD_SHIFT can do (43_pwm_frame.md R122). -/
theorem shiftOne_next {s t : State} (hr : shiftOne s = .next t) :
    (∃ k, t = s.held k) ∨ (shiftHold s = none ∧ t = s.shifted) := by
  rcases unlessHeld_next hr with ⟨k, -, h⟩ | ⟨hn, h⟩
  · exact .inl ⟨k, h⟩
  · exact .inr ⟨hn, (Host.Outcome.next.inj h).symm⟩

/-- What MOD_IDLE can do (43_pwm_frame.md R123). -/
theorem idleOne_next {s t : State} (hr : idleOne s = .next t) :
    (∃ k, t = s.held k) ∨ (idleHold s = none ∧ t = s.idled) := by
  rcases unlessHeld_next hr with ⟨k, -, h⟩ | ⟨hn, h⟩
  · exact .inl ⟨k, h⟩
  · exact .inr ⟨hn, (Host.Outcome.next.inj h).symm⟩

/-- What every BUILD_STEP keeps, BUILD keeps (40_build.md R81). -/
theorem buildMany_keeps {P : State → Prop} (h : ∀ s t, P s → buildOne s = .next t → P t) {n : Nat} {s t : State}
    (hs : P s) (hr : buildMany n s = .next t) : P t := by
  induction n generalizing s with
  | zero => cases hr; exact hs
  | succ n ih =>
    rcases thenIfDone_next hr with ⟨h1, -⟩ | ⟨u, h1, -, h2⟩
    · exact h _ _ hs h1
    · exact ih (h _ _ hs h1) h2

/-- What LOOKUP and EMIT keep, QUANT keeps (30_encoding.md R70). -/
theorem quantOne_keeps {P : State → Prop} (hl : ∀ x s t, P s → lookupOne x s = .next t → P t)
    (he : ∀ s t, P s → emitOne s = .next t → P t) {x : Byte} {s t : State} (hs : P s)
    (hr : quantOne x s = .next t) : P t := by
  rcases thenIfDone_next hr with ⟨h1, -⟩ | ⟨u, h1, -, h2⟩
  · exact hl _ _ _ hs h1
  · exact he _ _ (hl _ _ _ hs h1) h2

end Sys2Proof.Machine
end

