-- ==== Sys2Proof/Laws/Encoder.lean ====
section
/-! SUPPORT. The Encoder writes host fields only, and reaches the block through LOOKUP and EMIT only (spec/42_host_encoder.md
R100). -/

namespace Sys2Proof.Machine

/-- `t` differs from `s` at most in the host's text, progress, files and error, and in `hold`. -/
def HostStep (s t : State) : Prop :=
  t = { s with text := t.text, enc := t.enc, io := t.io, ioErr := t.ioErr, hold := t.hold }

theorem HostStep.refl (s : State) : HostStep s s := rfl

theorem HostStep.trans {s t u : State} (h : HostStep s t) (k : HostStep t u) : HostStep s u := by
  unfold HostStep at *
  rw [k, h]

theorem textWrite_host (bs : List Byte) (s : State) : HostStep s (textWrite bs s) := by
  rw [textWrite]
  split
  · rfl
  · split <;> rfl

theorem beginEncode_host (s : State) : HostStep s (beginEncode s) := by
  rw [beginEncode]
  split
  · exact HostStep.trans (t := { s with
      text := []
      ioErr := none
      enc := .filling (s.snk.length + s.oq.length) (s.snk.length + s.oq.length)
      hold := none }) rfl (textWrite_host _ _)
  · rfl

theorem sourceRead_host (s : State) : HostStep s s.sourceRead := rfl

theorem flushLine_host (base pos : Nat) (s : State) : HostStep s (flushLine base pos s) :=
  HostStep.trans (t := { s with enc := .filling base (pos + ((s.unwritten pos).take chunkSize).length) }) rfl
    (textWrite_host _ _)

theorem finishEncode_host (s : State) : HostStep s (finishEncode s) := (textWrite_host _ _).trans rfl

/-- What one turn of ENCODE can come to: nothing is left to do, or the source cannot be read, or one of the moves of step 2. -/
theorem encodeLoop_cases {n : Nat} {s t : State} (hr : encodeLoop (n + 1) s = .next t) :
    (s.enc = .idle ∧ t = s) ∨
    ∃ base pos, s.enc = .filling base pos ∧
      ((chunkSize ≤ (s.unwritten pos).length ∧ encodeLoop n (flushLine base pos s) = .next t) ∨
       ((s.unwritten pos).length < chunkSize ∧ s.awaited pos = true ∧ thenIfDone (emitOne s) (encodeLoop n) = .next t) ∨
       ((s.unwritten pos).length < chunkSize ∧ s.awaited pos = false ∧ s.io.readable = some 0 ∧
         t = s.abortEncode .sourceUnreadable) ∨
       ((s.unwritten pos).length < chunkSize ∧ s.awaited pos = false ∧ s.io.readable ≠ some 0 ∧ s.src = [] ∧
         s.unwritten pos = [] ∧ t = finishEncode s.sourceRead) ∨
       ((s.unwritten pos).length < chunkSize ∧ s.awaited pos = false ∧ s.io.readable ≠ some 0 ∧ s.src = [] ∧
         s.unwritten pos ≠ [] ∧ encodeLoop n (flushLine base pos s.sourceRead) = .next t) ∨
       ((s.unwritten pos).length < chunkSize ∧ s.awaited pos = false ∧ s.io.readable ≠ some 0 ∧
         ∃ x l, s.src = x :: l ∧
           ((s.oq = [] ∧ thenIfDone (lookupOne x s) (encodeLoop n) = .next t) ∨
            (s.oq ≠ [] ∧ thenIfDone (emitOne s) (encodeLoop n) = .next t)))) := by
  rw [encodeLoop] at hr
  split at hr
  · cases hr; exact .inl ⟨‹_›, rfl⟩
  · rename_i base pos he
    refine .inr ⟨base, pos, he, ?_⟩
    split at hr
    · exact .inl ⟨‹_›, hr⟩
    · rename_i hc
      have hc := Nat.not_le.1 hc
      split at hr
      · exact .inr (.inl ⟨hc, ‹_›, hr⟩)
      · rename_i ha
        have ha := Bool.eq_false_iff.2 ha
        split at hr
        · cases hr; exact .inr (.inr (.inl ⟨hc, ha, ‹_›, rfl⟩))
        · rename_i hio
          split at hr
          · rename_i hs
            rw [readNothing] at hr
            split at hr
            · cases hr
              exact .inr (.inr (.inr (.inl ⟨hc, ha, hio, hs, List.isEmpty_iff.1 ‹_›, rfl⟩)))
            · rename_i hne
              exact .inr (.inr (.inr (.inr (.inl ⟨hc, ha, hio, hs, by simpa using hne, hr⟩))))
          · rename_i x l hs
            refine .inr (.inr (.inr (.inr (.inr ⟨hc, ha, hio, x, l, hs, ?_⟩))))
            rw [readSample] at hr
            split at hr
            · exact .inl ⟨List.isEmpty_iff.1 ‹_›, hr⟩
            · rename_i hne
              exact .inr ⟨by simpa using hne, hr⟩

/-- What LOOKUP and EMIT and every change of the host's own fields keep, ENCODE keeps. -/
theorem encodeLoop_keeps {P : State → Prop} (hl : ∀ x s t, P s → lookupOne x s = .next t → P t)
    (he : ∀ s t, P s → emitOne s = .next t → P t) (hh : ∀ s t, P s → HostStep s t → P t) {n : Nat} {s t : State}
    (hs : P s) (hr : encodeLoop n s = .next t) : P t := by
  induction n generalizing s with
  | zero => cases hr; exact hs
  | succ n ih =>
    have emit : thenIfDone (emitOne s) (encodeLoop n) = .next t → P t := by
      intro hr
      rcases thenIfDone_next hr with ⟨h1, -⟩ | ⟨u, h1, -, h2⟩
      · exact he _ _ hs h1
      · exact ih (he _ _ hs h1) h2
    rcases encodeLoop_cases hr with ⟨-, rfl⟩ | ⟨base, pos, -, h⟩
    · exact hs
    · rcases h with ⟨-, h⟩ | ⟨-, -, h⟩ | ⟨-, -, -, rfl⟩ | ⟨-, -, -, -, -, rfl⟩ | ⟨-, -, -, -, -, h⟩ |
        ⟨-, -, -, x, l, -, ⟨-, h⟩ | ⟨-, h⟩⟩
      · exact ih (hh _ _ hs (flushLine_host _ _ _)) h
      · exact emit h
      · exact hh _ _ hs rfl
      · exact hh _ _ hs ((sourceRead_host s).trans (finishEncode_host _))
      · exact ih (hh _ _ hs ((sourceRead_host s).trans (flushLine_host _ _ _))) h
      · rcases thenIfDone_next h with ⟨h1, -⟩ | ⟨u, h1, -, h2⟩
        · exact hl _ _ _ hs h1
        · exact ih (hl _ _ _ hs h1) h2
      · exact emit h

theorem execEncode_keeps {P : State → Prop} (hl : ∀ x s t, P s → lookupOne x s = .next t → P t)
    (he : ∀ s t, P s → emitOne s = .next t → P t) (hh : ∀ s t, P s → HostStep s t → P t) {s t : State}
    (hs : P s) (hr : execEncode s = .next t) : P t :=
  encodeLoop_keeps hl he hh (hh _ _ hs (beginEncode_host s)) hr

/-- A text sink that never fails takes everything. -/
theorem textWrite_unlimited {s : State} (h : s.io.writable = none) (bs : List Byte) :
    textWrite bs s = { s with text := s.text ++ bs } := by
  simp [textWrite, h]

/-- Writing either appends everything or aborts the run with a prefix (42_host_encoder.md R108). -/
theorem textWrite_outcome (bs : List Byte) (s : State) :
    ((textWrite bs s).ioErr = s.ioErr ∧ (textWrite bs s).text = s.text ++ bs ∧ (textWrite bs s).enc = s.enc) ∨
    ((textWrite bs s).ioErr = some .sinkUnwritable ∧ (textWrite bs s).enc = .idle ∧
      (textWrite bs s).text <+: s.text ++ bs) := by
  rw [textWrite]
  split
  · exact .inl ⟨rfl, rfl, rfl⟩
  · split
    · exact .inl ⟨rfl, rfl, rfl⟩
    · exact .inr ⟨rfl, rfl,
        (List.take_prefix _ _).trans ((List.prefix_append_right_inj _).2 (List.take_prefix _ _))⟩

/-- A source that never fails is left as it was. -/
theorem sourceRead_unlimited {s : State} (h : s.io.readable = none) : s.sourceRead = s := by
  simp only [State.sourceRead, HostIo.afterRead_unlimited h]

/-- One turn of ENCODE that writes the line of a full chunk. -/
theorem encodeLoop_flush {n base pos : Nat} {s : State} (he : s.enc = .filling base pos)
    (hc : chunkSize ≤ (s.unwritten pos).length) : encodeLoop (n + 1) s = encodeLoop n (flushLine base pos s) := by
  rw [encodeLoop]; simp only [he]
  rw [if_pos hc]

/-- One turn of ENCODE that delivers a symbol it waits for. -/
theorem encodeLoop_emit {n base pos : Nat} {s : State} (he : s.enc = .filling base pos)
    (hc : (s.unwritten pos).length < chunkSize) (ha : s.awaited pos = true) :
    encodeLoop (n + 1) s = thenIfDone (emitOne s) (encodeLoop n) := by
  rw [encodeLoop]; simp only [he]
  rw [if_neg (Nat.not_le.2 hc), if_pos ha]

/-- The turn of ENCODE that finds the source unreadable. -/
theorem encodeLoop_unreadable {n base pos : Nat} {s : State} (he : s.enc = .filling base pos)
    (hc : (s.unwritten pos).length < chunkSize) (ha : s.awaited pos = false) (hio : s.io.readable = some 0) :
    encodeLoop (n + 1) s = .next (s.abortEncode .sourceUnreadable) := by
  rw [encodeLoop]; simp only [he]
  rw [if_neg (Nat.not_le.2 hc), if_neg (by simp [ha]), if_pos hio]

/-- One turn of ENCODE that reads the next sample. -/
theorem encodeLoop_sample {n base pos : Nat} {s : State} {x : Byte} {l : List Byte} (he : s.enc = .filling base pos)
    (hc : (s.unwritten pos).length < chunkSize) (ha : s.awaited pos = false) (hio : s.io.readable ≠ some 0)
    (hs : s.src = x :: l) : encodeLoop (n + 1) s = readSample x s (encodeLoop n) := by
  rw [encodeLoop]; simp only [he, hs]
  rw [if_neg (Nat.not_le.2 hc), if_neg (by simp [ha]), if_neg hio]

/-- One turn of ENCODE that finds the source empty. -/
theorem encodeLoop_nothing {n base pos : Nat} {s : State} (he : s.enc = .filling base pos)
    (hc : (s.unwritten pos).length < chunkSize) (ha : s.awaited pos = false) (hio : s.io.readable ≠ some 0)
    (hs : s.src = []) : encodeLoop (n + 1) s = readNothing base pos s (encodeLoop n) := by
  rw [encodeLoop]; simp only [he, hs]
  rw [if_neg (Nat.not_le.2 hc), if_neg (by simp [ha]), if_neg hio]

end Sys2Proof.Machine
end

