-- ==== Sys2Proof/Laws/Memory.lean ====
section
/-! SUPPORT. The laws of `MAP` as a memory (spec/20_memory.md R44): read after write, and the canonical form. -/

namespace Sys2Proof.Machine

@[simp] theorem Memory.read_nil (a : Nat) : Memory.read [] a = none := rfl

@[simp] theorem Memory.read_cons (b : Nat) (w : Byte) (m : List Host.Cell) (a : Nat) :
    Memory.read ((b, w) :: m) a = if b = a then some w else Memory.read m a := rfl

@[simp] theorem Memory.read_write_same (m : List Host.Cell) (a : Nat) (v : Byte) :
    Memory.read (Memory.write m a v) a = some v := by
  induction m with
  | nil => simp [Memory.write]
  | cons c m ih =>
    obtain ⟨b, w⟩ := c
    rw [Memory.write]
    split
    · simp
    · split
      · simp
      · rename_i hlt hne
        simp [ih, Ne.symm hne]

theorem Memory.read_write_other (m : List Host.Cell) {a b : Nat} (v : Byte) (h : b ≠ a) :
    Memory.read (Memory.write m a v) b = Memory.read m b := by
  induction m with
  | nil => simp [Memory.write, Ne.symm h]
  | cons c m ih =>
    obtain ⟨d, w⟩ := c
    rw [Memory.write]
    split
    · simp [Ne.symm h]
    · split
      · rename_i heq
        subst heq
        simp [Ne.symm h]
      · simp [ih]

theorem Memory.mem_write {m : List Host.Cell} {a : Nat} {v : Byte} {c : Host.Cell}
    (h : c ∈ Memory.write m a v) : c = (a, v) ∨ c ∈ m := by
  induction m with
  | nil => exact .inl (by simpa [Memory.write] using h)
  | cons d m ih =>
    obtain ⟨b, w⟩ := d
    rw [Memory.write] at h
    split at h
    · simpa using h
    · split at h
      · rcases List.mem_cons.1 h with h | h
        · exact .inl h
        · exact .inr (List.mem_cons_of_mem _ h)
      · rcases List.mem_cons.1 h with h | h
        · exact .inr (by simp [h])
        · rcases ih h with h | h
          · exact .inl h
          · exact .inr (List.mem_cons_of_mem _ h)

/-- The canonical form is kept by the one operation that writes the memory. -/
theorem Memory.write_wf {m : List Host.Cell} {a : Nat} (v : Byte) (ha : a < 256) (h : Memory.wf m) :
    Memory.wf (Memory.write m a v) := by
  obtain ⟨hp, hb⟩ := h
  refine ⟨?_, fun c hc => ?_⟩
  · clear hb
    induction m with
    | nil => simp [Memory.write]
    | cons d m ih =>
      obtain ⟨b, w⟩ := d
      rw [List.pairwise_cons] at hp
      rw [Memory.write]
      split
      · rename_i hlt
        refine List.pairwise_cons.2 ⟨fun c hc => ?_, List.pairwise_cons.2 hp⟩
        rcases List.mem_cons.1 hc with rfl | hc
        · exact hlt
        · exact Nat.lt_trans hlt (hp.1 c hc)
      · split
        · rename_i heq
          subst heq
          exact List.pairwise_cons.2 hp
        · refine List.pairwise_cons.2 ⟨fun c hc => ?_, ih hp.2⟩
          rcases Memory.mem_write hc with rfl | hc
          · show b < a
            omega
          · exact hp.1 c hc
  · rcases Memory.mem_write hc with rfl | hc
    · exact ha
    · exact hb c hc

theorem Memory.wf_nil : Memory.wf [] := ⟨.nil, fun _ h => nomatch h⟩

/-- The built map's prefixes are in canonical form. -/
theorem Memory.wf_builtPrefix {n : Nat} (h : n ≤ 256) : Memory.wf (builtPrefix n) := by
  refine ⟨?_, fun c hc => ?_⟩
  · rw [builtPrefix, List.pairwise_map]
    exact List.pairwise_lt_range.imp (fun h => h)
  · obtain ⟨a, ha, rfl⟩ := List.mem_map.1 hc
    have := List.mem_range.1 ha
    simp only [builtCell]; omega

theorem Memory.wf_reset : Memory.wf State.reset.map := Memory.wf_nil

theorem Memory.read_append (m k : List Host.Cell) (a : Nat) :
    Memory.read (m ++ k) a = (Memory.read m a).or (Memory.read k a) := by
  induction m with
  | nil => simp
  | cons c m ih =>
    obtain ⟨b, w⟩ := c
    by_cases h : b = a <;> simp [h, ih]

theorem builtPrefix_succ (n : Nat) : builtPrefix (n + 1) = builtPrefix n ++ [builtCell n] := by
  simp [builtPrefix, List.range_succ]

/-- What a prefix of the built map holds. -/
theorem Memory.read_builtPrefix (n a : Nat) :
    Memory.read (builtPrefix n) a = if a < n then some (Q (BitVec.ofNat 8 a)) else none := by
  induction n with
  | zero => simp [builtPrefix]
  | succ n ih =>
    rw [builtPrefix_succ, Memory.read_append, ih]
    rcases Nat.lt_trichotomy a n with h | h | h
    · simp [h, Nat.lt_succ_of_lt h]
    · simp [h, builtCell]
    · simp [builtCell, Nat.not_lt_of_gt h, Nat.ne_of_lt h, show ¬ a < n + 1 by omega]

theorem Memory.write_above (m : List Host.Cell) (a : Nat) (v : Byte) (h : ∀ c ∈ m, c.1 < a) :
    Memory.write m a v = m ++ [(a, v)] := by
  induction m with
  | nil => rfl
  | cons c m ih =>
    obtain ⟨b, w⟩ := c
    have hb : b < a := h (b, w) (by simp)
    rw [Memory.write, if_neg (by omega), if_neg (by omega), ih fun d hd => h d (by simp [hd])]
    rfl

end Sys2Proof.Machine
end

