-- ==== Sys2Proof/Laws/PerInstr.lean ====
section
/-! SUPPORT. A fact about every operation as syntax: its selection carries exactly its own words, there are no longer forms
(spec/30_encoding.md R69). -/

/-- A word more than the operation carries is rejected under the operation's own name. -/
def Sys2Proof.Laws.ExactWords.Statement (i : Sys2Proof.Instr) : Prop :=
  ∀ (b : Sys2Proof.Byte) (w : List Sys2Proof.Byte),
    Sys2Proof.decode (Sys2Proof.encode i).1 ((Sys2Proof.encode i).2 ++ b :: w) = .error (.extraWord i.mnemonic)

theorem Sys2Proof.Laws.ExactWords.reset : Sys2Proof.Laws.ExactWords.Statement .reset := fun _ _ => rfl
theorem Sys2Proof.Laws.ExactWords.buildStep : Sys2Proof.Laws.ExactWords.Statement .buildStep := fun _ _ => rfl
theorem Sys2Proof.Laws.ExactWords.lookup (s : Sys2Proof.Byte) : Sys2Proof.Laws.ExactWords.Statement (.lookup s) :=
  fun _ _ => rfl
theorem Sys2Proof.Laws.ExactWords.emit : Sys2Proof.Laws.ExactWords.Statement .emit := fun _ _ => rfl
theorem Sys2Proof.Laws.ExactWords.modLoad : Sys2Proof.Laws.ExactWords.Statement .modLoad := fun _ _ => rfl
theorem Sys2Proof.Laws.ExactWords.modShift : Sys2Proof.Laws.ExactWords.Statement .modShift := fun _ _ => rfl
theorem Sys2Proof.Laws.ExactWords.modIdle : Sys2Proof.Laws.ExactWords.Statement .modIdle := fun _ _ => rfl
theorem Sys2Proof.Laws.ExactWords.build : Sys2Proof.Laws.ExactWords.Statement .build := fun _ _ => rfl
theorem Sys2Proof.Laws.ExactWords.quant (s : Sys2Proof.Byte) : Sys2Proof.Laws.ExactWords.Statement (.quant s) :=
  fun _ _ => rfl
theorem Sys2Proof.Laws.ExactWords.encode : Sys2Proof.Laws.ExactWords.Statement .encode := fun _ _ => rfl
end

