-- ==== Sys2Proof/Laws/Step.lean ====
section
/-! SUPPORT. What a step can do (spec/00_scope.md R12): run one operation, start again with a fresh stream, or take a turn of the
host or of the clock, which touches nothing of the block. -/

namespace Sys2Proof.Machine

/-- `t` differs from `s` at most in what the host drives and in the model's own fields: samples are only appended to `src`, and an
ENCODE under way is at most stopped. -/
structure HostTurn (s t : State) : Prop where
  frame : t = { s with
    src := t.src
    mReady := t.mReady
    rst := t.rst
    enc := t.enc
    hold := t.hold
    sched := t.sched
    free := t.free }
  src_prefix : s.src <+: t.src
  enc_same : t.enc = s.enc ∨ t.enc = .idle

/-- A turn that runs no operation and leaves `src` and the Encoder. -/
theorem HostTurn.plain {s t : State}
    (h : t = { s with mReady := t.mReady, rst := t.rst, hold := t.hold, sched := t.sched, free := t.free }) : HostTurn s t where
  frame := by rw [h]
  src_prefix := by rw [h]
  enc_same := by rw [h]; exact .inl rfl

/-- The three things a step can be. -/
theorem step_next {s t : State} (hr : step s = .next t) :
    (∃ i rest, fetch s = .run i (s.advance rest) ∧ exec i (s.advance rest) = .next t) ∨
    (∃ rest l io, fetch s = .run .reset (s.afresh l io |>.advance rest) ∧ t = (s.afresh l io |>.advance rest).toReset) ∨
    (HostTurn s t ∧ ((∃ x rest, s.sched = .feed x :: rest) ∨ t.src = s.src)) := by
  rw [step] at hr
  cases hs : s.sched with
  | nil =>
    simp only [fetch, hs] at hr ⊢
    cases ha : autoOp s with
    | some i =>
      simp only [ha] at hr
      exact .inl ⟨i, [], rfl, hr⟩
    | none =>
      simp only [ha] at hr
      cases hr
      exact .inr (.inr ⟨.plain rfl, .inr rfl⟩)
  | cons turn rest =>
    cases turn with
    | op sel w =>
      simp only [fetch, hs] at hr ⊢
      cases hd : decode sel w with
      | ok i =>
        simp only [hd] at hr
        exact .inl ⟨i, rest, rfl, hr⟩
      | error e => simp only [hd] at hr; cases hr
    | feed x =>
      simp only [fetch, hs] at hr ⊢
      cases hr
      exact .inr (.inr ⟨⟨rfl, List.prefix_append _ _, .inl rfl⟩, .inl ⟨x, rest, rfl⟩⟩)
    | sink b => simp only [fetch, hs] at hr ⊢; cases hr; exact .inr (.inr ⟨.plain rfl, .inr rfl⟩)
    | rst b => simp only [fetch, hs] at hr ⊢; cases hr; exact .inr (.inr ⟨.plain rfl, .inr rfl⟩)
    | stop =>
      simp only [fetch, hs] at hr ⊢
      cases hr
      exact .inr (.inr ⟨⟨rfl, List.prefix_refl _, .inr rfl⟩, .inr rfl⟩)
    | again l io => simp only [fetch, hs] at hr ⊢; cases hr; exact .inr (.inl ⟨rest, l, io, rfl, rfl⟩)
    | tick => simp only [fetch, hs] at hr ⊢; cases hr; exact .inr (.inr ⟨.plain rfl, .inr rfl⟩)
    | edge e =>
      simp only [fetch, hs] at hr ⊢
      cases hr
      exact .inr (.inr ⟨.plain rfl, .inr rfl⟩)

/-- What every operation keeps, what a fresh start keeps and what no turn of the host touches, every step keeps. -/
theorem step_keeps {P : State → Prop} (hx : ∀ i s t, P s → exec i s = .next t → P t)
    (ha : ∀ (s : State) rest, P s → P (s.advance rest)) (hf : ∀ (s : State) l io rest, P s → P (s.afresh l io |>.advance rest).toReset)
    (hh : ∀ s t, P s → HostTurn s t → P t) {s t : State} (hs : P s) (hr : step s = .next t) : P t := by
  rcases step_next hr with ⟨i, rest, -, h⟩ | ⟨rest, l, io, -, rfl⟩ | ⟨h, -⟩
  · exact hx i _ _ (ha s rest hs) h
  · exact hf s l io rest hs
  · exact hh _ _ hs h

end Sys2Proof.Machine
end

