-- ==== Sys2Proof/Laws/Text.lean ====
section
/-! SUPPORT. The chunks of a stream taken one at a time (spec/42_host_encoder.md R102). -/

namespace Sys2Proof.Machine

@[simp] theorem literal_length (y : Byte) : (literal y).length = 5 := rfl

theorem chunks_nil : chunks [] = [] := rfl

/-- The bound on the number of chunks does not matter where it is large enough. -/
theorem chunksUpTo_enough : ∀ (n : Nat) (l : List Byte), l.length ≤ n → chunksUpTo n l = chunks l := by
  have agree : ∀ (n m : Nat) (l : List Byte), l.length ≤ n → l.length ≤ m → chunksUpTo n l = chunksUpTo m l := by
    intro n
    induction n with
    | zero =>
      intro m l h _
      have hl := List.length_eq_zero_iff.1 (Nat.le_zero.1 h)
      subst hl
      cases m <;> rfl
    | succ n ih =>
      intro m l h hm
      cases l with
      | nil => cases m <;> rfl
      | cons y ys =>
        cases m with
        | zero => simp at hm
        | succ m =>
          rw [chunksUpTo, chunksUpTo, ih m]
          · simp [chunkSize] at h ⊢; omega
          · simp [chunkSize] at hm ⊢; omega
  exact fun n l h => agree _ _ _ h (Nat.le_refl _)

/-- The first chunk, and the chunks of what is left. -/
theorem chunks_of_ne_nil {l : List Byte} (h : l ≠ []) :
    chunks l = l.take chunkSize :: chunks (l.drop chunkSize) := by
  cases l with
  | nil => exact absurd rfl h
  | cons y ys =>
    show chunksUpTo (ys.length + 1) (y :: ys) = _
    rw [chunksUpTo, chunksUpTo_enough]
    simp [chunkSize]

end Sys2Proof.Machine
end

