-- ==== Sys2Proof/Tests/Slice0.lean ====
section
/-! SUPPORT. Tests: expected results are the spec's worked examples and vectors (the citation stands at each), and a witness for
the hypotheses of each statement. -/

namespace Sys2Proof.Tests

open Sys2Proof Sys2Proof.Machine

/-! ### Small states -/

/-- Parameters with a ready map and a queue of two. -/
def readyCfg : Config := { Config.default with prebuilt := true, oqDepth := 2 }

/-- The same with the serialiser. -/
def modCfg : Config := { readyCfg with hasMod := true }

/-- A ready block whose sink accepts, with the given queue and samples. -/
def readyWith (c : Config) (oq src : List Byte) : State :=
  { State.resetWith c with oq := oq, src := src, mReady := true }

/-- A block in the middle of BUILD. -/
def buildingAt (b : BuildIndex) (src : List Byte) : State := { State.reset with bidx := b, src := src, mReady := true }

/-- What `f` reads of the next state, where there is one. -/
def nextView {α : Type} (r : Result) (f : State → α) : Option α :=
  match r with
  | .next t => some (f t)
  | .fault _ => none
  | .refused _ => none

theorem readyWith_inv (c : Config) (oq src : List Byte) (hc : c.WF) (hp : c.prebuilt = true) (ho : oq.length ≤ c.oqDepth)
    (hs : SymbolsOnly oq) : BlockInv (readyWith c oq src) where
  depth := hc
  bidx_le := by simp [readyWith, State.resetWith, hp, bidxDone]
  ready_iff := by simp [readyWith, State.resetWith, hp, bidxDone]
  prebuilt_ready h := h
  map_wf := by
    simp only [readyWith, State.resetWith, State.toReset_map, hp, if_true]
    exact Memory.wf_builtPrefix (Nat.le_refl _)
  map_built a _ := by
    simp only [State.mapRead, readyWith, State.resetWith, State.toReset_map, hp, if_true, builtMap]
    rw [Memory.read_builtPrefix, if_pos a.isLt]
    simp
  map_unbuilt a h := by
    have := a.isLt
    simp [readyWith, State.resetWith, hp, bidxDone] at h
    omega
  oq_le := ho
  oq_symbols := hs
  oq_empty h := by simp [readyWith, State.resetWith, hp] at h
  snk_symbols := by intro y hy; simp [readyWith, State.resetWith, State.reset] at hy
  fcnt_le := by simp [readyWith, State.resetWith]
  fr_high i _ h := by
    simp only [readyWith, State.resetWith, State.toReset_fr]
    interval_cases i <;> rfl
  mod_absent _ := ⟨rfl, rfl, rfl, rfl⟩

theorem reset_inv : BlockInv State.reset where
  depth := by decide
  bidx_le := by decide
  ready_iff := by decide
  prebuilt_ready := by decide
  map_wf := Memory.wf_reset
  map_built a h := absurd h (Nat.not_lt_zero _)
  map_unbuilt _ _ := rfl
  oq_le := by decide
  oq_symbols := by intro y hy; cases hy
  oq_empty _ := rfl
  snk_symbols := by intro y hy; cases hy
  fcnt_le := by decide
  fr_high i _ h := by interval_cases i <;> rfl
  mod_absent _ := ⟨rfl, rfl, rfl, rfl⟩

/-- Left to itself with anything but a RESET to do, the block takes a step of a run. -/
theorem quiet_of_auto {s : State} {i : Instr} (hs : s.sched = []) (hi : autoOp s = some i) (hne : i ≠ .reset) : quiet s := by
  simp only [quiet, hs, fetch, hi]
  intro t h
  cases h
  exact hne rfl

theorem symbols_f0 : SymbolsOnly [0xF0] := by
  intro y hy
  simp only [List.mem_singleton] at hy
  subst hy
  decide

theorem ready_idle_inv : BlockInv (readyWith readyCfg [] [0x80]) :=
  readyWith_inv _ _ _ (by decide) rfl (by decide) (by intro y hy; cases hy)

theorem ready_queued_inv : BlockInv (readyWith readyCfg [0xF0] [0x80]) :=
  readyWith_inv _ _ _ (by decide) rfl (by decide) symbols_f0

/-- The same block with the serialiser. -/
theorem mod_queued_inv : BlockInv (readyWith modCfg [0xF0] [0x80]) :=
  readyWith_inv _ _ _ (by decide) rfl (by decide) symbols_f0

/-- The block with a held ENCODE: one symbol of its stream waits in the queue, one sample in the source. -/
def encodingWith (c : Config) : State := { readyWith c [0xF0] [0x80] with enc := .filling 0 0 }

/-- The block whose source cannot be read any more; a sample is left. -/
def unreadable : State := { readyWith readyCfg [0xF0] [0x80] with io := { readable := some 0, writable := none, kept := 0 } }

/-- The block whose sink could not be written to, after ENCODE has said so. -/
def unwritable : State :=
  { readyWith readyCfg [0xF0] [0x80] with
    io := { readable := none, writable := some 0, kept := 0 }, ioErr := some .sinkUnwritable }

theorem encodingWith_inv (c : Config) (h : BlockInv (readyWith c [0xF0] [0x80])) : BlockInv (encodingWith c) := { h with }
/-! ### Well-formedness: an ill-formed term for each check -/

theorem test_wf_depth : ¬ Config.WF { Config.default with oqDepth := 0 } := by decide
theorem test_wf_buildStep : Instr.present readyCfg .buildStep = false := by decide
theorem test_wf_build : Instr.present readyCfg .build = false := by decide
theorem test_wf_modLoad : Instr.present Config.default .modLoad = false := by decide
theorem test_wf_modShift : Instr.present Config.default .modShift = false := by decide
theorem test_wf_modIdle : Instr.present Config.default .modIdle = false := by decide
theorem test_wf_default : Config.default.WF ∧ Instr.present Config.default .buildStep = true := by decide

/-! ### Decoding, from the table of 30_encoding.md R60 and the formats R61, R62 -/

theorem test_decode_reset : decode .resetEdge [] = .ok .reset := by decide
theorem test_decode_buildStep : decode .builder [] = .ok .buildStep := by decide
theorem test_decode_lookup : decode .inputChannel [0b10000000] = .ok (.lookup 128) := by decide
theorem test_decode_lookup_top : decode .inputChannel [0b11111111] = .ok (.lookup 255) := by decide
theorem test_decode_emit : decode .outputChannel [] = .ok .emit := by decide
theorem test_decode_modLoad : decode .modTake [] = .ok .modLoad := by decide
theorem test_decode_modShift : decode .slotOfFrame [] = .ok .modShift := by decide
theorem test_decode_modIdle : decode .slotIdle [] = .ok .modIdle := by decide
theorem test_decode_build : decode .traceBuild [] = .ok .build := by decide
theorem test_decode_quant : decode .traceQuant [0b00011101] = .ok (.quant 29) := by decide
theorem test_decode_encode : decode .traceEncode [] = .ok .encode := by decide
theorem test_decode_missing : decode .inputChannel [] = .error (.missingWord "LOOKUP") := by decide
theorem test_decode_extra : decode .builder [0] = .error (.extraWord "BUILD_STEP") := by decide
/-- 30_encoding.md R68: any word on `s_data` at a transfer is LOOKUP of that word. -/
theorem test_decodeTableWord : decodeTableWord 8 0 = some (.lookup 0) ∧ decodeTableWord 0 0 = none := by decide

/-- The word the host places is run by the very next step, and is not held (log entry 15). -/
theorem test_withFetchWord :
    nextView (step (State.reset.withFetchWord 8 0x1D)) (fun t => (t.oq, t.hold)) = some ([0x80], none) := by decide

/-! ### The tables (95_test_vectors.md S1 to S5) -/

theorem test_idx_edges : (idx 28, idx 29, idx 255) = (0, 1, 8) := by decide
theorem test_q_points : (Q 0, Q 128, Q 255) = (0x00, 0xF0, 0xFF) := by decide
theorem test_product : product 255 = 0x8F7 := by decide
theorem test_symRead_absent : symRead 9 = none ∧ symRead 8 = some 0xFF := by decide

/-! ### RESET (70_reset_and_hazards.md R150 worked example; 95_test_vectors.md 2.4) -/

theorem test_reset_drops_queue :
    nextView (exec .reset { State.reset with bidx := 256, ready := true, oq := [0xF0, 0xFF] })
      (fun t => (t.bidx, t.ready, t.oq)) = some (0, false, []) := by decide
theorem test_reset_prebuilt :
    nextView (exec .reset (readyWith readyCfg [0xF0] [])) (fun t => (t.bidx, t.ready, t.mapRead 128)) =
      some (256, true, some 0xF0) := by decide

/-! ### BUILD_STEP and BUILD (40_build.md R80; 95_test_vectors.md 2.2) -/

theorem test_buildStep_128 :
    nextView (exec .buildStep (buildingAt 128 [])) (fun t => (t.mapRead 128, t.bidx, t.ready)) =
      some (some 0xF0, 129, false) := by decide
theorem test_buildStep_last :
    nextView (exec .buildStep (buildingAt 255 [])) (fun t => (t.mapRead 255, t.bidx, t.ready)) =
      some (some 0xFF, 256, true) := by decide
/-- 95_test_vectors.md 2.2, row 256. -/
theorem test_build_not_enabled :
    nextView (exec .build { State.reset with bidx := 256, ready := true }) (fun t => (t.bidx, t.hold)) =
      some (256, some .alreadyBuilt) := by decide
theorem test_build_two_left :
    nextView (buildMany 2 (buildingAt 254 [])) (fun t => (t.bidx, t.ready, t.mapRead 254)) =
      some (256, true, some 0xFF) := by decide

/-! ### LOOKUP, EMIT, QUANT (41_lookup.md R91, R93; 95_test_vectors.md 2.3) -/

theorem test_lookup_128 :
    nextView (exec (.lookup 0x80) (readyWith readyCfg [] [0x80, 0x00])) (fun t => (t.oq, t.src)) =
      some ([0xF0], [0x00]) := by decide
/-- 95_test_vectors.md 2.3, row 1. -/
theorem test_lookup_not_ready :
    nextView (exec (.lookup 0x80) (buildingAt 17 [0x80])) (fun t => (t.hold, t.src)) =
      some (some .notReady, [0x80]) := by decide
/-- 41_lookup.md R93's worked example. -/
theorem test_emit :
    nextView (exec .emit { readyWith readyCfg [0xF0] [] with snk := [0x00] }) (fun t => (t.oq, t.snk)) =
      some ([], [0x00, 0xF0]) := by decide
/-- 95_test_vectors.md 2.3, row 4. -/
theorem test_emit_empty :
    nextView (exec .emit (readyWith readyCfg [] [])) (fun t => t.hold) = some (some .empty) := by decide
theorem test_quant :
    nextView (exec (.quant 0x1D) (readyWith readyCfg [] [0x1D])) (fun t => (t.oq, t.snk, t.src)) =
      some ([], [0x80], []) := by decide

/-! ### MOD (43_pwm_frame.md R121 to R123; 95_test_vectors.md 2.6) -/

theorem test_modLoad :
    nextView (exec .modLoad (readyWith modCfg [0xF0] [])) (fun t => (t.fr, t.fcnt, t.snk)) =
      some (0x3E0, 10, [0xF0]) := by decide
/-- 95_test_vectors.md 2.6, steps 1 and 6. -/
theorem test_modShift_first :
    nextView (exec .modShift { readyWith modCfg [] [] with fr := 0x3E0, fcnt := 10 })
      (fun t => (t.line, t.fr, t.fcnt)) = some (false, 0x3F0, 9) := by decide
theorem test_modShift_sixth :
    nextView (exec .modShift { readyWith modCfg [] [] with fr := 0x3FF, fcnt := 5 })
      (fun t => (t.line, t.fr, t.fcnt)) = some (true, 0x3FF, 4) := by decide
theorem test_modIdle :
    nextView (exec .modIdle { readyWith modCfg [] [] with line := false }) (fun t => (t.line, t.tx)) =
      some (true, [true]) := by decide
/-- 43_pwm_frame.md R118: least significant bit first. -/
theorem test_frame_80 : frame 0x80 = [false, false, false, false, false, false, false, false, true, true] := by decide

/-! ### ENCODE (95_test_vectors.md S9, P1, 2.5) -/

/-- P1's data line. -/
theorem test_dataLine : dataLine Config.default [0x00, 0xF0, 0xFF] = ascii "  0x00,0xf0,0xff,\n" := by decide
set_option maxRecDepth 4000 in
/-- The symbol of an earlier LOOKUP is delivered first and is not in the text (42_host_encoder.md R109; log entry 30). -/
theorem test_encode_one :
    nextView (exec .encode (readyWith readyCfg [0xF0] [29])) (fun t => (t.snk, (t.text.drop 81).take 8, t.enc)) =
      some ([0xF0, 0x80], ascii "  0x80,\n", .idle) := by decide
set_option maxRecDepth 4000 in
/-- 42_host_encoder.md R101, step 2, R108: the source fails at the read after the short last line, which is written. -/
theorem test_encode_last_read :
    nextView (exec .encode { readyWith readyCfg [] [0] with io := { readable := some 2, writable := none, kept := 200 } })
      (fun t => (t.text.drop 81, t.ioErr)) = some (ascii "  0x00,\n", some .sourceUnreadable) := by decide

/-! ### Clock edges (60_exceptions.md R136) -/

/-- R136 (c): a full queue gives EMIT then LOOKUP. -/
theorem test_edge_full :
    edgeOps (readyWith { readyCfg with oqDepth := 1 } [0xF0] [0x00])
      { rst := false, mReady := true, tick := false, sReadyWill := true, build := true } =
      [.emit, .lookup 0x00] := by decide
/-- R136 (a): RESET wins. -/
theorem test_edge_reset :
    edgeOps (readyWith readyCfg [0xF0] [0x00])
      { rst := true, mReady := true, tick := false, sReadyWill := true, build := true } = [.reset] := by
  decide

/-! ### Witnesses: hypotheses of the statements, met together -/

theorem witness_FloatEvaluationExact : 12 ≤ 24 ∧ 12 ≤ 53 := by decide
theorem witness_MapMonotone : (28 : Byte).toNat ≤ (29 : Byte).toNat ∧ (29 : Byte).toNat = (28 : Byte).toNat + 1 := by decide
theorem witness_PrintedMap : readyCfg.prebuilt = true := rfl
theorem witness_ResetEffect_held : { State.reset with rst := true }.rst = true ∧ State.reset.sched = [] := ⟨rfl, rfl⟩
theorem witness_ResetEffect_mod : (readyWith modCfg [] []).cfg.hasMod = true ∧ (readyWith modCfg [] []).cfg.prebuilt = true :=
  ⟨rfl, rfl⟩
theorem witness_ResetFrame : exec .reset State.reset = .next State.reset.toReset := rfl
theorem witness_BuildStepEffect :
    (buildingAt 255 []).cfg.prebuilt = false ∧ (buildingAt 255 []).rst = false ∧ (buildingAt 255 []).ready = false :=
  ⟨rfl, rfl, rfl⟩
theorem witness_BuildStepEffect_held : (readyWith readyCfg [] []).ready = true := rfl
theorem witness_BuildFillsMap :
    State.reset.cfg.prebuilt = false ∧ State.reset.rst = false ∧ State.reset.bidx = 0 ∧ State.reset.ready = false ∧
      State.reset.map = [] := ⟨rfl, rfl, rfl, rfl, rfl⟩
theorem witness_MapImmutableOnceReady :
    (readyWith readyCfg [] []).ready = true ∧ exec .build (readyWith readyCfg [] []) =
      .next ((readyWith readyCfg [] []).held .notPresent) := ⟨rfl, rfl⟩
theorem witness_LookupEffect :
    (readyWith readyCfg [0xF0] [0x80]).rst = false ∧ (readyWith readyCfg [0xF0] [0x80]).ready = true ∧
      (readyWith readyCfg [0xF0] [0x80]).oq.length < (readyWith readyCfg [0xF0] [0x80]).cfg.oqDepth ∧
      (readyWith readyCfg [0xF0] [0x80]).sValid = true ∧ (readyWith readyCfg [0xF0] [0x80]).src = 0x80 :: [] ∧
      (readyWith readyCfg [0xF0] [0x80]).mapRead 0x80 = some 0xF0 ∧ BlockInv (readyWith readyCfg [0xF0] [0x80]) :=
  ⟨rfl, rfl, by decide, rfl, rfl, by decide, ready_queued_inv⟩
/-- The fault of LOOKUP needs a state that no run reaches: `ready = 1` over an unbuilt map. -/
theorem witness_LookupEffect_fault :
    ∃ s : State, s.rst = false ∧ s.ready = true ∧ s.oq.length < s.cfg.oqDepth ∧ s.sValid = true ∧
      s.src = 0x80 :: [] ∧ s.mapRead 0x80 = none :=
  ⟨{ buildingAt 0 [0x80] with ready := true }, rfl, rfl, by decide, rfl, rfl, rfl⟩
theorem witness_LookupHolds_notReady : State.reset.rst = false ∧ State.reset.ready = false := ⟨rfl, rfl⟩
theorem witness_LookupHolds_full :
    (readyWith readyCfg [0xF0, 0xF0] [0x80]).ready = true ∧
      (readyWith readyCfg [0xF0, 0xF0] [0x80]).oq.length = (readyWith readyCfg [0xF0, 0xF0] [0x80]).cfg.oqDepth :=
  ⟨rfl, rfl⟩
theorem witness_LookupHolds_noSample :
    (readyWith readyCfg [] []).ready = true ∧ (readyWith readyCfg [] []).oq.length < (readyWith readyCfg [] []).cfg.oqDepth ∧
      (readyWith readyCfg [] []).sValid = false := ⟨rfl, by decide, rfl⟩
/-- 60_exceptions.md R131: a source that cannot be read, with a sample still in `src`. -/
theorem witness_LookupHolds_unreadable :
    unreadable.rst = false ∧ unreadable.ready = true ∧ unreadable.oq.length < unreadable.cfg.oqDepth ∧
      unreadable.sValid = false ∧ unreadable.src = [0x80] ∧
      exec (.lookup 0x80) unreadable = .next (unreadable.held .noSample) := ⟨rfl, rfl, by decide, rfl, rfl, rfl⟩
theorem witness_OnlyOfferedAccepted :
    lookupHold (readyWith readyCfg [] [0x80]) = none ∧ (readyWith readyCfg [] [0x80]).src = 0x80 :: [] ∧ (0x81 : Byte) ≠ 0x80 :=
  ⟨by decide, rfl, by decide⟩
theorem witness_EmitEffect :
    (readyWith readyCfg [0xF0] []).cfg.hasMod = false ∧ (readyWith readyCfg [0xF0] []).rst = false ∧
      (readyWith readyCfg [0xF0] []).oq = 0xF0 :: [] ∧ (readyWith readyCfg [0xF0] []).sinkAccepts = true :=
  ⟨rfl, rfl, rfl, rfl⟩
theorem witness_EmitEffect_empty :
    State.reset.cfg.hasMod = false ∧ State.reset.rst = false ∧ State.reset.oq = [] := ⟨rfl, rfl, rfl⟩
theorem witness_EmitEffect_stall :
    ∃ s : State, s.cfg.hasMod = false ∧ s.rst = false ∧ s.oq ≠ [] ∧ s.sinkAccepts = false :=
  ⟨{ readyWith readyCfg [0xF0] [] with mReady := false }, rfl, rfl, by decide, rfl⟩
/-- 60_exceptions.md R131: a sink that could not be written to, which is still willing. -/
theorem witness_EmitEffect_unwritable :
    unwritable.cfg.hasMod = false ∧ unwritable.rst = false ∧ unwritable.oq ≠ [] ∧ unwritable.mReady = true ∧
      unwritable.sinkAccepts = false ∧ exec .emit unwritable = .next (unwritable.held .sinkStall) :=
  ⟨rfl, rfl, by decide, rfl, rfl, rfl⟩
theorem witness_QuantEffect :
    BlockInv (readyWith readyCfg [0xF0] [0x80]) ∧ (readyWith readyCfg [0xF0] [0x80]).cfg.hasMod = false ∧
      (readyWith readyCfg [0xF0] [0x80]).rst = false ∧ (readyWith readyCfg [0xF0] [0x80]).ready = true ∧
      (readyWith readyCfg [0xF0] [0x80]).oq.length < (readyWith readyCfg [0xF0] [0x80]).cfg.oqDepth ∧
      (readyWith readyCfg [0xF0] [0x80]).sValid = true ∧ (readyWith readyCfg [0xF0] [0x80]).sinkAccepts = true :=
  ⟨ready_queued_inv, rfl, rfl, rfl, by decide, rfl, rfl⟩
theorem witness_QuantEffect_steps :
    ∃ t u : State, exec (.lookup 0x80) (readyWith modCfg [] [0x80]) = .next t ∧ t.hold = none ∧ exec .emit t = .next u :=
  ⟨{ readyWith modCfg [0xF0] [] with hold := none }, _, rfl, rfl, rfl⟩
theorem witness_QuantEffect_held : lookupHold State.reset = some .notReady := by decide
theorem witness_SinkStallKeepsQueue :
    BlockInv State.reset ∧ State.reset.cfg.hasMod = false ∧ State.reset.mReady = false ∧
      exec .emit State.reset = .next (State.reset.held .empty) := ⟨reset_inv, rfl, rfl, rfl⟩
theorem witness_SinkStallKeepsQueue_unwritable :
    BlockInv unwritable ∧ unwritable.cfg.hasMod = false ∧ unwritable.ioErr = some .sinkUnwritable ∧
      unwritable.io.writable = some 0 ∧ ∃ t, exec (.lookup 0x80) unwritable = .next t ∧ t.oq = [0xF0, 0xF0] :=
  ⟨{ ready_queued_inv with }, rfl, rfl, rfl, _, rfl, rfl⟩
theorem witness_PortOutputs :
    (readyWith readyCfg [0xF0] [0x80]).rst = false ∧ (readyWith readyCfg [0xF0] [0x80]).mValid = true ∧
      BlockInv (readyWith readyCfg [0xF0] [0x80]) ∧ quiet (readyWith readyCfg [0xF0] [0x80]) ∧
      (readyWith readyCfg [0xF0] [0x80]).sValid = true ∧ (readyWith readyCfg [0xF0] [0x80]).sData = some 0x80 ∧
      ∃ t, step (readyWith readyCfg [0xF0] [0x80]) = .next t :=
  ⟨rfl, rfl, ready_queued_inv, quiet_of_auto rfl (i := .emit) (by decide) (by decide), rfl, rfl, _, rfl⟩
/-- The read that a sample takes is counted. -/
theorem witness_PortOutputs_read :
    ∃ t, exec (.lookup 0x80) { readyWith readyCfg [] [0x80] with io := { readable := some 1, writable := none, kept := 0 } } =
      .next t ∧ t.hold = none ∧ t.io.readable = some 0 := ⟨_, rfl, rfl, rfl⟩
theorem witness_SimultaneousEvents_commute :
    BlockInv (readyWith readyCfg [0xF0] [0x80]) ∧ (readyWith readyCfg [0xF0] [0x80]).ready = true ∧
      (readyWith readyCfg [0xF0] [0x80]).rst = false ∧ (readyWith readyCfg [0xF0] [0x80]).mReadyPort = true ∧
      0 < (readyWith readyCfg [0xF0] [0x80]).oq.length ∧
      (readyWith readyCfg [0xF0] [0x80]).oq.length < (readyWith readyCfg [0xF0] [0x80]).cfg.oqDepth ∧
      (readyWith readyCfg [0xF0] [0x80]).sValid = true ∧ (readyWith readyCfg [0xF0] [0x80]).src = 0x80 :: [] :=
  ⟨ready_queued_inv, rfl, rfl, rfl, by decide, by decide, rfl, rfl⟩
/-- The same with the serialiser, at an edge with a slot tick. -/
theorem witness_SimultaneousEvents_mod :
    ∃ (s : State) (e : Edge), BlockInv s ∧ s.ready = true ∧ s.rst = false ∧ s.mReadyPort = true ∧ s.oq ≠ [] ∧
      s.sValid = true ∧ s.src = 0x80 :: [] ∧ e.rst = false ∧ e.sReadyWill = true ∧ s.cfg.hasMod = true ∧ e.tick = true :=
  ⟨readyWith modCfg [0xF0] [0x80], { rst := false, mReady := true, tick := true, sReadyWill := true, build := true },
    mod_queued_inv, rfl, rfl, rfl, by decide, rfl, rfl, rfl, rfl, rfl, rfl⟩
/-- A sink that does not accept, at an edge. -/
theorem witness_SimultaneousEvents_stall :
    ∃ (s : State) (e : Edge), BlockInv s ∧ s.ready = true ∧ s.rst = false ∧ s.mReadyPort = false ∧
      s.sValid = true ∧ s.src = 0x80 :: [] ∧ e.rst = false ∧ e.sReadyWill = true :=
  ⟨{ readyWith readyCfg [0xF0] [0x80] with mReady := false },
    { rst := false, mReady := false, tick := false, sReadyWill := true, build := true },
    { ready_queued_inv with }, rfl, rfl, rfl, rfl, rfl, rfl, rfl⟩
theorem witness_SimultaneousEvents_noOffer : unreadable.sValid = false := rfl
theorem witness_SimultaneousEvents_building : BlockInv State.reset ∧ State.reset.ready = false := ⟨reset_inv, rfl⟩
theorem witness_SimultaneousEvents_full :
    BlockInv (readyWith { readyCfg with oqDepth := 1 } [0xF0] [0x00]) ∧
      (readyWith { readyCfg with oqDepth := 1 } [0xF0] [0x00]).oq.length =
        (readyWith { readyCfg with oqDepth := 1 } [0xF0] [0x00]).cfg.oqDepth :=
  ⟨readyWith_inv _ _ _ (by decide) rfl (by decide) symbols_f0, rfl⟩
theorem witness_SimultaneousEvents_empty :
    ∃ (s : State) (e : Edge), s.ready = true ∧ s.oq = [] ∧ e.rst = false ∧ s.cfg.hasMod = true ∧ e.tick = true ∧
      edgeOps s e = [.modIdle, .lookup 0x00] :=
  ⟨readyWith modCfg [] [0x00], { rst := false, mReady := true, tick := true, sReadyWill := true, build := true },
    rfl, rfl, rfl, rfl, rfl, by decide⟩
theorem witness_SimultaneousEvents_tick :
    (readyWith modCfg [0xF0] []).cfg.hasMod = true ∧ (readyWith modCfg [0xF0] []).fcnt = 0#4 ∧
      (readyWith modCfg [0xF0] []).oq ≠ [] := ⟨rfl, rfl, by decide⟩
theorem witness_DutyCycle : symTable[8]? = some 0xFF ∧ symTable[0]? = some 0x00 := by decide
theorem witness_OnePulsePerFrame : SymbolsOnly [0xF0] := symbols_f0
theorem witness_ModLoadEffect :
    (readyWith modCfg [0xF0] []).cfg.hasMod = true ∧ (readyWith modCfg [0xF0] []).rst = false ∧
      (readyWith modCfg [0xF0] []).fcnt = 0#4 ∧ (readyWith modCfg [0xF0] []).oq = 0xF0 :: [] := ⟨rfl, rfl, rfl, rfl⟩
theorem witness_ModLoadEffect_empty :
    (readyWith modCfg [] []).cfg.hasMod = true ∧ (readyWith modCfg [] []).rst = false ∧ (readyWith modCfg [] []).fcnt = 0#4 ∧
      (readyWith modCfg [] []).oq = [] := ⟨rfl, rfl, rfl, rfl⟩
theorem witness_ModLoadEffect_busy :
    ∃ s : State, s.cfg.hasMod = true ∧ s.rst = false ∧ s.fcnt ≠ 0#4 :=
  ⟨{ readyWith modCfg [0xF0] [] with fcnt := 10 }, rfl, rfl, by decide⟩
theorem witness_ModLoadEffect_inReset : ∃ s : State, s.cfg.hasMod = true ∧ s.rst = true :=
  ⟨{ readyWith modCfg [0xF0] [] with rst := true }, rfl, rfl⟩
theorem witness_ModShiftEffect :
    ∃ s : State, s.cfg.hasMod = true ∧ s.rst = false ∧ s.fcnt ≠ 0#4 :=
  ⟨{ readyWith modCfg [] [] with fcnt := 1 }, rfl, rfl, by decide⟩
theorem witness_ModIdleEffect_waits : (readyWith modCfg [0xF0] []).cfg.hasMod = true ∧ (readyWith modCfg [0xF0] []).fcnt = 0#4 ∧
    (readyWith modCfg [0xF0] []).oq ≠ [] := ⟨rfl, rfl, by decide⟩
theorem witness_ModIdleEffect : (readyWith modCfg [] []).cfg.hasMod = true ∧ (readyWith modCfg [] []).fcnt = 0#4 ∧
    (readyWith modCfg [] []).oq = [] := ⟨rfl, rfl, rfl⟩
theorem witness_WholeTextLength : Config.default.eol = [0x0A] ∧ Config.default.finalEol = true := ⟨rfl, rfl⟩
theorem witness_ChunkShape : (chunks [0x00])[0]? = some [0x00] := by decide
/-- A symbol of an earlier LOOKUP waits in the queue. -/
theorem witness_EncodeWritesText :
    EncodeReady (readyWith readyCfg [0xF0] [0x80]) ∧ (readyWith readyCfg [0xF0] [0x80]).enc = .idle ∧
      (readyWith readyCfg [0xF0] [0x80]).src ≠ [] :=
  ⟨⟨ready_queued_inv, rfl, rfl, rfl, rfl, rfl, rfl⟩, rfl, by decide⟩
/-- The symbol of an accepted sample waits in the queue, and a sample in the source. -/
theorem witness_EncodeGoesOn :
    EncodeReady (encodingWith readyCfg) ∧ (encodingWith readyCfg).ioErr ≠ some .sinkUnwritable ∧
      (encodingWith readyCfg).enc = .filling 0 0 ∧
      0 ≤ (encodingWith readyCfg).snk.length + (encodingWith readyCfg).oq.length ∧ (encodingWith readyCfg).src ≠ [] :=
  ⟨⟨encodingWith_inv _ ready_queued_inv, rfl, rfl, rfl, rfl, rfl, rfl⟩, by decide, rfl, Nat.zero_le _, by decide⟩
/-- Nothing is left of the stream; the one symbol that waits is older. -/
theorem witness_EncodeGoesOn_end :
    ∃ s : State, EncodeReady s ∧ s.enc = .filling 1 1 ∧ 1 = s.snk.length + s.oq.length ∧ s.src = [] :=
  ⟨{ readyWith readyCfg [0xF0] [] with enc := .filling 1 1 },
    ⟨{ ready_queued_inv with }, rfl, rfl, rfl, rfl, rfl, rfl⟩, rfl, rfl, rfl⟩
theorem witness_EncodeGoesOn_mod :
    BlockInv (encodingWith modCfg) ∧ (encodingWith modCfg).ready = true ∧ (encodingWith modCfg).rst = false ∧
      (encodingWith modCfg).cfg.hasMod = true ∧ (encodingWith modCfg).fcnt = 0#4 ∧ (encodingWith modCfg).enc = .filling 0 0 ∧
      0 ≤ (encodingWith modCfg).snk.length ∧ (encodingWith modCfg).oq = [0xF0] ∧
      (encodingWith modCfg).snk.length + 1 < 0 + chunkSize ∧ (encodingWith modCfg).io.readable = none ∧
      (encodingWith modCfg).src = 0x80 :: [] :=
  ⟨encodingWith_inv _ mod_queued_inv, rfl, rfl, rfl, rfl, rfl, Nat.zero_le _, rfl, by decide, rfl, rfl⟩
theorem witness_EncodeGoesOn_modEnd :
    ∃ s : State, BlockInv s ∧ s.rst = false ∧ s.cfg.hasMod = true ∧ s.fcnt = 0#4 ∧ s.enc = .filling 0 0 ∧
      0 ≤ s.snk.length ∧ s.oq = [0xF0] ∧ s.snk.length + 1 < 0 + chunkSize ∧ s.io.readable = none ∧ s.io.writable = none ∧
      s.src = [] :=
  ⟨{ encodingWith modCfg with src := [] }, { encodingWith_inv _ mod_queued_inv with },
    rfl, rfl, rfl, rfl, Nat.zero_le _, rfl, by decide, rfl, rfl, rfl⟩
/-- An ENCODE held by a sink that does not accept, the sink's turn, and the same ENCODE again. -/
theorem witness_EncodeGoesOn_overRun :
    ∃ s t u v : State, BlockInv s ∧ s.enc = .idle ∧ exec .encode s = .next t ∧ t.enc = .filling 0 0 ∧ Run t u ∧
      u.enc = .filling 0 0 ∧ exec .encode u = .next v ∧ v.enc = .idle ∧ v.ioErr = none :=
  ⟨{ readyWith readyCfg [] [0x80] with mReady := false, sched := [.sink true] }, _, _, _, { ready_idle_inv with }, rfl, rfl, rfl,
    .step (.refl _) (by
      intro t h
      cases h) rfl, rfl, rfl, by decide, by decide⟩
theorem witness_EncodeEmptyStream :
    State.reset.enc = .idle ∧ State.reset.src = [] ∧ State.reset.io.readable = none ∧ State.reset.io.writable = none :=
  ⟨rfl, rfl, rfl, rfl⟩
theorem witness_EncodeFailureLeavesPrefix :
    ∃ (s t : State) (e : IoError), BlockInv s ∧ EncodeLaw s ∧ exec .encode s = .next t ∧ t.ioErr = some e :=
  ⟨{ State.reset with io := { readable := some 0, writable := none, kept := 5 } }, _, .sourceUnreadable,
    { reset_inv with }, (by intro _ _ h; cases h), rfl, rfl⟩
theorem witness_EncodeFailureLeavesPrefix_sink :
    ∃ (s t : State), BlockInv s ∧ EncodeLaw s ∧ exec .encode s = .next t ∧ t.ioErr = some .sinkUnwritable ∧
      t.cfg.hasMod = false :=
  ⟨{ State.reset with io := { readable := none, writable := some 5, kept := 5 } }, _,
    { reset_inv with }, (by intro _ _ h; cases h), rfl, rfl, rfl⟩
theorem witness_EncodeFailureLeavesPrefix_surfaced :
    ∃ s : State, BlockInv s ∧ s.ready = true ∧ s.rst = false ∧ s.mReady = true ∧ s.cfg.hasMod = false ∧ s.enc = .idle ∧
      ∃ r, s.io.readable = some r ∧ r < encodeReads s.src.length :=
  ⟨{ readyWith readyCfg [0xF0] [0x80] with io := { readable := some 2, writable := none, kept := 5 } },
    { ready_queued_inv with }, rfl, rfl, rfl, rfl, rfl, 2, rfl, by decide⟩
theorem witness_EncodeUnwritable :
    ∃ s : State, s.enc = .idle ∧ s.io.writable = some 0 :=
  ⟨{ State.reset with io := { readable := none, writable := some 0, kept := 0 } }, rfl, rfl⟩
theorem witness_EncodeUnwritable_line :
    ∃ (s : State) (m : Nat), s.enc = .filling 0 0 ∧ 0 + chunkSize ≤ s.snk.length ∧ s.io.writable = some m ∧
      m < 2 + 5 * chunkSize + s.cfg.eol.length :=
  ⟨{ encodingWith modCfg with
      snk := List.replicate 32 0xF0, io := { readable := none, writable := some 162, kept := 0 } }, 162,
    rfl, by decide, rfl, by decide⟩
theorem witness_EncodeUnreadable :
    ∃ s : State, s.enc = .idle ∧ s.io.writable = none ∧ s.io.readable = some 0 :=
  ⟨{ State.reset with io := { readable := some 0, writable := none, kept := 0 } }, rfl, rfl, rfl⟩
theorem witness_EncodeUnreadable_goesOn :
    ∃ s : State, s.enc = .filling 0 0 ∧ s.snk.length < 0 + chunkSize ∧ s.oq = [] ∧ s.io.readable = some 0 :=
  ⟨{ encodingWith modCfg with oq := [], io := { readable := some 0, writable := none, kept := 0 } },
    rfl, by decide, rfl, rfl⟩
/-- An ENCODE that goes on: one sample is left, and two reads are answered of the three that it needs. -/
theorem witness_EncodeFailureLeavesPrefix_goesOn :
    ∃ s : State, BlockInv s ∧ s.ready = true ∧ s.rst = false ∧ s.mReady = true ∧ s.cfg.hasMod = false ∧
      s.enc = .filling 0 0 ∧ s.ioErr = none ∧ 0 ≤ s.snk.length + s.oq.length ∧ s.io.readable = some 2 ∧
      2 < s.src.length + (if ((s.snk ++ s.oq).drop 0 ++ s.src.map Q).length % chunkSize = 0 then 1 else 2) :=
  ⟨{ encodingWith readyCfg with io := { readable := some 2, writable := none, kept := 5 } },
    { encodingWith_inv _ ready_queued_inv with }, rfl, rfl, rfl, rfl, rfl, rfl, Nat.zero_le _, rfl, by decide⟩
theorem witness_EncodeWaits_notReady :
    ∃ s : State, BlockInv s ∧ s.enc = .idle ∧ s.io.readable = none ∧ s.io.writable = none ∧ s.rst = false ∧
      s.ready = false ∧ s.src ≠ [] :=
  ⟨{ State.reset with src := [0x80] }, { reset_inv with }, rfl, rfl, rfl, rfl, rfl, by decide⟩
theorem witness_EncodeWaits_stall :
    ∃ s : State, s.rst = false ∧ s.enc = .filling 0 0 ∧ s.oq ≠ [] ∧ s.snk.length < 0 + chunkSize ∧
      0 < s.snk.length + s.oq.length ∧ s.cfg.hasMod = false ∧ s.sinkAccepts = false :=
  ⟨{ encodingWith readyCfg with mReady := false }, rfl, rfl, by decide, by decide, by decide, rfl, rfl⟩
theorem witness_EncodeWaits_busy :
    ∃ s : State, s.rst = false ∧ s.enc = .filling 0 0 ∧ s.oq ≠ [] ∧ s.snk.length < 0 + chunkSize ∧
      0 < s.snk.length + s.oq.length ∧ s.cfg.hasMod = true ∧ s.fcnt ≠ 0#4 :=
  ⟨{ encodingWith modCfg with fcnt := 3 }, rfl, rfl, by decide, by decide, by decide, rfl, by decide⟩
theorem witness_EncodeWaits_mod :
    BlockInv (readyWith modCfg [] [0x00, 0xFF]) ∧ (readyWith modCfg [] [0x00, 0xFF]).ready = true ∧
      (readyWith modCfg [] [0x00, 0xFF]).rst = false ∧ (readyWith modCfg [] [0x00, 0xFF]).cfg.hasMod = true ∧
      (readyWith modCfg [] [0x00, 0xFF]).fcnt = 0#4 ∧ (readyWith modCfg [] [0x00, 0xFF]).oq = [] ∧
      (readyWith modCfg [] [0x00, 0xFF]).enc = .idle ∧ (readyWith modCfg [] [0x00, 0xFF]).io.readable = none ∧
      (readyWith modCfg [] [0x00, 0xFF]).io.writable = none ∧ (readyWith modCfg [] [0x00, 0xFF]).src = 0x00 :: 0xFF :: [] :=
  ⟨readyWith_inv _ _ _ (by decide) rfl (by decide) (by intro y hy; cases hy), rfl, rfl, rfl, rfl, rfl, rfl, rfl, rfl, rfl⟩
theorem witness_InvAtReset : Config.default.WF := by decide
theorem witness_InvKeptByStep : ∃ t : State, BlockInv State.reset ∧ step State.reset = .next t := ⟨_, reset_inv, rfl⟩
theorem witness_NoFaultNoRefusal : BlockInv State.reset := reset_inv
/-- An ENCODE under way, in the middle of its step. -/
theorem witness_EncodeLawKeptByStep :
    ∃ t : State, BlockInv (encodingWith readyCfg) ∧
      EncodeLaw { encodingWith readyCfg with text := preamble readyCfg } ∧ (encodingWith readyCfg).enc = .filling 0 0 ∧
      step { encodingWith readyCfg with text := preamble readyCfg } = .next t := by
  refine ⟨_, encodingWith_inv _ ready_queued_inv, ?_, rfl, rfl⟩
  intro base pos h
  cases h
  exact ⟨rfl, Nat.le_refl _, by decide, .inl rfl, ⟨0, rfl⟩, rfl⟩
theorem witness_StreamLaw :
    ∃ t : State, BlockInv (readyWith readyCfg [] [0x80]) ∧ exec (.lookup 0x80) (readyWith readyCfg [] [0x80]) = .next t :=
  ⟨_, ready_idle_inv, rfl⟩
theorem witness_EncodeLawKeptByStep_end :
    ∃ t : State, (encodingWith readyCfg).enc = .filling 0 0 ∧
      exec .encode { encodingWith readyCfg with text := preamble readyCfg } = .next t ∧ t.enc = .idle ∧ t.ioErr = none :=
  ⟨_, rfl, rfl, by decide, by decide⟩
/-- A run of two steps, LOOKUP and EMIT, that is finished. -/
theorem witness_FinishedRunDelivers :
    ∃ t : State, BlockInv (readyWith readyCfg [] [0x80]) ∧ Run (readyWith readyCfg [] [0x80]) t ∧ Finished t ∧
      (readyWith readyCfg [] [0x80]).oq = [] := by
  refine ⟨_, ready_idle_inv,
    .step (t := (readyWith readyCfg [] [0x80]).advance [] |>.accepted 0xF0)
      (.step (.refl _) (quiet_of_auto rfl (i := .lookup 0x80) (by decide) (by decide)) rfl)
      (quiet_of_auto rfl (i := .emit) (by decide) (by decide)) rfl, ⟨rfl, rfl, ?_⟩, rfl⟩
  intro _; rfl
theorem witness_DeliveriesTrailAcceptances :
    ∃ t : State, BlockInv (readyWith readyCfg [] [0x80]) ∧ (readyWith readyCfg [] [0x80]).oq = [] ∧
      Run (readyWith readyCfg [] [0x80]) t ∧ t.oq = [0xF0] :=
  ⟨(readyWith readyCfg [] [0x80]).advance [] |>.accepted 0xF0, ready_idle_inv, rfl,
    .step (.refl _) (quiet_of_auto rfl (i := .lookup 0x80) (by decide) (by decide)) rfl, rfl⟩
/-- A RESET in mid-stream: the queued symbol is lost, the waiting sample is not. -/
theorem witness_ResetLosesQueueOnly :
    ∃ t u : State, BlockInv (readyWith readyCfg [0xF0] [0x80]) ∧ exec .reset (readyWith readyCfg [0xF0] [0x80]) = .next t ∧
      Run t u ∧ Finished u ∧ u.snk = [0xF0] ∧ (readyWith readyCfg [0xF0] [0x80]).oq = [0xF0] := by
  refine ⟨readyWith readyCfg [] [0x80], _, ready_queued_inv, rfl,
    .step (t := (readyWith readyCfg [] [0x80]).advance [] |>.accepted 0xF0)
      (.step (.refl _) (quiet_of_auto rfl (i := .lookup 0x80) (by decide) (by decide)) rfl)
      (quiet_of_auto rfl (i := .emit) (by decide) (by decide)) rfl, ⟨rfl, rfl, fun _ => rfl⟩, rfl, rfl⟩
theorem witness_LineLawKeptByStep : ∃ t : State, LineLaw State.reset ∧ step State.reset = .next t :=
  ⟨_, ⟨[], by decide, fun _ => ⟨[], rfl, .nil⟩, fun _ => ⟨rfl, rfl⟩⟩, rfl⟩
/-- The frame of 0x80 is in MOD, nothing of it driven; the line began after a symbol of an earlier line. -/
theorem witness_LineLawKeptByStep_frame :
    ∃ s t : State, s.cfg.hasMod = true ∧ s.snk = [0xFF, 0x80] ∧ s.fcnt = 10#4 ∧ LineLawFrom [0xFF] s ∧
      (∀ u, fetch s ≠ .run .reset u) ∧ step s = .next t :=
  ⟨{ readyWith modCfg [] [] with snk := [0xFF, 0x80], fr := 0x300, fcnt := 10 }, _, rfl, rfl, rfl,
    ⟨by decide, fun _ => ⟨[0x80], rfl, LineOf.frame (ys := []) 0x80 .nil⟩, fun h => nomatch h⟩,
    (by intro u h; cases h), rfl⟩
theorem witness_LineLawKeptByStep_reset :
    ∃ s t u : State, fetch s = .run .reset u ∧ step s = .next t ∧ s.snk = [0xFF] :=
  ⟨{ readyWith modCfg [0xF0] [] with snk := [0xFF], rst := true }, _, _, rfl, rfl, rfl⟩
theorem witness_BuilderFinishes :
    BlockInv State.reset ∧ State.reset.sched = [] ∧ State.reset.rst = false ∧ State.reset.ready = false :=
  ⟨reset_inv, rfl, rfl, rfl⟩
theorem witness_FreeRunFinishes :
    BlockInv (readyWith readyCfg [0xF0] [0x80]) ∧ FreeRunning (readyWith readyCfg [0xF0] [0x80]) ∧
      (readyWith readyCfg [0xF0] [0x80]).ready = true ∧ (readyWith readyCfg [0xF0] [0x80]).cfg.hasMod = false :=
  ⟨ready_queued_inv, ⟨rfl, rfl, fun _ => rfl, fun _ h => nomatch h⟩, rfl, rfl⟩
theorem witness_FreeRunFinishes_mod :
    BlockInv (readyWith modCfg [0xF0] [0x80]) ∧ FreeRunning (readyWith modCfg [0xF0] [0x80]) ∧
      (readyWith modCfg [0xF0] [0x80]).ready = true ∧ (readyWith modCfg [0xF0] [0x80]).cfg.hasMod = true :=
  ⟨mod_queued_inv, ⟨rfl, rfl, fun _ => rfl, fun _ h => nomatch h⟩, rfl, rfl⟩
theorem witness_WritersOfState : ∃ t : State, exec .modShift { readyWith modCfg [] [] with fcnt := 1 } = .next t := ⟨_, rfl⟩
theorem witness_HeldStepChangesNothing :
    exec .emit State.reset = .next (State.reset.held .empty) ∧ (State.reset.held .empty).hold = some .empty := ⟨rfl, rfl⟩
theorem witness_AbsentOperationHeld :
    Instr.present State.reset.cfg .modShift = false ∧ Instr.present (readyWith readyCfg [] []).cfg .build = false := by decide
theorem witness_StepRunsSelected :
    decode .inputChannel [0x80] = .ok (.lookup 0x80) ∧ State.reset.sched = [] ∧ autoOp State.reset = some .buildStep := by
  decide
theorem witness_StepRunsSelected_edge :
    ∃ (s : State) (e : Edge), s.sched = .edge e :: [] :=
  let e : Edge := { rst := true, mReady := true, tick := false, sReadyWill := true, build := true }
  ⟨{ State.reset with sched := [.edge e] }, e, rfl⟩
theorem witness_StepRunsSelected_wait :
    (readyWith readyCfg [] []).sched = [] ∧ autoOp (readyWith readyCfg [] []) = none := by decide
theorem witness_StepRunsSelected_refused :
    ∃ s : State, s.sched = .op .inputChannel [] :: [] ∧ decode .inputChannel [] = .error (.missingWord "LOOKUP") :=
  ⟨{ State.reset with sched := [.op .inputChannel []] }, rfl, rfl⟩
theorem witness_StepHostTurns :
    ∃ s u v w : State, s.sched = .feed 0x80 :: [] ∧ u.sched = .sink true :: [] ∧ v.sched = .rst true :: [] ∧
      w.sched = .tick :: [] :=
  ⟨{ State.reset with sched := [.feed 0x80] }, { State.reset with sched := [.sink true] },
    { State.reset with sched := [.rst true] }, { State.reset with sched := [.tick] }, rfl, rfl, rfl, rfl⟩
theorem witness_StepHostTurns_restart :
    ∃ s u : State, s.sched = .stop :: [] ∧ u.sched = .again [0x80] State.reset.io :: [] :=
  ⟨{ State.reset with sched := [.stop] }, { State.reset with sched := [.again [0x80] State.reset.io] }, rfl, rfl⟩
/-- 60_exceptions.md R138: RESET drops the queue and the ENCODE under way, and the stream starts afresh. -/
theorem test_again :
    nextView (step { encodingWith readyCfg with sched := [.again [0x1D, 0x00] State.reset.io] })
      (fun t => (t.oq, t.enc, t.src)) = some ([], .idle, [0x1D, 0x00]) := by decide
/-- The bounds of bucket 1 (95_test_vectors.md S3), both edges. -/
theorem witness_BucketDecode :
    (bucketFirst 1, bucketFirst 2) = (29, 57) ∧ ((idx 28).toNat, (idx 29).toNat, (idx 56).toNat, (idx 57).toNat) = (0, 1, 1, 2) := by
  decide
/-- 42_host_encoder.md R102 at the edge of a chunk: 33 elements. -/
theorem witness_ChunkShape_edge : (chunks (List.replicate 33 0x00)).map List.length = [32, 1] := by decide

end Sys2Proof.Tests
end

