-- ==== Sys2Proof/Proofs/SymTable.lean ====
section
/-! The closed forms of `SYM` (10_state.md R22): each is a fact about the window `(0xFF00 >> k)[7:0]`, and the normative list of
R21 is the nine windows in order. -/

namespace Sys2Proof.Machine

/-- The first closed form of R22, `(0xFF00 >> k)[7:0]`. -/
def symWindow (k : Nat) : Byte := (0xFF00#16 >>> k).extractLsb' 0 8

/-- R21's nine constants against R22's formula. -/
theorem symTable_eq_map_symWindow : symTable = (List.range 9).map symWindow := by decide

theorem symTable_getElem?_eq_symWindow {k : Nat} (hk : k < 9) : symTable[k]? = some (symWindow k) := by
  rw [symTable_eq_map_symWindow, List.getElem?_map, List.getElem?_range hk, Option.map_some]

theorem getLsbD_FF00 {n : Nat} (hn : n < 16) : (0xFF00#16).getLsbD n = decide (8 ≤ n) :=
  (by decide : ∀ m < 16, (0xFF00#16).getLsbD m = decide (8 ≤ m)) n hn

/-- The window at `k` shows bit `k + b` of `0xFF00` as its bit `b`. -/
theorem getLsbD_symWindow {k b : Nat} (hk : k < 9) (hb : b < 8) :
    (symWindow k).getLsbD b = decide (8 - k ≤ b) := by
  have hshift : (symWindow k).getLsbD b = (0xFF00#16).getLsbD (k + b) := by
    simp [symWindow, hb]
  rw [hshift, getLsbD_FF00 (by omega)]
  exact decide_eq_decide.mpr (by omega)

/-- The set bits are the top `k` of the eight. -/
theorem bitsSet_symWindow {k : Nat} (hk : k < 9) : bitsSet (symWindow k) = k := by
  have hbits : (List.range 8).map (symWindow k).getLsbD = (List.range 8).map fun b => decide (8 - k ≤ b) :=
    List.map_congr_left fun b hb => getLsbD_symWindow hk (List.mem_range.mp hb)
  rw [bitsSet, hbits]
  exact (by decide : ∀ j < 9, ((List.range 8).map fun b => decide (8 - j ≤ b)).count true = j) k hk

theorem toNat_symWindow {k : Nat} (hk : k < 9) : (symWindow k).toNat = (256 - 2 ^ (8 - k)) % 256 :=
  (by decide : ∀ j < 9, (symWindow j).toNat = (256 - 2 ^ (8 - j)) % 256) k hk

/-- The form `256 - 2^(8-k)` rises because `2^(8-k)` falls; the reduction modulo 256 matters at no `k`, as `2^(8-k) ≥ 1`. -/
theorem symWindow_toNat_lt {j k : Nat} (hjk : j < k) (hk : k < 9) : (symWindow j).toNat < (symWindow k).toNat := by
  have hpow : 2 ^ (8 - k) < 2 ^ (8 - j) := Nat.pow_lt_pow_right (by decide) (by omega)
  have htop : 2 ^ (8 - j) ≤ 2 ^ 8 := Nat.pow_le_pow_right (by decide) (by omega)
  have hpos : 0 < 2 ^ (8 - k) := Nat.two_pow_pos _
  rw [toNat_symWindow (hjk.trans hk), toNat_symWindow hk]
  omega

theorem symTable_pairwise_toNat_lt : symTable.Pairwise (fun u v => u.toNat < v.toNat) := by
  rw [symTable_eq_map_symWindow, List.pairwise_map]
  exact List.pairwise_lt_range.imp_of_mem fun _ hk hjk => symWindow_toNat_lt hjk (List.mem_range.mp hk)

/-- Settles O1: entry `k` is the window `(0xFF00 >> k)[7:0]`, whose value, bits, count and order are the lemmas above. -/
theorem symTableClosedForms : Obligations.SymTableClosedForms := by
  refine ⟨rfl, fun k hk => ⟨symWindow k, symTable_getElem?_eq_symWindow hk, rfl, toNat_symWindow hk, fun b hb => ?_,
    bitsSet_symWindow hk⟩, symTable_pairwise_toNat_lt⟩
  rw [getLsbD_symWindow hk hb, decide_eq_true_iff]

end Sys2Proof.Machine
end

