-- ==== Sys2Proof/Proofs/IndexArithmetic.lean ====
section
/-! The index as arithmetic on naturals (30_encoding.md R64, R65). The product never wraps, so `idx(s)` is the floor of `9 s / 256`;
and `bucketFirst k`, the ceiling of `256 k / 9`, is the least number whose floor reaches `k`. -/

namespace Sys2Proof.Machine

/-- The 12 bits of the product hold `255 * 9 = 2295`, so it does not wrap. -/
theorem product_toNat (s : Byte) : (product s).toNat = s.toNat * 9 := by
  have hs : s.toNat < 256 := s.isLt
  rw [product, BitVec.toNat_mul, BitVec.toNat_setWidth_of_le (by decide)]
  have hfits : s.toNat * 9 < 2 ^ 12 := by omega
  exact Nat.mod_eq_of_lt hfits

theorem product_toNat_le (s : Byte) : (product s).toNat ≤ 2295 := by
  have hs : s.toNat < 256 := s.isLt
  rw [product_toNat]
  omega

/-- Neither the shift by 3 nor the sum loses a bit. -/
theorem product_eq_shift_add (s : Byte) : product s = (s.setWidth 12 <<< 3) + s.setWidth 12 := by
  have hs : s.toNat < 256 := s.isLt
  apply BitVec.eq_of_toNat_eq
  rw [product_toNat, BitVec.toNat_add, BitVec.toNat_shiftLeft, BitVec.toNat_setWidth_of_le (by decide), Nat.shiftLeft_eq]
  omega

/-- Bits 11:8 of a number below `2^12` are its quotient by 256. -/
theorem idx_toNat (s : Byte) : (idx s).toNat = s.toNat * 9 / 256 := by
  have hs : s.toNat < 256 := s.isLt
  rw [idx, BitVec.extractLsb'_toNat, Nat.shiftRight_eq_div_pow, product_toNat]
  omega

/-- R83's bound: `255 * 9 / 256 = 8`. -/
theorem idx_toNat_le (s : Byte) : (idx s).toNat ≤ 8 := by
  have hs : s.toNat < 256 := s.isLt
  rw [idx_toNat]
  omega

/-- The index is within the table, so `Q` never falls back to its default. -/
theorem symRead_idx (s : Byte) : symRead (idx s) = some (Q s) := by
  have hlt : (idx s).toNat < symTable.length := Nat.lt_succ_of_le (idx_toNat_le s)
  rw [Q, symRead, List.getElem?_eq_getElem hlt, Option.getD_some]

/-- The ceiling `bucketFirst` and the floor of R64 form a Galois connection: both sides say `256 k ≤ 9 n`. -/
theorem bucketFirst_le_iff {k n : Nat} : bucketFirst k ≤ n ↔ k ≤ n * 9 / 256 := by
  unfold bucketFirst
  omega

/-- Settles O2: the product is exact, so its top four bits are the floor. -/
theorem indexIsFloor : Obligations.IndexIsFloor := fun s =>
  ⟨product_toNat s, product_toNat_le s, rfl, idx_toNat s, product_eq_shift_add s⟩

/-- Settles O6: `idx(s) = k` says `k ≤ 9 s / 256 < k + 1`, and each bound is one about a bucket's first sample. -/
theorem bucketDecode : Obligations.BucketDecode := by
  refine ⟨fun s k _ => ?_, fun s => (symRead_idx s).symm, by decide, by decide⟩
  rw [idx_toNat, bucketFirst_le_iff, ← not_le (b := s.toNat), bucketFirst_le_iff]
  omega

end Sys2Proof.Machine
end

