-- ==== Sys2Proof/Proofs/MapOrder.lean ====
section
/-! The order of the map (40_build.md R84): `idx` is monotone as a floor of a multiple, and `Q` is monotone because `SYM` rises. -/

namespace Sys2Proof.Machine

/-- The symbol is R22's window at the index. -/
theorem Q_eq_symWindow (s : Byte) : Q s = symWindow (idx s).toNat :=
  Option.some.inj <| (symRead_idx s).symm.trans (symTable_getElem?_eq_symWindow (Nat.lt_succ_of_le (idx_toNat_le s)))

theorem idx_toNat_mono {i j : Byte} (h : i.toNat ≤ j.toNat) : (idx i).toNat ≤ (idx j).toNat := by
  rw [idx_toNat, idx_toNat]
  exact Nat.div_le_div_right (Nat.mul_le_mul_right 9 h)

theorem Q_toNat_mono {i j : Byte} (h : i.toNat ≤ j.toNat) : (Q i).toNat ≤ (Q j).toNat := by
  rw [Q_eq_symWindow, Q_eq_symWindow]
  rcases (idx_toNat_mono h).eq_or_lt with heq | hlt
  · rw [heq]
  · exact (symWindow_toNat_lt hlt (Nat.lt_succ_of_le (idx_toNat_le j))).le

/-- Bucket `k` is not empty: its first sample has index `k`. -/
theorem idx_bucketFirst {k : Nat} (hk : k ≤ 8) : (idx (BitVec.ofNat 8 (bucketFirst k))).toNat = k := by
  have hbyte : bucketFirst k < 2 ^ 8 := by unfold bucketFirst; omega
  rw [idx_toNat, BitVec.toNat_ofNat, Nat.mod_eq_of_lt hbyte, bucketFirst]
  omega

/-- A sample more adds `9 / 256` to the real-valued index, less than 1. -/
theorem idx_toNat_le_of_succ {i j : Byte} (h : j.toNat = i.toNat + 1) : (idx j).toNat ≤ (idx i).toNat + 1 := by
  rw [idx_toNat, idx_toNat, h]
  omega

/-- Settles O7: the samples 0 and 1 share a symbol, so the order is not strict. -/
theorem mapMonotone : Obligations.MapMonotone :=
  ⟨fun _ _ h => ⟨idx_toNat_mono h, Q_toNat_mono h⟩, fun _ hk => ⟨_, idx_bucketFirst hk⟩,
    fun _ _ h => idx_toNat_le_of_succ h, 0, 1, by decide, by decide⟩

end Sys2Proof.Machine
end

