-- ==== Sys2Proof/Proofs/BuildSteps.lean ====
section
/-! BUILD_STEP and BUILD (40_build.md R80, R81). Where it is enabled, BUILD_STEP at `bidx = m` over the first `m` entries of the
built map gives its first `m + 1` entries; BUILD is 256 of these. -/

namespace Sys2Proof.Machine

/-- BUILD_STEP where it is enabled: `SYM` has the entry, so no fault is taken. -/
theorem buildOne_enabled {s : State} (h : buildHold s = none) :
    buildOne s = .next (s.built (Q (buildAddress s.bidx))) := by
  rw [buildOne, unlessHeld_none h, symRead_idx]

/-- BUILD_STEP with `ready = 1` or `PREBUILT` is held. -/
theorem buildOne_held_of_built {s : State} (h : s.ready = true ∨ s.cfg.prebuilt = true) :
    ∃ k, buildOne s = .next (s.held k) := by
  have hne : buildHold s ≠ none := by
    rw [Ne, buildHold_eq_none]
    rintro ⟨hp, -, hr⟩
    simp [hp, hr] at h
  obtain ⟨k, hk⟩ := Option.ne_none_iff_exists'.1 hne
  exact ⟨k, unlessHeld_some hk _ _⟩

theorem readyAfter_eq_true {b : BuildIndex} : readyAfter b = true ↔ b + 1#9 = 256#9 := beq_iff_eq

/-- Read after write, at the address a BUILD_STEP writes and at the others. -/
theorem mapRead_built (s : State) (v a : Byte) :
    (s.built v).mapRead a = if a = buildAddress s.bidx then some v else s.mapRead a := by
  rw [State.mapRead, State.built_map]
  split
  case isTrue h => rw [h, Memory.read_write_same]
  case isFalse h => exact Memory.read_write_other _ _ (mt BitVec.eq_of_toNat_eq h)

/-- Settles O13: the entry is `Q` of the address, which `SYM` has. -/
theorem buildStepEffect : Obligations.BuildStepEffect := by
  refine ⟨fun s hp hrst hr => ?_, fun s h => buildOne_held_of_built h⟩
  have henabled : buildHold s = none := buildHold_eq_none.2 ⟨hp, hrst, hr⟩
  refine ⟨idx (buildAddress s.bidx), Q (buildAddress s.bidx), rfl, symRead_idx _, buildOne_enabled henabled, ?_,
    fun a ha => ?_, rfl, readyAfter_eq_true, rfl, ⟨rfl, rfl, rfl, rfl, rfl⟩, ⟨rfl, rfl, rfl, rfl⟩, ⟨rfl, rfl, rfl, rfl⟩,
    rfl, rfl⟩
  · rw [mapRead_built, if_pos rfl]
  · rw [mapRead_built, if_neg ha]

/-! ### The steps of BUILD -/

/-- The builder is at work and has written the first `m` entries. -/
structure Building (s : State) (m : Nat) : Prop where
  prebuilt : s.cfg.prebuilt = false
  rst : s.rst = false
  ready : s.ready = false
  bidx : s.bidx = BitVec.ofNat 9 m
  map : s.map = builtPrefix m

/-- `s` with the first `n` entries of `MAP` written. -/
def State.filled (s : State) (n : Nat) : State :=
  { s with map := builtPrefix n, bidx := BitVec.ofNat 9 n, ready := n == 256, hold := none }

theorem Building.filled {s : State} {m n : Nat} (h : Building s m) (hn : n < 256) : Building (s.filled n) n where
  prebuilt := h.prebuilt
  rst := h.rst
  ready := beq_false_of_ne hn.ne
  bidx := rfl
  map := rfl

theorem buildAddress_ofNat (m : Nat) : buildAddress (BitVec.ofNat 9 m) = BitVec.ofNat 8 m := by
  apply BitVec.eq_of_toNat_eq
  rw [buildAddress, BitVec.extractLsb'_toNat, Nat.shiftRight_zero, BitVec.toNat_ofNat, BitVec.toNat_ofNat]
  omega

theorem readyAfter_ofNat {m : Nat} (hm : m < 256) : readyAfter (BitVec.ofNat 9 m) = (m + 1 == 256) := by
  rw [Bool.eq_iff_iff, readyAfter_eq_true, beq_iff_eq, ← BitVec.toNat_inj, ← BitVec.ofNat_add, BitVec.toNat_ofNat,
    BitVec.toNat_ofNat]
  omega

/-- After the first `m` entries, writing the next gives the first `m + 1`. -/
theorem write_builtPrefix (m : Nat) :
    Memory.write (builtPrefix m) m (Q (BitVec.ofNat 8 m)) = builtPrefix (m + 1) := by
  rw [builtPrefix_succ, Memory.write_above]
  · rfl
  · intro c hc
    obtain ⟨a, ha, rfl⟩ := List.mem_map.1 hc
    exact List.mem_range.1 ha

/-- One BUILD_STEP of BUILD. -/
theorem buildOne_filled {s : State} {m : Nat} (h : Building s m) (hm : m < 256) :
    buildOne s = .next (s.filled (m + 1)) := by
  have haddr : (BitVec.ofNat 8 m).toNat = m := by rw [BitVec.toNat_ofNat, Nat.mod_eq_of_lt hm]
  rw [buildOne_enabled (buildHold_eq_none.2 ⟨h.prebuilt, h.rst, h.ready⟩), State.built, State.filled, h.bidx, h.map,
    buildAddress_ofNat, haddr, write_builtPrefix, readyAfter_ofNat hm, ← BitVec.ofNat_add]

/-- `n + 1` BUILD_STEPs of BUILD; none is held while `bidx` is below 256. -/
theorem buildMany_filled {s : State} {m n : Nat} (h : Building s m) (hmn : m + n < 256) :
    buildMany (n + 1) s = .next (s.filled (m + n + 1)) := by
  induction n generalizing s m with
  | zero => rw [buildMany, thenIfDone_done (buildOne_filled h hmn) rfl, buildMany, Nat.add_zero]
  | succ n ih =>
    have hnext : Building (s.filled (m + 1)) (m + 1) := h.filled (by omega)
    rw [buildMany, thenIfDone_done (buildOne_filled h (by omega)) rfl, ih hnext (by omega),
      show m + 1 + n + 1 = m + (n + 1) + 1 by omega]
    rfl

/-- BUILD from the reset state, where nothing is written yet. -/
theorem execBuild_filled {s : State} (h : Building s 0) : execBuild s = .next (s.filled 256) :=
  buildMany_filled h (by decide : 0 + 255 < 256)

theorem read_builtMap (a : Byte) : Memory.read builtMap a.toNat = some (Q a) := by
  rw [builtMap, Memory.read_builtPrefix, if_pos a.isLt, BitVec.ofNat_toNat, BitVec.setWidth_eq]

/-- Settles O14: BUILD begins with no entry of the built map, and each BUILD_STEP adds the next. -/
theorem buildFillsMap : Obligations.BuildFillsMap := by
  intro s hp hrst hb hr hmap
  have hbuilding : Building s 0 := ⟨hp, hrst, hr, hb, hmap⟩
  refine ⟨execBuild_filled hbuilding, read_builtMap, fun n hpos hn => ?_⟩
  obtain ⟨m, rfl⟩ := Nat.exists_eq_add_one_of_ne_zero hpos.ne'
  have hready : (m + 1 == 256) = s.ready := hr ▸ beq_false_of_ne hn.ne
  rw [buildMany_filled hbuilding (by omega), State.filled, Nat.zero_add, hready]

end Sys2Proof.Machine
end

