-- ==== Sys2Proof/Proofs/BlockMoves.lean ====
section
/-! What every operation but RESET is made of (00_scope.md R10, 30_encoding.md R70): steps of the host, and the six moves of the
block. What these keep, the operations keep; and the one fault left is a LOOKUP of an entry that holds no value (60_exceptions.md
R132). -/

namespace Sys2Proof.Machine

/-- Every next state is one of `P`, every fault is one of `F`, and nothing is refused. -/
def Answers (P : State → Prop) (F : Fault → Prop) : Result → Prop
  | .next t => P t
  | .fault e => F e
  | .refused _ => False

/-- `P` is kept by the host's steps, among them the hold, and by each move of the block where it is enabled; `F` has the faults
that a LOOKUP takes in a state of `P`. -/
structure KeptByMoves (P : State → Prop) (F : Fault → Prop) : Prop where
  host : ∀ {s t : State}, P s → HostStep s t → P t
  built : ∀ {s : State}, P s → buildHold s = none → P (s.built (Q (buildAddress s.bidx)))
  accepted : ∀ {s : State} {x v : Byte},
    P s → lookupHold s = none → s.src.head? = some x → s.mapRead x = some v → P (s.accepted v)
  unbuilt : ∀ {s : State} {x : Byte},
    P s → lookupHold s = none → s.src.head? = some x → s.mapRead x = none → F (.readUnbuilt x)
  delivered : ∀ {s : State} {y : Byte} {rest : List Byte},
    P s → s.cfg.hasMod = false → emitHold s = none → s.oq = y :: rest → P (s.delivered y)
  loaded : ∀ {s : State} {y : Byte} {rest : List Byte}, P s → loadHold s = none → s.oq = y :: rest → P (s.loaded y)
  shifted : ∀ {s : State}, P s → shiftHold s = none → P s.shifted
  idled : ∀ {s : State}, P s → idleHold s = none → P s.idled

theorem held_host (s : State) (k : Hold) : HostStep s (s.held k) := rfl

section
variable {P : State → Prop} {F : Fault → Prop} {s : State}

theorem thenIfDone_answers {r : Result} {f : State → Result} (hr : Answers P F r) (hf : ∀ u, P u → Answers P F (f u)) :
    Answers P F (thenIfDone r f) := by
  cases r with
  | next u =>
    rw [thenIfDone]
    split
    · exact hr
    · exact hf u hr
  | fault e => exact hr
  | refused e => exact hr

variable (hk : KeptByMoves P F) (hs : P s)
include hk hs

theorem unlessHeld_answers {h : Option Hold} {op : State → Result} (hop : h = none → Answers P F (op s)) :
    Answers P F (unlessHeld h s op) := by
  cases h with
  | some k => exact hk.host hs (held_host s k)
  | none => exact hop rfl

theorem buildOne_answers : Answers P F (buildOne s) := by
  refine unlessHeld_answers hk hs fun hn => ?_
  rw [symRead_idx]
  exact hk.built hs hn

theorem lookupOne_answers (x : Byte) : Answers P F (lookupOne x s) := by
  refine unlessHeld_answers hk hs fun hn => ?_
  split
  case isTrue hx =>
    cases hv : s.mapRead x with
    | none => exact hk.unbuilt hs hn hx hv
    | some v => exact hk.accepted hs hn hx hv
  case isFalse => exact hk.host hs (held_host s _)

theorem deliverHead_answers {f : State → Byte → State} (hf : ∀ y rest, s.oq = y :: rest → P (f s y)) :
    Answers P F (deliverHead f s) := by
  rw [deliverHead]
  split
  · exact hk.host hs (held_host s _)
  · exact hf _ _ ‹_›

theorem loadOne_answers : Answers P F (loadOne s) :=
  unlessHeld_answers hk hs fun hn => deliverHead_answers hk hs fun _ _ hq => hk.loaded hs hn hq

theorem emitOne_answers : Answers P F (emitOne s) := by
  rw [emitOne]
  split
  case isTrue => exact loadOne_answers hk hs
  case isFalse hm =>
    exact unlessHeld_answers hk hs fun hn =>
      deliverHead_answers hk hs fun _ _ hq => hk.delivered hs (Bool.eq_false_iff.2 hm) hn hq

theorem shiftOne_answers : Answers P F (shiftOne s) := unlessHeld_answers hk hs (hk.shifted hs)

theorem idleOne_answers : Answers P F (idleOne s) := unlessHeld_answers hk hs (hk.idled hs)

theorem quantOne_answers (x : Byte) : Answers P F (quantOne x s) :=
  thenIfDone_answers (lookupOne_answers hk hs x) fun _ hu => emitOne_answers hk hu

theorem buildMany_answers (n : Nat) : Answers P F (buildMany n s) := by
  induction n generalizing s with
  | zero => exact hs
  | succ n ih => exact thenIfDone_answers (buildOne_answers hk hs) fun _ hu => ih hu

/-- Each turn of ENCODE is a step of the host, a LOOKUP or an EMIT. -/
theorem encodeLoop_answers (n : Nat) : Answers P F (encodeLoop n s) := by
  induction n generalizing s with
  | zero => exact hs
  | succ n ih =>
    have hflush : ∀ base pos u, HostStep s u → Answers P F (encodeLoop n (flushLine base pos u)) := fun base pos u hu =>
      ih (hk.host hs (hu.trans (flushLine_host base pos u)))
    have hemit : Answers P F (thenIfDone (emitOne s) (encodeLoop n)) :=
      thenIfDone_answers (emitOne_answers hk hs) fun _ hu => ih hu
    rw [encodeLoop]
    split
    · exact hs
    · split_ifs with hchunk hawaited hunreadable
      · exact hflush _ _ s (HostStep.refl s)
      · exact hemit
      · exact hk.host hs rfl
      · split
        · rw [readNothing]
          split
          · exact hk.host hs ((sourceRead_host s).trans (finishEncode_host _))
          · exact hflush _ _ _ (sourceRead_host s)
        · rw [readSample]
          split
          · exact thenIfDone_answers (lookupOne_answers hk hs _) fun _ hu => ih hu
          · exact hemit

/-- What the host's steps and the block's moves keep, every operation keeps; of RESET it is asked apart. -/
theorem exec_answers {i : Instr} (hreset : i = .reset → P s.toReset) : Answers P F (exec i s) := by
  cases i with
  | reset => exact hreset rfl
  | buildStep => exact buildOne_answers hk hs
  | lookup x => exact lookupOne_answers hk hs x
  | emit => exact emitOne_answers hk hs
  | modLoad => exact loadOne_answers hk hs
  | modShift => exact shiftOne_answers hk hs
  | modIdle => exact idleOne_answers hk hs
  | build => exact buildMany_answers hk hs 256
  | quant x => exact quantOne_answers hk hs x
  | encode => exact encodeLoop_answers hk (hk.host hs (beginEncode_host s)) _

end

end Sys2Proof.Machine
end

