-- ==== Sys2Proof/Proofs/MapOnceReady.lean ====
section
/-! Two uses of the moves: no operation takes the fault `IndexOutOfRange` (40_build.md R83), and none but RESET changes a map that
is ready (R85). -/

namespace Sys2Proof.Machine

/-- The fault of R132 that reads an entry of `MAP` without a value. -/
def IsReadUnbuilt (e : Fault) : Prop := ∃ x, e = .readUnbuilt x

theorem anyState_keptByMoves : KeptByMoves (fun _ => True) IsReadUnbuilt where
  host _ _ := trivial
  built _ _ := trivial
  accepted _ _ _ _ := trivial
  unbuilt _ _ _ _ := ⟨_, rfl⟩
  delivered _ _ _ _ := trivial
  loaded _ _ _ := trivial
  shifted _ _ := trivial
  idled _ _ := trivial

/-- `IndexOutOfRange` is not among the faults an operation takes, in any state. -/
theorem exec_fault_isReadUnbuilt {i : Instr} {s : State} {e : Fault} (h : exec i s = .fault e) : IsReadUnbuilt e := by
  have hanswers : Answers (fun _ => True) IsReadUnbuilt (exec i s) :=
    exec_answers anyState_keptByMoves trivial fun _ => trivial
  rwa [h] at hanswers

theorem lerpIndex_255 : lerpIndex 255 = 2295 / 256 := by
  have htop : (255 : Byte).toNat = 255 := rfl
  rw [lerpIndex, lerp, htop]
  norm_num

/-- Settles O5: the index is at most 8, so BUILD_STEP finds its symbol in every state. -/
theorem indexWithinTable : Obligations.IndexWithinTable := by
  refine ⟨fun i => ⟨idx_toNat_le i, symRead_idx i⟩, by decide, lerpIndex_255, fun i s k h => ?_⟩
  obtain ⟨x, hx⟩ := exec_fault_isReadUnbuilt h
  cases hx

/-- `t` is ready, with the map, `bidx` and `ready` of `s`. -/
def ReadySame (s t : State) : Prop := SameTables s t ∧ t.ready = true

/-- Of the moves only BUILD_STEP writes the map, and it is not enabled at `ready = 1`. -/
theorem readySame_keptByMoves (s : State) : KeptByMoves (ReadySame s) (fun _ => True) where
  host h hstep := by rw [hstep]; exact h
  built := by
    rintro u ⟨-, hready⟩ hn
    obtain ⟨-, -, hnot⟩ := buildHold_eq_none.1 hn
    exact absurd hready (Bool.eq_false_iff.1 hnot)
  accepted h _ _ _ := h
  unbuilt _ _ _ _ := trivial
  delivered h _ _ _ := h
  loaded h _ _ := h
  shifted h _ := h
  idled h _ := h

/-- Once ready, the tables stay as they are. -/
theorem exec_sameTables {i : Instr} {s t : State} (hi : i ≠ .reset) (hr : s.ready = true) (h : exec i s = .next t) :
    SameTables s t := by
  have hanswers : Answers (ReadySame s) (fun _ => True) (exec i s) :=
    exec_answers (readySame_keptByMoves s) ⟨⟨rfl, rfl, rfl⟩, hr⟩ fun hreset => absurd hreset hi
  rw [h] at hanswers
  exact hanswers.1

/-- After RESET without `PREBUILT` the builder begins. -/
theorem building_toReset {s : State} (hp : s.cfg.prebuilt = false) (hrst : s.rst = false) : Building s.toReset 0 where
  prebuilt := hp
  rst := hrst
  ready := hp
  bidx := by rw [State.toReset_bidx, hp]; rfl
  map := by rw [State.toReset_map, hp]; rfl

/-- Settles O15: a built map is left alone, and RESET returns to the state BUILD begins from. -/
theorem mapImmutableOnceReady : Obligations.MapImmutableOnceReady :=
  ⟨fun _ _ _ hi hr h => exec_sameTables hi hr h, fun s hp hrst =>
    ⟨s.toReset, s.toReset.filled 256, rfl, execBuild_filled (building_toReset hp hrst), rfl, rfl⟩⟩

end Sys2Proof.Machine
end

