-- ==== Sys2Proof/Proofs/Lookup.lean ====
section
/-! LOOKUP (41_lookup.md R91, R92, R95): enabled on the offered sample it answers by what `MAP` holds there, and it is held where
one of R91's conditions is missing. The boundary symbols are entries 0, 8 and 4 of `SYM`. -/

namespace Sys2Proof.Machine

/-- The symbol with the index of R64 written as the floor. -/
theorem Q_eq_symWindow_floor (s : Byte) : Q s = symWindow (s.toNat * 9 / 256) := by
  rw [Q_eq_symWindow, idx_toNat]

/-- Settles O8: the floors of `9 s / 256` at 0, 255 and 128 are 0, 8 and 4. -/
theorem quantizerBoundary : Obligations.QuantizerBoundary :=
  ⟨Q_eq_symWindow_floor 0, Q_eq_symWindow_floor 255, Q_eq_symWindow_floor 128⟩

section
variable {s : State} {x : Byte}

/-- A ready block has every entry of the map (10_state.md R31 (b), (c)). -/
theorem mapRead_of_ready (hinv : BlockInv s) (hready : s.ready = true) (x : Byte) : s.mapRead x = some (Q x) := by
  have hdone : s.bidx.toNat = 256 := hinv.ready_iff.1 hready
  have hx : x.toNat < 256 := x.isLt
  exact hinv.map_built x (hdone ▸ hx)

theorem lookupOne_of_mapRead_some {v : Byte} (hn : lookupHold s = none) (hx : s.src.head? = some x)
    (hv : s.mapRead x = some v) : lookupOne x s = .next (s.accepted v) := by
  rw [lookupOne, unlessHeld_none hn, if_pos hx, hv]

theorem lookupOne_of_mapRead_none (hn : lookupHold s = none) (hx : s.src.head? = some x) (hv : s.mapRead x = none) :
    lookupOne x s = .fault (.readUnbuilt x) := by
  rw [lookupOne, unlessHeld_none hn, if_pos hx, hv]

/-- The state after an enabled LOOKUP, in terms of the samples that are left. -/
theorem accepted_eq_of_src {rest : List Byte} (hs : s.src = x :: rest) (v : Byte) :
    s.accepted v = { s with oq := s.oq ++ [v], src := rest, io := s.io.afterRead, hold := none } := by
  rw [State.accepted, hs, List.tail_cons]

/-- Each condition of R91 that is missing stands in the way of LOOKUP, whatever `rst` is. -/
theorem lookupHold_ne_none
    (h : s.ready = false ∨ s.cfg.oqDepth ≤ s.oq.length ∨ s.src = [] ∨ s.sValid = false) : lookupHold s ≠ none := by
  rw [Ne, lookupHold_eq_none]
  rintro ⟨-, hready, hroom, hvalid⟩
  rcases h with hnot | hfull | hempty | hnone
  · simp [hready] at hnot
  · exact absurd hroom (Nat.not_lt.2 hfull)
  · exact (sValid_eq_true.1 hvalid).1 hempty
  · simp [hvalid] at hnone

theorem lookupOne_held (h : lookupHold s ≠ none) : ∃ k, lookupOne x s = .next (s.held k) := by
  obtain ⟨k, hk⟩ := Option.ne_none_iff_exists'.1 h
  exact ⟨k, unlessHeld_some hk _ _⟩

/-- LOOKUP of the offered sample where it is enabled and the entry holds `v` (41_lookup.md R91). -/
theorem exec_lookup_offered {v : Byte} {rest : List Byte} (hn : lookupHold s = none) (hs : s.src = x :: rest)
    (hv : s.mapRead x = some v) : exec (.lookup x) s =
      .next { s with oq := s.oq ++ [v], src := rest, io := s.io.afterRead, hold := none } := by
  have hx : s.src.head? = some x := by rw [hs, List.head?_cons]
  exact (lookupOne_of_mapRead_some hn hx hv).trans (congrArg _ (accepted_eq_of_src hs v))

end

/-- Settles O16: the entry decides between the push and the fault, and under the invariants it is `Q` of the sample. -/
theorem lookupEffect : Obligations.LookupEffect := by
  refine ⟨fun s x v rest hrst hready hroom hvalid hs hv => ?_, fun s x rest hrst hready hroom hvalid hs hv => ?_,
    fun s x rest hinv hrst hready hroom hvalid hs => ?_, fun s x h => lookupOne_held (lookupHold_ne_none h)⟩
  all_goals have hn : lookupHold s = none := lookupHold_eq_none.2 ⟨hrst, hready, hroom, hvalid⟩
  · exact ⟨_, exec_lookup_offered hn hs hv⟩
  · exact lookupOne_of_mapRead_none hn (by rw [hs, List.head?_cons]) hv
  · exact ⟨_, exec_lookup_offered hn hs (mapRead_of_ready hinv hready x)⟩

end Sys2Proof.Machine
end

