-- ==== Sys2Proof/Proofs/DataLines.lean ====
section
/-! The literals and the data lines of the host's text (42_host_encoder.md R103, R104). The digits of a literal are the quotient and
the remainder of the symbol by 16, so each literal is five characters and a line of `n` literals is `2 + 5n`. -/

namespace Sys2Proof.Machine

theorem extractLsb'_high_toNat (y : Byte) : (y.extractLsb' 4 4).toNat = y.toNat / 16 := by
  have hy : y.toNat < 256 := y.isLt
  rw [BitVec.extractLsb'_toNat, Nat.shiftRight_eq_div_pow]
  omega

theorem extractLsb'_low_toNat (y : Byte) : (y.extractLsb' 0 4).toNat = y.toNat % 16 := by
  rw [BitVec.extractLsb'_toNat, Nat.shiftRight_zero]

/-- The five characters of a literal (R103). -/
theorem literal_eq (y : Byte) :
    literal y = [0x30, 0x78, hexDigit (y.toNat / 16), hexDigit (y.toNat % 16), 0x2C] := by
  rw [← extractLsb'_high_toNat, ← extractLsb'_low_toNat]
  rfl

/-- Settles O30: the digits are the two nibbles of the symbol; the sixteen digits and the nine literals are listed. -/
theorem literalForm : Obligations.LiteralForm :=
  ⟨literal_eq, by decide, by decide⟩

theorem flatMap_literal_length (ys : List Byte) : (ys.flatMap literal).length = 5 * ys.length := by
  induction ys with
  | nil => rfl
  | cons y ys ih => rw [List.flatMap_cons, List.length_append, literal_length, ih, List.length_cons]; omega

theorem dataLine_eq (c : Config) (ys : List Byte) :
    dataLine c ys = [0x20, 0x20] ++ ys.flatMap literal ++ c.eol := rfl

theorem dataLine_length (c : Config) (ys : List Byte) :
    (dataLine c ys).length = 2 + 5 * ys.length + c.eol.length := by
  rw [dataLine_eq, List.length_append, List.length_append, flatMap_literal_length]
  rfl

/-- Settles O31: the two spaces and five characters for each literal stand before the terminator. -/
theorem dataLineForm : Obligations.DataLineForm :=
  fun c ys => ⟨dataLine_eq c ys, dataLine_length c ys⟩

end Sys2Proof.Machine
end

