-- ==== Sys2Proof/Proofs/Chunks.lean ====
section
/-! The chunks of a stream (42_host_encoder.md R102). A stream that is not empty gives its first 32 elements as a chunk and goes on
with the rest, so every fact about its chunks is an induction that drops 32 elements at a time. -/

namespace Sys2Proof.Machine

/-- The induction that follows the chunks of a stream. -/
theorem chunks_induction {P : List Byte → Prop} (nil : P []) (step : ∀ l, l ≠ [] → P (l.drop chunkSize) → P l)
    (l : List Byte) : P l := by
  by_cases hl : l = []
  · exact hl ▸ nil
  · have hpos : 0 < l.length := List.length_pos_iff.2 hl
    exact step l hl (chunks_induction nil step (l.drop chunkSize))
termination_by l.length
decreasing_by
  rw [List.length_drop, chunkSize]
  omega

theorem chunks_flatten (l : List Byte) : (chunks l).flatten = l := by
  induction l using chunks_induction with
  | nil => rfl
  | step l hl ih => rw [chunks_of_ne_nil hl, List.flatten_cons, ih, List.take_append_drop]

/-- There are `ceil(N / 32)` chunks. -/
theorem chunks_length (l : List Byte) : (chunks l).length = (l.length + 31) / 32 := by
  induction l using chunks_induction with
  | nil => rfl
  | step l hl ih =>
    have hpos : 0 < l.length := List.length_pos_iff.2 hl
    rw [chunks_of_ne_nil hl, List.length_cons, ih, List.length_drop, chunkSize]
    omega

/-- Chunk `i` is what stands in the stream from place `32 i` on, 32 elements at most. -/
theorem eq_take_drop_of_chunks_getElem? {l ch : List Byte} {i : Nat} (h : (chunks l)[i]? = some ch) :
    ch = (l.drop (32 * i)).take 32 := by
  induction l using chunks_induction generalizing i with
  | nil => cases h
  | step l hl ih =>
    rw [chunks_of_ne_nil hl] at h
    cases i with
    | zero => exact (Option.some.inj h).symm
    | succ i =>
      have hrest : ch = ((l.drop chunkSize).drop (32 * i)).take 32 := ih h
      rw [hrest, List.drop_drop, chunkSize, Nat.mul_succ, Nat.add_comm]

/-- Settles O32: chunk `i` has `min 32 (N - 32 i)` elements, and `i` is below `ceil(N / 32)`. -/
theorem chunkShape : Obligations.ChunkShape := by
  refine fun l => ⟨chunks_flatten l, chunks_length l, fun i ch h => ?_⟩
  have hch : ch = (l.drop (32 * i)).take 32 := eq_take_drop_of_chunks_getElem? h
  have hi : i < (chunks l).length := (List.getElem?_eq_some_iff.1 h).1
  have hsize : ch.length = min 32 (l.length - 32 * i) := by rw [hch, List.length_take, List.length_drop]
  rw [chunks_length] at hi ⊢
  exact ⟨hch, by omega, by omega, by omega⟩

end Sys2Proof.Machine
end

