-- ==== Sys2Proof/Proofs/TextLength.lean ====
section
/-! PREAMBLE, POSTAMBLE and the length of the whole text (42_host_encoder.md R101, R105, R106), counted for every terminator; the
defaults are an instance. -/

namespace Sys2Proof.Machine

theorem preambleLines_map_length : preambleLines.map List.length = [16, 16, 0, 19, 0, 24] := by decide

/-- Lines that are each followed by the same terminator. -/
theorem flatMap_append_length (ls : List (List Byte)) (eol : List Byte) :
    (ls.flatMap (· ++ eol)).length = (ls.map List.length).sum + ls.length * eol.length := by
  simp [List.length_flatMap, List.sum_map_add]

/-- The 75 characters of the six lines of PREAMBLE, and six terminators. -/
theorem preamble_length (c : Config) : (preamble c).length = 75 + 6 * c.eol.length := by
  rw [preamble, flatMap_append_length, preambleLines_map_length]
  rfl

/-- Settles O33: the six lines and their lengths are closed facts, and 81 is `75 + 6`. -/
theorem preambleForm : Obligations.PreambleForm :=
  ⟨rfl, preambleLines_map_length, fun _ => rfl, preamble_length Config.default⟩

/-- The 28 characters of the two lines of POSTAMBLE, one terminator, and a second one if `FINAL_EOL`. -/
theorem postamble_length (c : Config) :
    (postamble c).length = 28 + c.eol.length + (if c.finalEol then c.eol.length else 0) := by
  have hfirst : postambleFirst.length = 2 := rfl
  have hlast : postambleLast.length = 26 := by decide
  rw [postamble, List.length_append, List.length_append, List.length_append, hfirst, hlast, apply_ite List.length]
  simp only [List.length_nil]
  omega

/-- Data lines hold two spaces and a terminator each, and five characters for every symbol, however the symbols are cut. -/
theorem flatMap_dataLine_length (c : Config) (cs : List (List Byte)) :
    (cs.flatMap (dataLine c)).length = 5 * cs.flatten.length + (2 + c.eol.length) * cs.length := by
  induction cs with
  | nil => rfl
  | cons ch cs ih =>
    rw [List.flatMap_cons, List.length_append, ih, dataLine_length, List.flatten_cons, List.length_append,
      List.length_cons]
    ring

/-- The length of the whole text for every terminator. -/
theorem wholeText_length (c : Config) (ys : List Byte) :
    (wholeText c ys).length =
      (preamble c).length + (5 * ys.length + (2 + c.eol.length) * ((ys.length + 31) / 32)) + (postamble c).length := by
  rw [wholeText, List.length_append, List.length_append, flatMap_dataLine_length, chunks_flatten, chunks_length]

/-- Settles O34: with a terminator of one byte, `75 + 6` for PREAMBLE, 3 for each data line's spaces and terminator, and `28 + 2` for
POSTAMBLE. -/
theorem wholeTextLength : Obligations.WholeTextLength := by
  refine ⟨rfl, rfl, rfl, by decide, fun _ => rfl, postamble_length Config.default, fun c ys heol hfinal => ?_⟩
  have hone : c.eol.length = 1 := by rw [heol]; rfl
  rw [wholeText_length, preamble_length, postamble_length, if_pos hfinal, hone]
  omega

end Sys2Proof.Machine
end

