-- ==== Sys2Proof/Proofs/Reset.lean ====
section
/-! RESET (70_reset_and_hazards.md R150). What the map reads as after it is the built map or nothing, by `PREBUILT`; without
`PREBUILT` the builder stands at its first entry. While `rst` stays 1 each of the block's three steps has a hold. -/

namespace Sys2Proof.Machine

/-- `MAP` after RESET (10_state.md R30). -/
theorem mapRead_toReset (s : State) (a : Byte) :
    s.toReset.mapRead a = if s.cfg.prebuilt then some (Q a) else none := by
  rw [State.mapRead, State.toReset_map]
  split
  · exact read_builtMap a
  · exact Memory.read_nil _

/-- Entry 0 is the first that the builder writes. -/
theorem mapRead_zero_filled (s : State) {n : Nat} (hn : 0 < n) : (s.filled n).mapRead 0 = some (Q 0) :=
  (Memory.read_builtPrefix n 0).trans (if_pos hn)

/-- The first BUILD_STEP after RESET. -/
theorem exec_buildStep_toReset {s : State} (hp : s.cfg.prebuilt = false) (hrst : s.rst = false) :
    exec .buildStep s.toReset = .next (s.toReset.filled 1) :=
  buildOne_filled (building_toReset hp hrst) (by decide)

/-- An operation with a hold is held, whatever it would do. -/
theorem unlessHeld_held {h : Option Hold} (hne : h ≠ none) (s : State) (op : State → Result) :
    ∃ k, unlessHeld h s op = .next (s.held k) := by
  obtain ⟨k, hk⟩ := Option.ne_none_iff_exists'.1 hne
  exact ⟨k, unlessHeld_some hk s op⟩

section
variable {s : State} (hrst : s.rst = true)
include hrst

theorem buildOne_held_of_rst : ∃ k, buildOne s = .next (s.held k) :=
  unlessHeld_held (by simp [buildHold_eq_none, hrst]) _ _

theorem lookupOne_held_of_rst (x : Byte) : ∃ k, lookupOne x s = .next (s.held k) :=
  lookupOne_held (by simp [lookupHold_eq_none, hrst])

/-- With the serialiser EMIT is MOD_LOAD, which `rst` holds too (43_pwm_frame.md R121). -/
theorem emitOne_held_of_rst : ∃ k, emitOne s = .next (s.held k) := by
  rw [emitOne]
  split
  · exact unlessHeld_held (by simp [loadHold_eq_none, hrst]) _ _
  · exact unlessHeld_held (by simp [emitHold_eq_none, hrst]) _ _

end

/-- Settles O11: RESET answers `s.toReset` in every state, and at `rst = 1` each of the three steps has its hold. -/
theorem resetEffect : Obligations.ResetEffect := by
  refine ⟨fun s => ⟨s.toReset, rfl, fun hp => ?_, fun hp => ?_, fun _ => ⟨rfl, rfl, rfl⟩, fun hp hrst => ?_, rfl, rfl, rfl⟩,
    fun s x hrst => ⟨buildOne_held_of_rst hrst, lookupOne_held_of_rst hrst x, emitOne_held_of_rst hrst⟩⟩
  · simp [hp, mapRead_toReset]
  · simp [hp, mapRead_toReset, bidxDone]
  · exact ⟨s.toReset.filled 1, exec_buildStep_toReset hp hrst, rfl, mapRead_zero_filled _ Nat.one_pos⟩

end Sys2Proof.Machine
end

