-- ==== Sys2Proof/Proofs/FrameRegister.lean ====
section
/-! The frame register of MOD (43_pwm_frame.md R120 to R122): the frame word is the frame from bit 0 up, and MOD_SHIFT moves
every slot one place down and a 1 in at the top. -/

namespace Sys2Proof.Machine

/-- The start slot, the data bits and the stop slot of the frame word (43_pwm_frame.md R121). -/
theorem getLsbD_frameWord (y : Byte) (i : Nat) :
    (frameWord y).getLsbD i =
      if i < 1 then (0#1).getLsbD i else if i - 1 < 8 then y.getLsbD (i - 1) else (1#1).getLsbD (i - 1 - 8) := by
  rw [frameWord, BitVec.getLsbD_append, BitVec.getLsbD_append]

/-- The frame word shifted out from bit 0 up is the frame (43_pwm_frame.md R116). -/
theorem map_getLsbD_frameWord (y : Byte) : (List.range 10).map (frameWord y).getLsbD = frame y := by
  rw [funext (getLsbD_frameWord y)]
  rfl

/-- Settles O24: the eight data bits written out, and the frame word read from bit 0 up. -/
theorem frameBits : Obligations.FrameBits := fun y => ⟨rfl, map_getLsbD_frameWord y⟩

/-- What MOD_SHIFT leaves in `fr` (43_pwm_frame.md R122). -/
theorem getLsbD_shiftedReg (r : FrameReg) {i : Nat} (hi : i < 10) :
    (1#1 ++ r.extractLsb' 1 9).getLsbD i = if i = 9 then true else r.getLsbD (i + 1) := by
  rw [BitVec.getLsbD_append]
  split_ifs with hlow htop htop
  · omega
  · rw [BitVec.getLsbD_extractLsb', decide_eq_true hlow, Bool.true_and, Nat.add_comm]
  · rw [htop]; rfl
  · omega

/-- `fcnt` counts down without wrapping. -/
theorem toNat_fcnt_sub_one {c : SlotCount} (hle : c.toNat ≤ 10) (hne : c ≠ 0#4) : (c - 1#4).toNat + 1 = c.toNat := by
  have hpos : c.toNat ≠ 0 := fun h0 => hne (BitVec.eq_of_toNat_eq h0)
  rw [BitVec.toNat_sub]
  simp only [BitVec.toNat_ofNat]
  omega

end Sys2Proof.Machine
end

