-- ==== Sys2Proof/Proofs/Invariants.lean ====
section
/-! The invariants (10_state.md R31, 43_pwm_frame.md R120) are kept by the host's steps and by each move of the block, and
under them LOOKUP finds its entry; so they are kept by every operation, and no operation takes a fault. -/

namespace Sys2Proof

open Sys2Proof.Machine

theorem Q_mem_symTable (x : Byte) : Q x ∈ symTable := List.mem_of_getElem? (symRead_idx x)

theorem SymbolsOnly.append {l m : List Byte} (hl : SymbolsOnly l) (hm : SymbolsOnly m) : SymbolsOnly (l ++ m) :=
  fun y hy => (List.mem_append.1 hy).elim (hl y) (hm y)

theorem SymbolsOnly.singleton {y : Byte} (h : y ∈ symTable) : SymbolsOnly [y] :=
  fun _ hz => List.mem_singleton.1 hz ▸ h

/-- `bidx` counts up without wrapping. -/
theorem toNat_bidx_add_one {b : BuildIndex} (hlt : b.toNat < 256) : (b + 1#9).toNat = b.toNat + 1 := by
  rw [BitVec.toNat_add]
  simp only [BitVec.toNat_ofNat]
  omega

section
variable {s : State} (h : BlockInv s)
include h

/-- The invariants speak of the block, `snk` and the parameters only. -/
theorem BlockInv.of_sameBlock {t : State}
    (ht : t = { s with
      src := t.src, mReady := t.mReady, rst := t.rst, text := t.text, enc := t.enc, io := t.io, ioErr := t.ioErr,
      hold := t.hold, sched := t.sched, free := t.free }) : BlockInv t := by
  rw [ht]
  exact { h with }

/-- While the builder is at work `bidx` has not reached 256. -/
theorem bidx_lt_of_not_ready (hr : s.ready = false) : s.bidx.toNat < 256 := by
  have hne : s.bidx.toNat ≠ 256 := fun heq => by simp [h.ready_iff.2 heq] at hr
  exact lt_of_le_of_ne h.bidx_le hne

/-- A ready block is one that LOOKUP can read every entry of. -/
theorem mapRead_eq_of_lookupHold {x : Byte} (hn : lookupHold s = none) : s.mapRead x = some (Q x) := by
  obtain ⟨-, hready, -, -⟩ := lookupHold_eq_none.1 hn
  exact mapRead_of_ready h hready x

theorem BlockInv.built (hn : buildHold s = none) : BlockInv (s.built (Q (buildAddress s.bidx))) := by
  obtain ⟨hp, -, hr⟩ := buildHold_eq_none.1 hn
  have hlt : s.bidx.toNat < 256 := bidx_lt_of_not_ready h hr
  have hnext : (s.bidx + 1#9).toNat = s.bidx.toNat + 1 := toNat_bidx_add_one hlt
  have haddr : (buildAddress s.bidx).toNat = s.bidx.toNat := by
    rw [buildAddress, BitVec.extractLsb'_toNat, Nat.shiftRight_zero]
    omega
  have hsame : ∀ a : Byte, a = buildAddress s.bidx ↔ a.toNat = s.bidx.toNat := fun a => by
    rw [← BitVec.toNat_inj, haddr]
  exact { h with
    bidx_le := by rw [State.built_bidx, hnext]; omega
    ready_iff := by
      rw [State.built_ready, readyAfter_eq_true, State.built_bidx, ← BitVec.toNat_inj]
      rfl
    prebuilt_ready := fun hp' => by simp [hp] at hp'
    map_wf := Memory.write_wf _ (BitVec.isLt _) h.map_wf
    map_built := fun a ha => by
      rw [State.built_bidx, hnext] at ha
      rw [mapRead_built]
      split_ifs with heq
      · rw [heq]
      · exact h.map_built a (by rw [hsame] at heq; omega)
    map_unbuilt := fun a ha => by
      rw [State.built_bidx, hnext] at ha
      rw [mapRead_built, if_neg (by rw [hsame]; omega)]
      exact h.map_unbuilt a (by omega)
    oq_empty := fun _ => h.oq_empty hr }

theorem BlockInv.accepted {x v : Byte} (hn : lookupHold s = none) (hv : s.mapRead x = some v) :
    BlockInv (s.accepted v) := by
  obtain ⟨-, hready, hroom, -⟩ := lookupHold_eq_none.1 hn
  have hQ : v = Q x := Option.some.inj (hv.symm.trans (mapRead_of_ready h hready x))
  exact { h with
    oq_le := by rw [State.accepted_oq, List.length_append]; exact hroom
    oq_symbols := h.oq_symbols.append (.singleton (hQ ▸ Q_mem_symTable x))
    oq_empty := fun hnot => absurd hready (Bool.eq_false_iff.1 hnot) }

theorem BlockInv.delivered {y : Byte} {rest : List Byte} (hq : s.oq = y :: rest) : BlockInv (s.delivered y) where
  __ := h
  oq_le := by
    rw [State.delivered_oq, List.length_tail]
    exact (Nat.sub_le _ _).trans h.oq_le
  oq_symbols := fun z hz => h.oq_symbols z (List.mem_of_mem_tail hz)
  oq_empty := fun hr => by rw [State.delivered_oq, h.oq_empty hr]; rfl
  snk_symbols := h.snk_symbols.append (.singleton (h.oq_symbols y (by simp [hq])))

theorem BlockInv.loaded {y : Byte} {rest : List Byte} (hn : loadHold s = none) (hq : s.oq = y :: rest) :
    BlockInv (s.loaded y) where
  __ := h.delivered hq
  fcnt_le := le_refl 10
  fr_high := fun _ hle hlt => absurd hlt (Nat.not_lt.2 hle)
  mod_absent := fun hm => by simp [(loadHold_eq_none.1 hn).1] at hm

theorem BlockInv.shifted (hn : shiftHold s = none) : BlockInv s.shifted := by
  obtain ⟨hm, hne⟩ := shiftHold_eq_none.1 hn
  have hcount : (s.fcnt - 1#4).toNat + 1 = s.fcnt.toNat := toNat_fcnt_sub_one h.fcnt_le hne
  exact { h with
    fcnt_le := by have := h.fcnt_le; rw [State.shifted_fcnt]; omega
    fr_high := fun i hle hlt => by
      rw [State.shifted_fcnt] at hle
      rw [State.shifted_fr, getLsbD_shiftedReg _ hlt]
      split_ifs with htop
      · rfl
      · exact h.fr_high (i + 1) (by omega) (by omega)
    mod_absent := fun hm' => by simp [hm] at hm' }

theorem BlockInv.idled (hn : idleHold s = none) : BlockInv s.idled where
  __ := h
  mod_absent := fun hm => by simp [(idleHold_eq_none.1 hn).1] at hm

end

/-- No entry that LOOKUP reads is without a value, so no fault is asked for. -/
theorem blockInv_keptByMoves : KeptByMoves BlockInv (fun _ => False) where
  host h hstep := h.of_sameBlock (by rw [hstep])
  built := BlockInv.built
  accepted h hn _ hv := h.accepted hn hv
  unbuilt h hn _ hv := by simp [mapRead_eq_of_lookupHold h hn] at hv
  delivered h _ _ hq := h.delivered hq
  loaded h := h.loaded
  shifted := BlockInv.shifted
  idled := BlockInv.idled

/-- RESET establishes the invariants wherever the depth is legal and `snk` holds symbols only. -/
theorem blockInv_toReset {s : State} (hdepth : s.cfg.WF) (hsnk : SymbolsOnly s.snk) : BlockInv s.toReset where
  depth := hdepth
  bidx_le := by rw [State.toReset_bidx]; split <;> decide
  ready_iff := by rw [State.toReset_ready, State.toReset_bidx]; cases s.cfg.prebuilt <;> decide
  prebuilt_ready := id
  map_wf := by
    rw [State.toReset_map]
    split
    · exact Memory.wf_builtPrefix le_rfl
    · exact Memory.wf_nil
  map_built := fun a ha => by
    rw [mapRead_toReset]
    cases hp : s.cfg.prebuilt
    · simp [hp] at ha
    · rfl
  map_unbuilt := fun a ha => by
    rw [mapRead_toReset]
    cases hp : s.cfg.prebuilt
    · rfl
    · have hbyte : a.toNat < 256 := a.isLt
      rw [State.toReset_bidx, hp] at ha
      exact absurd hbyte (Nat.not_lt.2 ha)
  oq_le := Nat.zero_le _
  oq_symbols := fun _ hy => nomatch hy
  oq_empty := fun _ => rfl
  snk_symbols := hsnk
  fcnt_le := Nat.zero_le _
  fr_high := fun i _ hi => by rw [State.toReset_fr, BitVec.getLsbD_allOnes, decide_eq_true hi]
  mod_absent := fun _ => ⟨rfl, rfl, rfl, rfl⟩

theorem exec_answers_blockInv {s : State} (h : BlockInv s) (i : Instr) : Answers BlockInv (fun _ => False) (exec i s) :=
  exec_answers blockInv_keptByMoves h fun _ => blockInv_toReset h.depth h.snk_symbols

theorem exec_keeps_blockInv {i : Instr} {s t : State} (h : BlockInv s) (hr : exec i s = .next t) : BlockInv t := by
  have hanswers := exec_answers_blockInv h i
  rwa [hr] at hanswers

theorem BlockInv.advance {s : State} (h : BlockInv s) (rest : List Turn) : BlockInv (s.advance rest) := h.of_sameBlock rfl

theorem BlockInv.afresh {s : State} (h : BlockInv s) (l : List Byte) (io : HostIo) : BlockInv (s.afresh l io) :=
  h.of_sameBlock rfl

theorem BlockInv.hostTurn {s t : State} (h : BlockInv s) (ht : HostTurn s t) : BlockInv t :=
  h.of_sameBlock (by rw [ht.frame])

/-- Settles O43: a step is an operation, a RESET with a fresh stream, or a turn of the host. -/
theorem invKeptByStep : Obligations.InvKeptByStep := fun _ _ h hr =>
  step_keeps (fun _ _ _ h => exec_keeps_blockInv h) (fun _ rest h => h.advance rest)
    (fun _ _ _ _ h => blockInv_toReset h.depth h.snk_symbols) (fun _ _ h => h.hostTurn) h hr

/-- What an operation runs on: the state with the turn taken off, for a restart with a fresh stream too. -/
theorem fetch_run {i : Instr} {s u : State} (hf : fetch s = .run i u) :
    (∃ rest, u = s.advance rest) ∨ (i = .reset ∧ ∃ rest l io, u = (s.afresh l io).advance rest) := by
  rw [fetch] at hf
  split at hf
  · split at hf
    · cases hf; exact .inl ⟨_, rfl⟩
    · cases hf
  · split at hf
    · cases hf; exact .inl ⟨_, rfl⟩
    · cases hf
  case h_7 => cases hf; exact .inr ⟨rfl, _, _, _, rfl⟩
  all_goals cases hf

theorem fetch_run_blockInv {i : Instr} {s u : State} (h : BlockInv s) (hf : fetch s = .run i u) : BlockInv u := by
  rcases fetch_run hf with ⟨rest, rfl⟩ | ⟨-, rest, l, io, rfl⟩
  · exact h.advance rest
  · exact (h.afresh l io).advance rest

/-- Settles O45: under the invariants an operation answers a next state, and a step that runs none takes no fault. -/
theorem noFaultNoRefusal : Obligations.NoFaultNoRefusal := by
  have hnext : ∀ {s : State} (i : Instr), BlockInv s → ∃ t, exec i s = .next t := by
    intro s i h
    have hanswers := exec_answers_blockInv h i
    cases hr : exec i s with
    | next t => exact ⟨t, rfl⟩
    | fault e => rw [hr] at hanswers; exact hanswers.elim
    | refused e => rw [hr] at hanswers; exact hanswers.elim
  refine fun s h => ⟨fun i => hnext i h, fun e he => ?_⟩
  rw [step] at he
  cases hf : fetch s with
  | run i u =>
    obtain ⟨t, ht⟩ := hnext i (fetch_run_blockInv h hf)
    rw [hf, runFetched, ht] at he
    cases he
  | settle u => rw [hf, runFetched] at he; cases he
  | reject e => rw [hf, runFetched] at he; cases he

/-- Settles O42: reset is RESET of a state with nothing delivered and no ENCODE. -/
theorem invAtReset : Obligations.InvAtReset := fun _ hwf =>
  ⟨blockInv_toReset hwf (fun _ hy => nomatch hy), fun _ _ he => nomatch he⟩

end Sys2Proof
end

