-- ==== Sys2Proof/Proofs/EnabledSteps.lean ====
section
/-! Each step of the block where it is enabled and where a hold stands (41_lookup.md R91 to R93, 43_pwm_frame.md R121 to
R123). -/

namespace Sys2Proof

open Sys2Proof.Machine

/-! ### Where a hold stands -/

section
variable {s : State} {k : Hold}

theorem buildOne_of_hold (h : buildHold s = some k) : buildOne s = .next (s.held k) := unlessHeld_some h s _

theorem lookupOne_of_hold (h : lookupHold s = some k) (x : Byte) : lookupOne x s = .next (s.held k) := unlessHeld_some h s _

theorem loadOne_of_hold (h : loadHold s = some k) : loadOne s = .next (s.held k) := unlessHeld_some h s _

theorem shiftOne_of_hold (h : shiftHold s = some k) : shiftOne s = .next (s.held k) := unlessHeld_some h s _

theorem idleOne_of_hold (h : idleHold s = some k) : idleOne s = .next (s.held k) := unlessHeld_some h s _

/-- With the serialiser the hold of EMIT is MOD_LOAD's (43_pwm_frame.md R121). -/
theorem emitOne_of_loadHold (hm : s.cfg.hasMod = true) (h : loadHold s = some k) : emitOne s = .next (s.held k) := by
  rw [emitOne, if_pos hm, loadOne_of_hold h]

theorem emitOne_of_emitHold (hm : s.cfg.hasMod = false) (h : emitHold s = some k) : emitOne s = .next (s.held k) := by
  rw [emitOne, if_neg (by simp [hm]), unlessHeld_some h]

end

/-- While MOD's frame is under way a delivery is held (log entry 37). -/
theorem emitOne_modBusy {s : State} (hm : s.cfg.hasMod = true) (hrst : s.rst = false) (hbusy : s.fcnt ≠ 0#4) :
    emitOne s = .next (s.held .modBusy) :=
  emitOne_of_loadHold hm (by simp [loadHold, hm, hrst, hbusy])

/-- An empty queue holds EMIT, with the serialiser and without it. -/
theorem emitOne_held_of_empty {s : State} (hq : s.oq = []) : ∃ k, emitOne s = .next (s.held k) := by
  rw [emitOne]
  split
  · exact unlessHeld_held (by simp [loadHold_eq_none, hq]) _ _
  · exact unlessHeld_held (by simp [emitHold_eq_none, hq]) _ _

/-! ### Where none does -/

/-- LOOKUP of the sample offered. -/
theorem lookupOne_accepted {s : State} {x : Byte} {rest : List Byte} (hinv : BlockInv s) (hn : lookupHold s = none)
    (hs : s.src = x :: rest) : lookupOne x s = .next (s.accepted (Q x)) :=
  lookupOne_of_mapRead_some hn (by rw [hs, List.head?_cons]) (mapRead_eq_of_lookupHold hinv hn)

/-- With an empty queue a ready block takes what a source that can be read has. -/
theorem lookupHold_drained {s : State} (hinv : BlockInv s) (hready : s.ready = true) (hrst : s.rst = false) (hq : s.oq = [])
    (hio : s.io.readable ≠ some 0) (hs : s.src ≠ []) : lookupHold s = none :=
  lookupHold_eq_none.2 ⟨hrst, hready, by rw [hq]; exact hinv.depth, sValid_eq_true.2 ⟨hs, hio⟩⟩

theorem emitOne_delivered {s : State} {y : Byte} {rest : List Byte} (hm : s.cfg.hasMod = false) (hrst : s.rst = false)
    (hq : s.oq = y :: rest) (hsink : s.sinkAccepts = true) : emitOne s = .next (s.delivered y) := by
  have hn : emitHold s = none := emitHold_eq_none.2 ⟨hrst, by simp [hq], hsink⟩
  rw [emitOne, if_neg (by simp [hm]), unlessHeld_none hn, deliverHead, hq]

/-- With the serialiser idle a delivery is a MOD_LOAD (43_pwm_frame.md R121). -/
theorem emitOne_loaded {s : State} {y : Byte} {rest : List Byte} (hm : s.cfg.hasMod = true) (hrst : s.rst = false)
    (hidle : s.fcnt = 0#4) (hq : s.oq = y :: rest) : emitOne s = .next (s.loaded y) := by
  have hn : loadHold s = none := loadHold_eq_none.2 ⟨hm, hrst, hidle, by simp [hq]⟩
  rw [emitOne, if_pos hm, loadOne, unlessHeld_none hn, deliverHead, hq]

theorem shiftOne_shifted {s : State} (hm : s.cfg.hasMod = true) (hbusy : s.fcnt ≠ 0#4) : shiftOne s = .next s.shifted :=
  unlessHeld_none (shiftHold_eq_none.2 ⟨hm, hbusy⟩) s _

theorem idleOne_idled {s : State} (hm : s.cfg.hasMod = true) (hidle : s.fcnt = 0#4) (hq : s.oq = []) :
    idleOne s = .next s.idled :=
  unlessHeld_none (idleHold_eq_none.2 ⟨hm, hidle, hq⟩) s _

/-- The states after a delivery in terms of the symbols that are left. -/
theorem delivered_eq_of_oq {s : State} {y : Byte} {rest : List Byte} (hq : s.oq = y :: rest) :
    s.delivered y = { s with snk := s.snk ++ [y], oq := rest, hold := none } := by
  rw [State.delivered, hq, List.tail_cons]

theorem loaded_eq_of_oq {s : State} {y : Byte} {rest : List Byte} (hq : s.oq = y :: rest) :
    s.loaded y =
      { s with oq := rest, snk := s.snk ++ [y], fr := (1#1 ++ y) ++ 0#1, fcnt := 10#4, hold := none } := by
  rw [State.loaded, delivered_eq_of_oq hq]
  rfl

end Sys2Proof
end

