-- ==== Sys2Proof/Proofs/Streams.lean ====
section
/-! The streams (41_lookup.md R96, 10_state.md R33). Of the moves of the block only LOOKUP takes a sample, and what it pushes
is `Q` of it; only EMIT and MOD_LOAD deliver, and what they append to `snk` is the head of the queue. So each operation but
RESET, and each run of such steps, goes forward in the stream. -/

namespace Sys2Proof

open Sys2Proof.Machine

theorem Streams.refl (s : State) : Streams s s [] := ⟨rfl, (List.append_nil _).symm⟩

theorem Streams.trans {s t u : State} {acc more : List Byte} (h : Streams s t acc) (k : Streams t u more) :
    Streams s u (acc ++ more) := by
  obtain ⟨hsrc, hout⟩ := h
  obtain ⟨ksrc, kout⟩ := k
  refine ⟨by rw [hsrc, ksrc, List.append_assoc], ?_⟩
  rw [kout, hout, List.map_append, List.append_assoc]

/-- From `s` to `t` the parameters have stayed, `snk` has grown, and samples have been accepted as 41_lookup.md R96 says. -/
structure Forward (s t : State) : Prop where
  cfg : t.cfg = s.cfg
  snk_prefix : s.snk <+: t.snk
  streams : ∃ acc : List Byte, Streams s t acc

theorem Forward.refl (s : State) : Forward s s := ⟨rfl, List.prefix_refl _, [], .refl s⟩

theorem Forward.trans {s t u : State} (h : Forward s t) (k : Forward t u) : Forward s u := by
  obtain ⟨acc, hacc⟩ := h.streams
  obtain ⟨more, hmore⟩ := k.streams
  exact ⟨k.cfg.trans h.cfg, h.snk_prefix.trans k.snk_prefix, _, hacc.trans hmore⟩

/-- A step that leaves the parameters, the queue and the streams. -/
theorem Forward.of_same {s t : State} (hcfg : t.cfg = s.cfg) (hsrc : t.src = s.src) (hsnk : t.snk = s.snk)
    (hoq : t.oq = s.oq) : Forward s t :=
  ⟨hcfg, hsnk ▸ List.prefix_refl _, [], by rw [hsrc]; rfl, by rw [hsnk, hoq, List.map_nil, List.append_nil]⟩

theorem forward_accepted {s : State} {x : Byte} (hx : s.src.head? = some x) : Forward s (s.accepted (Q x)) := by
  obtain ⟨rest, hs⟩ := List.head?_eq_some_iff.1 hx
  refine ⟨rfl, List.prefix_refl _, [x], ?_, ?_⟩
  · rw [State.accepted_src, hs]; rfl
  · rw [State.accepted_snk, State.accepted_oq, List.append_assoc]; rfl

theorem forward_delivered {s : State} {y : Byte} {rest : List Byte} (hq : s.oq = y :: rest) : Forward s (s.delivered y) := by
  refine ⟨rfl, List.prefix_append _ _, [], rfl, ?_⟩
  rw [State.delivered_snk, State.delivered_oq, hq, List.map_nil, List.append_nil, List.append_assoc]
  rfl

/-- MOD_LOAD is a delivery. -/
theorem forward_loaded {s : State} {y : Byte} {rest : List Byte} (hq : s.oq = y :: rest) : Forward s (s.loaded y) :=
  (forward_delivered hq).trans (.of_same rfl rfl rfl rfl)

/-- `t` has the invariants and lies ahead of `s`. -/
def InvForward (s t : State) : Prop := BlockInv t ∧ Forward s t

theorem invForward_keptByMoves (s : State) : KeptByMoves (InvForward s) (fun _ => False) where
  host := fun ⟨h, hf⟩ hstep =>
    ⟨blockInv_keptByMoves.host h hstep, hf.trans (.of_same (by rw [hstep]) (by rw [hstep]) (by rw [hstep]) (by rw [hstep]))⟩
  built := fun ⟨h, hf⟩ hn => ⟨h.built hn, hf.trans (.of_same rfl rfl rfl rfl)⟩
  accepted := fun ⟨h, hf⟩ hn hx hv => by
    have hQ := Option.some.inj (hv.symm.trans (mapRead_eq_of_lookupHold h hn))
    exact ⟨h.accepted hn hv, hf.trans (hQ ▸ forward_accepted hx)⟩
  unbuilt := fun ⟨h, _⟩ => blockInv_keptByMoves.unbuilt h
  delivered := fun ⟨h, hf⟩ _ _ hq => ⟨h.delivered hq, hf.trans (forward_delivered hq)⟩
  loaded := fun ⟨h, hf⟩ hn hq => ⟨h.loaded hn hq, hf.trans (forward_loaded hq)⟩
  shifted := fun ⟨h, hf⟩ hn => ⟨h.shifted hn, hf.trans (.of_same rfl rfl rfl rfl)⟩
  idled := fun ⟨h, hf⟩ hn => ⟨h.idled hn, hf.trans (.of_same rfl rfl rfl rfl)⟩

/-- Every operation but RESET goes forward. -/
theorem exec_forward {i : Instr} {s t : State} (h : BlockInv s) (hi : i ≠ .reset) (hr : exec i s = .next t) :
    Forward s t := by
  have hanswers : Answers (InvForward s) (fun _ => False) (exec i s) :=
    exec_answers (invForward_keptByMoves s) ⟨h, .refl s⟩ fun hreset => absurd hreset hi
  rw [hr] at hanswers
  exact hanswers.2

/-- Settles O46: every move of the block goes forward in the stream. -/
theorem streamLaw : Obligations.StreamLaw := fun _ _ _ h hi hr => (exec_forward h hi hr).streams

/-! ### Runs -/

/-- A quiet step is an operation other than RESET, or a turn of the host that offers nothing. -/
theorem step_next_of_quiet {s t : State} (hq : quiet s) (hr : step s = .next t) :
    (∃ i rest, i ≠ .reset ∧ exec i (s.advance rest) = .next t) ∨ (HostTurn s t ∧ t.src = s.src) := by
  have hnoReset : ∀ u, fetch s ≠ .run .reset u := by
    unfold quiet at hq
    split at hq
    · exact hq.elim
    · exact hq
  rcases step_next hr with ⟨i, rest, hf, h⟩ | ⟨rest, l, io, hf, -⟩ | ⟨h, ⟨x, rest, hfeed⟩ | hsrc⟩
  · exact .inl ⟨i, rest, fun hi => hnoReset _ (hi ▸ hf), h⟩
  · exact absurd hf (hnoReset _)
  · rw [quiet, hfeed] at hq
    exact hq.elim
  · exact .inr ⟨h, hsrc⟩

/-- What operations other than RESET and the turns of the host that offer nothing keep, runs keep. -/
theorem Run.keeps {P : State → Prop} (hx : ∀ i s t, i ≠ .reset → P s → exec i s = .next t → P t)
    (ha : ∀ (s : State) rest, P s → P (s.advance rest)) (hh : ∀ s t, P s → HostTurn s t → t.src = s.src → P t) {s t : State}
    (hs : P s) (hrun : Run s t) : P t := by
  induction hrun with
  | refl => exact hs
  | step _ hq hr ih =>
    rcases step_next_of_quiet hq hr with ⟨i, rest, hi, h⟩ | ⟨h, hsrc⟩
    · exact hx i _ _ hi (ha _ rest ih) h
    · exact hh _ _ ih h hsrc

theorem Run.invForward {s t : State} (h : BlockInv s) (hrun : Run s t) : InvForward s t := by
  refine hrun.keeps (P := InvForward s) ?exec ?advance ?host ⟨h, .refl s⟩
  case exec => exact fun i u v hi hu hr => ⟨exec_keeps_blockInv hu.1 hr, hu.2.trans (exec_forward hu.1 hi hr)⟩
  case advance => exact fun u rest hu => ⟨hu.1.advance rest, hu.2.trans (.of_same rfl rfl rfl rfl)⟩
  case host =>
    exact fun u v hu ht hsrc =>
      ⟨hu.1.hostTurn ht, hu.2.trans (.of_same (by rw [ht.frame]) hsrc (by rw [ht.frame]) (by rw [ht.frame]))⟩

/-- Settles O47: at the end of the run nothing is left to accept and the queue is empty. -/
theorem finishedRunDelivers : Obligations.FinishedRunDelivers := by
  rintro s t h hrun ⟨hsrc, hoq, -⟩
  obtain ⟨acc, hacc, hout⟩ := (hrun.invForward h).2.streams
  rw [hsrc, List.append_nil] at hacc
  rwa [hoq, List.append_nil, ← hacc] at hout

/-- Settles O48: the symbols delivered and those in the queue are as many as the samples accepted. -/
theorem deliveriesTrailAcceptances : Obligations.DeliveriesTrailAcceptances := by
  intro s t h hoq hrun
  obtain ⟨hinv, hcfg, ⟨new, hnew⟩, acc, hacc, hout⟩ := hrun.invForward h
  have hroom : t.oq.length ≤ s.cfg.oqDepth := hcfg ▸ hinv.oq_le
  have hcount : new.length + t.oq.length = acc.length := by
    rw [hoq, List.append_nil, ← hnew, List.append_assoc, List.append_cancel_left_eq] at hout
    rw [← List.length_append, hout, List.length_map]
  refine ⟨acc.length, new.length, ?_, ?_, by omega, by omega⟩
  · rw [hacc, List.length_append]
  · rw [← hnew, List.length_append]

/-- Settles O56: RESET leaves `src` and `snk` and an empty queue, and a run from there delivers the rest. -/
theorem resetLosesQueueOnly : Obligations.ResetLosesQueueOnly := by
  intro s t u h hr hrun hfin
  cases hr
  have hall := finishedRunDelivers _ _ (blockInv_toReset h.depth h.snk_symbols) hrun hfin
  rwa [State.toReset_oq, List.append_nil] at hall

end Sys2Proof
end

