-- ==== Sys2Proof/Proofs/LineLaw.lean ====
section
/-! The line law (43_pwm_frame.md R124). MOD_LOAD puts a whole frame behind what has been driven, MOD_SHIFT moves its first
slot from the register to the line, MOD_IDLE appends an idle slot where no frame is under way; nothing else touches `tx`, `fr`
or `fcnt`. -/

namespace Sys2Proof

open Sys2Proof.Machine

theorem frameRest_of_fcnt_zero {s : State} (h : s.fcnt = 0#4) : frameRest s = [] := by rw [frameRest, h]; rfl

/-- A frame just loaded is the frame of its symbol. -/
theorem frameRest_loaded (s : State) (y : Byte) : frameRest (s.loaded y) = frame y := map_getLsbD_frameWord y

/-- MOD_SHIFT takes the first slot off the rest of the frame. -/
theorem frameRest_shifted {s : State} (hle : s.fcnt.toNat ≤ 10) (hne : s.fcnt ≠ 0#4) :
    s.fr.getLsbD 0 :: frameRest s.shifted = frameRest s := by
  have hcount : s.fcnt.toNat = (s.fcnt - 1#4).toNat + 1 := (toNat_fcnt_sub_one hle hne).symm
  have hslots : ∀ i ∈ List.range (s.fcnt - 1#4).toNat, (1#1 ++ s.fr.extractLsb' 1 9).getLsbD i = s.fr.getLsbD (i + 1) := by
    intro i hi
    have hlt : i < (s.fcnt - 1#4).toNat := List.mem_range.1 hi
    rw [getLsbD_shiftedReg _ (by omega), if_neg (by omega)]
  rw [frameRest, frameRest, hcount, List.range_succ_eq_map, List.map_cons, List.map_map, State.shifted_fcnt,
    State.shifted_fr, List.map_congr_left hslots]
  rfl

section
variable {before : List Byte} {s t : State} (h : LineLawFrom before s)
include h

/-- The law speaks of MOD, `snk` and the parameters only. -/
theorem LineLawFrom.of_same (hcfg : t.cfg = s.cfg) (hsnk : t.snk = s.snk) (hfr : t.fr = s.fr) (hfcnt : t.fcnt = s.fcnt)
    (htx : t.tx = s.tx) : LineLawFrom before t where
  fcnt_le := hfcnt ▸ h.fcnt_le
  line_of := by rw [hcfg, hsnk, htx, frameRest, hfr, hfcnt]; exact h.line_of
  mod_absent := by rw [hcfg, hfcnt, htx]; exact h.mod_absent

/-- Without the serialiser there is no line. -/
theorem LineLawFrom.delivered (hm : s.cfg.hasMod = false) (y : Byte) : LineLawFrom before (s.delivered y) where
  fcnt_le := h.fcnt_le
  line_of := fun hm' => by simp [hm] at hm'
  mod_absent := h.mod_absent

theorem LineLawFrom.loaded {y : Byte} (hn : loadHold s = none) : LineLawFrom before (s.loaded y) := by
  obtain ⟨hm, -, hidle, -⟩ := loadHold_eq_none.1 hn
  obtain ⟨since, hsnk, hline⟩ := h.line_of hm
  rw [frameRest_of_fcnt_zero hidle, List.append_nil] at hline
  refine ⟨le_refl 10, fun _ => ⟨since ++ [y], ?_, ?_⟩, fun hm' => by simp [hm] at hm'⟩
  · rw [State.loaded_snk, hsnk, List.append_assoc]
  · rw [frameRest_loaded]
    exact hline.frame y

theorem LineLawFrom.shifted (hn : shiftHold s = none) : LineLawFrom before s.shifted := by
  obtain ⟨hm, hne⟩ := shiftHold_eq_none.1 hn
  obtain ⟨since, hsnk, hline⟩ := h.line_of hm
  refine ⟨?_, fun _ => ⟨since, hsnk, ?_⟩, fun hm' => by simp [hm] at hm'⟩
  · have hcount := toNat_fcnt_sub_one h.fcnt_le hne
    have hle := h.fcnt_le
    rw [State.shifted_fcnt]
    omega
  · rwa [State.shifted_tx, List.append_assoc, List.singleton_append, frameRest_shifted h.fcnt_le hne]

theorem LineLawFrom.idled (hn : idleHold s = none) : LineLawFrom before s.idled := by
  obtain ⟨hm, hidle, -⟩ := idleHold_eq_none.1 hn
  obtain ⟨since, hsnk, hline⟩ := h.line_of hm
  rw [frameRest_of_fcnt_zero hidle, List.append_nil] at hline
  refine ⟨h.fcnt_le, fun _ => ⟨since, hsnk, ?_⟩, fun hm' => by simp [hm] at hm'⟩
  rw [frameRest_of_fcnt_zero (s := s.idled) hidle, List.append_nil]
  exact hline.idle

end

theorem lineLawFrom_keptByMoves (before : List Byte) : KeptByMoves (LineLawFrom before) (fun _ => True) where
  host h hstep := h.of_same (by rw [hstep]) (by rw [hstep]) (by rw [hstep]) (by rw [hstep]) (by rw [hstep])
  built h _ := h.of_same rfl rfl rfl rfl rfl
  accepted h _ _ _ := h.of_same rfl rfl rfl rfl rfl
  unbuilt _ _ _ _ := trivial
  delivered h hm _ _ := h.delivered hm _
  loaded h hn _ := h.loaded hn
  shifted := LineLawFrom.shifted
  idled := LineLawFrom.idled

/-- A RESET begins a new line, whatever MOD was doing (70_reset_and_hazards.md R150; log entry 12). -/
theorem lineLawFrom_toReset (s : State) : LineLawFrom s.snk s.toReset where
  fcnt_le := Nat.zero_le _
  line_of := fun _ => ⟨[], (List.append_nil _).symm, .nil⟩
  mod_absent := fun _ => ⟨rfl, rfl⟩

/-- A step that runs no RESET keeps the line and where it began. -/
theorem step_keeps_lineLawFrom {before : List Byte} {s t : State} (h : LineLawFrom before s)
    (hno : ∀ u, fetch s ≠ .run .reset u) (hr : step s = .next t) : LineLawFrom before t := by
  rcases step_next hr with ⟨i, rest, hf, hx⟩ | ⟨rest, l, io, hf, -⟩ | ⟨ht, -⟩
  · have hlaw : LineLawFrom before (s.advance rest) := h.of_same rfl rfl rfl rfl rfl
    have hanswers : Answers (LineLawFrom before) (fun _ => True) (exec i (s.advance rest)) :=
      exec_answers (lineLawFrom_keptByMoves before) hlaw fun hi => absurd (hi ▸ hf) (hno _)
    rwa [hx] at hanswers
  · exact absurd hf (hno _)
  · exact h.of_same (by rw [ht.frame]) (by rw [ht.frame]) (by rw [ht.frame]) (by rw [ht.frame]) (by rw [ht.frame])

/-- A step that runs RESET leaves `snk`, and the line begins there. -/
theorem step_reset_lineLawFrom {s t u : State} (hf : fetch s = .run .reset u) (hr : step s = .next t) :
    t.snk = s.snk ∧ LineLawFrom s.snk t := by
  have ht : t = u.toReset := by
    rw [step, hf] at hr
    exact (Host.Outcome.next.inj hr).symm
  have hsnk : u.snk = s.snk := by
    rcases fetch_run hf with ⟨rest, rfl⟩ | ⟨-, rest, l, io, rfl⟩ <;> rfl
  rw [ht, State.toReset_snk, hsnk]
  exact ⟨rfl, hsnk ▸ lineLawFrom_toReset u⟩

/-- Settles O49: by whether the step runs a RESET. -/
theorem lineLawKeptByStep : Obligations.LineLawKeptByStep := by
  refine ⟨fun s t ⟨before, h⟩ hr => ?_, fun before s t h hno hr => step_keeps_lineLawFrom h hno hr,
    fun s t u hf hr => step_reset_lineLawFrom hf hr⟩
  by_cases hreset : ∃ u, fetch s = .run .reset u
  · obtain ⟨u, hf⟩ := hreset
    exact ⟨s.snk, (step_reset_lineLawFrom hf hr).2⟩
  · exact ⟨before, step_keeps_lineLawFrom h (fun u hf => hreset ⟨u, hf⟩) hr⟩

/-- Settles O50: reset is RESET of a state with nothing delivered. -/
theorem lineLawAtReset : Obligations.LineLawAtReset := fun c => lineLawFrom_toReset { State.reset with cfg := c }

end Sys2Proof
end

