-- ==== Sys2Proof/Proofs/Writers.lean ====
section
/-! Who writes what (10_state.md R20, 20_memory.md R41, 42_host_encoder.md R100): the frame of each operation, read off what
it can do; and the operations that are held (00_scope.md R11). -/

namespace Sys2Proof

open Sys2Proof.Machine

/-! ### The frames of the operations -/

/-- The builder writes `MAP`, `bidx` and `ready`. -/
def BuilderFrame (s t : State) : Prop :=
  t = { s with map := t.map, bidx := t.bidx, ready := t.ready, hold := t.hold }

/-- LOOKUP writes the queue and takes from `src`; a sample accepted is one read of the source (log entry 19). -/
structure LookupFrame (s t : State) : Prop where
  frame : t = { s with oq := t.oq, src := t.src, io := t.io, hold := t.hold }
  io : t.io = s.io ∨ t.io = s.io.afterRead

/-- A delivery writes the queue, `snk` and, where MOD takes the symbol, the frame. -/
def DeliveryFrame (s t : State) : Prop :=
  t = { s with oq := t.oq, snk := t.snk, fr := t.fr, fcnt := t.fcnt, hold := t.hold }

/-- A slot writes MOD. -/
def SlotFrame (s t : State) : Prop :=
  t = { s with fr := t.fr, fcnt := t.fcnt, line := t.line, tx := t.tx, hold := t.hold }

/-- ENCODE writes the queue, the streams, MOD's frame and the host's own fields. -/
def EncodeFrame (s t : State) : Prop :=
  t = { s with
    oq := t.oq, src := t.src, snk := t.snk, fr := t.fr, fcnt := t.fcnt, text := t.text, enc := t.enc, io := t.io,
    ioErr := t.ioErr, hold := t.hold }

section
variable {s t : State}

theorem buildOne_frame (hr : buildOne s = .next t) : BuilderFrame s t := by
  rcases buildOne_next hr with ⟨k, -, rfl⟩ | ⟨-, v, -, rfl⟩ <;> rfl

theorem buildMany_frame {n : Nat} (hr : buildMany n s = .next t) : BuilderFrame s t := by
  refine buildMany_keeps (P := BuilderFrame s) (fun u v hu hv => ?_) (rfl : BuilderFrame s s) hr
  rw [BuilderFrame, buildOne_frame hv, hu]

theorem lookupOne_frame {x : Byte} (hr : lookupOne x s = .next t) : LookupFrame s t := by
  rcases lookupOne_next hr with ⟨k, rfl⟩ | ⟨-, -, v, -, rfl⟩
  · exact ⟨rfl, .inl rfl⟩
  · exact ⟨rfl, .inr rfl⟩

theorem loadOne_frame (hr : loadOne s = .next t) : DeliveryFrame s t := by
  rcases loadOne_next hr with ⟨k, rfl⟩ | ⟨-, y, rest, -, rfl⟩ <;> rfl

theorem emitOne_frame (hr : emitOne s = .next t) : DeliveryFrame s t := by
  rcases emitOne_next hr with ⟨k, rfl⟩ | ⟨-, -, y, rest, -, rfl⟩ | ⟨-, -, y, rest, -, rfl⟩ <;> rfl

theorem shiftOne_frame (hr : shiftOne s = .next t) : SlotFrame s t := by
  rcases shiftOne_next hr with ⟨k, rfl⟩ | ⟨-, rfl⟩ <;> rfl

theorem idleOne_frame (hr : idleOne s = .next t) : SlotFrame s t := by
  rcases idleOne_next hr with ⟨k, rfl⟩ | ⟨-, rfl⟩ <;> rfl

theorem encodeFrame_trans {u : State} (h : EncodeFrame s t) (k : EncodeFrame t u) : EncodeFrame s u := by
  unfold EncodeFrame at *
  rw [k, h]

theorem execEncode_frame (hr : execEncode s = .next t) : EncodeFrame s t := by
  refine execEncode_keeps (P := EncodeFrame s) (fun x u v hu hv => ?_) (fun u v hu hv => ?_) (fun u v hu hv => ?_)
    (rfl : EncodeFrame s s) hr
  all_goals refine encodeFrame_trans hu ?_
  · rw [EncodeFrame, (lookupOne_frame hv).frame]
  · rw [EncodeFrame, emitOne_frame hv]
  · rw [EncodeFrame, hv]

/-- QUANT is LOOKUP and then at most a delivery. -/
theorem quantOne_frame {x : Byte} (hr : quantOne x s = .next t) :
    ∃ u, LookupFrame s u ∧ DeliveryFrame u t := by
  rcases thenIfDone_next hr with ⟨hl, -⟩ | ⟨u, hl, -, he⟩
  · exact ⟨t, lookupOne_frame hl, rfl⟩
  · exact ⟨u, lookupOne_frame hl, emitOne_frame he⟩

end

/-- The parameters, the pins and the schedule are not written by any move. -/
theorem sameSetting_keptByMoves (s : State) : KeptByMoves (SameSetting s) (fun _ => True) where
  host h hstep := by rw [hstep]; exact h
  built h _ := h
  accepted h _ _ _ := h
  unbuilt _ _ _ _ := trivial
  delivered h _ _ _ := h
  loaded h _ _ := h
  shifted h _ := h
  idled h _ := h

theorem exec_sameSetting {i : Instr} {s t : State} (hr : exec i s = .next t) : SameSetting s t := by
  have hanswers : Answers (SameSetting s) (fun _ => True) (exec i s) :=
    exec_answers (sameSetting_keptByMoves s) ⟨rfl, rfl, rfl, rfl, rfl⟩ fun _ => ⟨rfl, rfl, rfl, rfl, rfl⟩
  rwa [hr] at hanswers

/-- Without the serialiser the moves of MOD are not enabled. -/
theorem sameMod_keptByMoves {s : State} (hm : s.cfg.hasMod = false) :
    KeptByMoves (fun u => u.cfg = s.cfg ∧ SameMod s u) (fun _ => True) where
  host h hstep := by rw [hstep]; exact h
  built h _ := h
  accepted h _ _ _ := h
  unbuilt _ _ _ _ := trivial
  delivered h _ _ _ := h
  loaded h hn _ := by simp [h.1, hm, loadHold_eq_none] at hn
  shifted h hn := by simp [h.1, hm, shiftHold_eq_none] at hn
  idled h hn := by simp [h.1, hm, idleHold_eq_none] at hn

/-- So no operation but RESET writes MOD then. -/
theorem exec_sameMod {i : Instr} {s t : State} (hm : s.cfg.hasMod = false) (hi : i ≠ .reset) (hr : exec i s = .next t) :
    SameMod s t := by
  have hanswers : Answers (fun u => u.cfg = s.cfg ∧ SameMod s u) (fun _ => True) (exec i s) :=
    exec_answers (sameMod_keptByMoves hm) ⟨rfl, rfl, rfl, rfl, rfl⟩ fun hreset => absurd hreset hi
  rw [hr] at hanswers
  exact hanswers.2

/-- Settles O53: each operation's frame says what it may write; what the serialiser's absence adds is `exec_sameMod`. -/
theorem writersOfState : Obligations.WritersOfState := by
  intro i s t hr
  refine ⟨exec_sameSetting hr, ?_⟩
  have hmod : s.cfg.hasMod = false → i ≠ .reset → SameMod s t := fun hm hi => exec_sameMod hm hi hr
  cases i with
  | reset => cases hr; simp
  | buildStep => rw [buildOne_frame hr]; simp [SameMod, SameHost]
  | lookup x =>
    obtain ⟨hframe, hio⟩ := lookupOne_frame hr
    rw [hframe]
    simpa [SameTables, SameMod] using hio
  | emit => rw [emitOne_frame hr] at hmod ⊢; simpa [SameTables, SameHost] using hmod
  | modLoad => rw [loadOne_frame hr] at hmod ⊢; simpa [SameTables, SameHost] using hmod
  | modShift => rw [shiftOne_frame hr] at hmod ⊢; simpa [SameTables, SameHost] using hmod
  | modIdle => rw [idleOne_frame hr] at hmod ⊢; simpa [SameTables, SameHost] using hmod
  | build => rw [buildMany_frame hr]; simp [SameMod, SameHost]
  | quant x =>
    obtain ⟨u, ⟨hframe, hio⟩, hdel⟩ := quantOne_frame hr
    rw [hdel, hframe] at hmod ⊢
    simpa [SameTables] using And.intro (fun hm => hmod hm nofun) hio
  | encode => rw [execEncode_frame hr] at hmod ⊢; simpa [SameTables] using hmod

/-- What an operation other than ENCODE and RESET leaves of the host's Encoder. -/
theorem exec_same_encoder {i : Instr} {s t : State} (hi : i ≠ .encode) (hi' : i ≠ .reset) (hr : exec i s = .next t) :
    t.text = s.text ∧ t.enc = s.enc ∧ t.ioErr = s.ioErr := by
  obtain ⟨-, -, -, -, -, -, -, hhost, -⟩ := writersOfState i s t hr
  obtain ⟨htext, henc, herr, -⟩ := hhost hi hi'
  exact ⟨htext, henc, herr⟩

/-! ### Operations that are held -/

/-- A state that is a hold, or has none, is a hold where it has one. -/
theorem eq_held_of_hold {s t : State} {h : Hold} (hold : t.hold = some h) (ht : (∃ k, t = s.held k) ∨ t.hold = none) :
    t = s.held h := by
  rcases ht with ⟨k, rfl⟩ | hnone
  · rw [Option.some.inj hold]
  · simp [hold] at hnone

/-- Settles O54: what an atomic operation does apart from a hold leaves no hold. -/
theorem heldStepChangesNothing : Obligations.HeldStepChangesNothing := by
  intro i s t h hbuild hquant hencode hr hold
  refine eq_held_of_hold hold ?_
  cases i with
  | reset => cases hr; exact .inr rfl
  | buildStep => exact (buildOne_next hr).imp (fun ⟨k, _, h⟩ => ⟨k, h⟩) fun ⟨_, v, _, h⟩ => by rw [h]; rfl
  | lookup x => exact (lookupOne_next hr).imp_right fun ⟨_, _, v, _, h⟩ => by rw [h]; rfl
  | emit =>
    rcases emitOne_next hr with hk | ⟨-, -, y, rest, -, rfl⟩ | ⟨-, -, y, rest, -, rfl⟩
    · exact .inl hk
    · exact .inr rfl
    · exact .inr rfl
  | modLoad => exact (loadOne_next hr).imp_right fun ⟨_, y, rest, _, h⟩ => by rw [h]; rfl
  | modShift => exact (shiftOne_next hr).imp_right fun ⟨_, h⟩ => by rw [h]; rfl
  | modIdle => exact (idleOne_next hr).imp_right fun ⟨_, h⟩ => by rw [h]; rfl
  | build => exact absurd rfl hbuild
  | quant x => exact absurd rfl (hquant x)
  | encode => exact absurd rfl hencode

/-- Settles O55: the parameters are the first thing that BUILD_STEP and MOD's steps test; a BUILD is held at its first step. -/
theorem absentOperationHeld : Obligations.AbsentOperationHeld := by
  intro i s habsent
  have hbuild : s.cfg.prebuilt = true → buildOne s = .next (s.held .notPresent) := fun hp => buildOne_of_hold (if_pos hp)
  cases i with
  | buildStep => exact hbuild (by simpa [Instr.present] using habsent)
  | build => exact thenIfDone_held (hbuild (by simpa [Instr.present] using habsent)) rfl _
  | modLoad => exact loadOne_of_hold (if_pos (by simpa [Instr.present] using habsent))
  | modShift => exact shiftOne_of_hold (if_pos (by simpa [Instr.present] using habsent))
  | modIdle => exact idleOne_of_hold (if_pos (by simpa [Instr.present] using habsent))
  | reset => cases habsent
  | lookup x => cases habsent
  | emit => cases habsent
  | quant x => cases habsent
  | encode => cases habsent

end Sys2Proof
end

