-- ==== Sys2Proof/Proofs/EncoderWrites.lean ====
section
/-! What the Encoder writes (42_host_encoder.md R101, R102, R108): the data lines of a stream, a line at a time; and a write
to the text sink, which either fits or ends the ENCODE. -/

namespace Sys2Proof

open Sys2Proof.Machine

/-! ### The data lines of a stream -/

/-- The data lines of a stream, `LINE_0 ++ ... ++ LINE_(L-1)` (42_host_encoder.md R101). -/
def dataLines (c : Config) (ys : List Byte) : List Byte := (chunks ys).flatMap (dataLine c)

theorem wholeText_eq (c : Config) (ys : List Byte) : wholeText c ys = preamble c ++ dataLines c ys ++ postamble c := rfl

@[simp] theorem dataLines_nil (c : Config) : dataLines c [] = [] := rfl

/-- A full chunk, or a last one, is a line of its own. -/
theorem dataLines_of_ne_nil (c : Config) {l : List Byte} (h : l ≠ []) :
    dataLines c l = dataLine c (l.take chunkSize) ++ dataLines c (l.drop chunkSize) := by
  rw [dataLines, chunks_of_ne_nil h, List.flatMap_cons]
  rfl

theorem dataLines_append (c : Config) {a : List Byte} (b : List Byte) (h : chunkSize ∣ a.length) :
    dataLines c (a ++ b) = dataLines c a ++ dataLines c b := by
  induction a using chunks_induction with
  | nil => rfl
  | step a ha ih =>
    have hpos : 0 < a.length := List.length_pos_iff.2 ha
    have hfull : chunkSize ≤ a.length := Nat.le_of_dvd hpos h
    have hrest : chunkSize ∣ (a.drop chunkSize).length := by
      rw [List.length_drop]
      exact Nat.dvd_sub h (dvd_refl _)
    rw [dataLines_of_ne_nil c (by simp [ha]), dataLines_of_ne_nil c ha, List.take_append_of_le_length hfull,
      List.drop_append_of_le_length hfull, ih hrest, List.append_assoc]

/-- The lines of whole chunks and the line of the next chunk. -/
theorem dataLines_take_add (c : Config) {l : List Byte} {k : Nat} (hk : chunkSize ∣ k) (hlt : k < l.length) :
    dataLines c (l.take (k + chunkSize)) = dataLines c (l.take k) ++ dataLine c ((l.drop k).take chunkSize) := by
  have hlen : (l.take k).length = k := List.length_take_of_le hlt.le
  have hne : (l.drop k).take chunkSize ≠ [] := by
    have hpos : 0 < ((l.drop k).take chunkSize).length := by rw [List.length_take, List.length_drop, chunkSize]; omega
    exact List.length_pos_iff.1 hpos
  have hlast : ((l.drop k).take chunkSize).drop chunkSize = [] := List.drop_eq_nil_iff.2 (List.length_take_le _ _)
  rw [List.take_add, dataLines_append c _ (hlen.symm ▸ hk), dataLines_of_ne_nil c hne, hlast, dataLines_nil,
    List.append_nil, List.take_take, min_self]

/-- PREAMBLE and the lines up to a chunk boundary begin the whole text. -/
theorem preamble_dataLines_prefix (c : Config) (l : List Byte) {k : Nat} (hk : chunkSize ∣ k) :
    preamble c ++ dataLines c (l.take k) <+: wholeText c l := by
  rcases le_total l.length k with hall | hpart
  · rw [List.take_of_length_le hall]
    exact List.prefix_append _ _
  · have hlen : (l.take k).length = k := List.length_take_of_le hpart
    have hsplit : dataLines c l = dataLines c (l.take k) ++ dataLines c (l.drop k) := by
      rw [← dataLines_append c _ (hlen.symm ▸ hk), List.take_append_drop]
    rw [wholeText_eq, hsplit, List.append_assoc, List.append_assoc, List.prefix_append_right_inj]
    exact List.prefix_append _ _

/-! ### Writing to the text sink -/

/-- The text sink takes `n` bytes more (42_host_encoder.md R108; log entry 19). -/
def Machine.HostIo.Takes (io : HostIo) (n : Nat) : Prop := ∀ m, io.writable = some m → n ≤ m

/-- The files after the text sink has taken `n` bytes. -/
def Machine.HostIo.afterWrite (io : HostIo) (n : Nat) : HostIo := { io with writable := io.writable.map (· - n) }

/-- The state after a write of which the text sink took `m` bytes: ENCODE has ended with the error (42_host_encoder.md R108). -/
def Machine.State.cutOff (s : State) (bs : List Byte) (m : Nat) : State :=
  State.abortEncode { s with text := s.text ++ bs.take m, io := { s.io with writable := some 0 } } .sinkUnwritable

theorem Machine.HostIo.not_takes {io : HostIo} {n : Nat} : ¬ io.Takes n ↔ ∃ m, io.writable = some m ∧ m < n := by
  simp [HostIo.Takes]

theorem Machine.HostIo.takes_unlimited {io : HostIo} (h : io.writable = none) (n : Nat) : io.Takes n := fun m hm => by
  simp [h] at hm

theorem Machine.HostIo.afterWrite_unlimited {io : HostIo} (h : io.writable = none) (n : Nat) : io.afterWrite n = io := by
  cases io
  simp_all [HostIo.afterWrite]

theorem Machine.HostIo.afterWrite_takes {io : HostIo} {m n : Nat} (h : io.Takes m) :
    (io.afterWrite m).Takes n ↔ io.Takes (m + n) := by
  unfold HostIo.Takes HostIo.afterWrite at *
  cases hw : io.writable with
  | none => simp
  | some w =>
    have hm : m ≤ w := h w hw
    simp only [Option.map_some, Option.some.injEq, forall_eq']
    omega

theorem textWrite_fits {s : State} {bs : List Byte} (h : s.io.Takes bs.length) :
    textWrite bs s = { s with text := s.text ++ bs, io := s.io.afterWrite bs.length } := by
  cases hw : s.io.writable with
  | none => rw [textWrite_unlimited hw, HostIo.afterWrite_unlimited hw]
  | some m => simp only [textWrite, hw, if_pos (h m hw), HostIo.afterWrite, Option.map_some]

theorem textWrite_cutOff {s : State} {bs : List Byte} {m : Nat} (hw : s.io.writable = some m) (hm : m < bs.length) :
    textWrite bs s = s.cutOff bs m := by
  simp only [textWrite, hw, if_neg (Nat.not_le.2 hm), State.cutOff]

/-! ### Reading the source -/

/-- The source answers `n` reads more (log entry 19). -/
def Machine.HostIo.Answers (io : HostIo) (n : Nat) : Prop := ∀ r, io.readable = some r → n ≤ r

/-- The files after the source has answered `n` reads. -/
def Machine.HostIo.afterReads (io : HostIo) (n : Nat) : HostIo := { io with readable := io.readable.map (· - n) }

theorem Machine.HostIo.not_answers {io : HostIo} {n : Nat} : ¬ io.Answers n ↔ ∃ r, io.readable = some r ∧ r < n := by
  simp [HostIo.Answers]

theorem Machine.HostIo.answers_unlimited {io : HostIo} (h : io.readable = none) (n : Nat) : io.Answers n := fun r hr => by
  simp [h] at hr

theorem Machine.HostIo.afterReads_unlimited {io : HostIo} (h : io.readable = none) (n : Nat) : io.afterReads n = io := by
  cases io
  simp_all [HostIo.afterReads]

theorem Machine.HostIo.answers_one {io : HostIo} : io.Answers 1 ↔ io.readable ≠ some 0 := by
  cases hr : io.readable with
  | none => simp [HostIo.Answers, hr]
  | some r => simp [HostIo.Answers, hr, Nat.one_le_iff_ne_zero]

theorem Machine.HostIo.afterReads_answers {io : HostIo} {m n : Nat} (h : io.Answers m) :
    (io.afterReads m).Answers n ↔ io.Answers (m + n) := by
  unfold HostIo.Answers HostIo.afterReads at *
  cases hw : io.readable with
  | none => simp
  | some w =>
    have hm : m ≤ w := h w hw
    simp only [Option.map_some, Option.some.injEq, forall_eq']
    omega

theorem Machine.HostIo.afterReads_add (io : HostIo) (m n : Nat) : (io.afterReads m).afterReads n = io.afterReads (m + n) := by
  simp [HostIo.afterReads, Function.comp_def, Nat.sub_sub]

theorem Machine.HostIo.afterWrite_add (io : HostIo) (m n : Nat) : (io.afterWrite m).afterWrite n = io.afterWrite (m + n) := by
  simp [HostIo.afterWrite, Function.comp_def, Nat.sub_sub]

theorem Machine.HostIo.Takes.mono {io : HostIo} {m n : Nat} (h : io.Takes n) (hmn : m ≤ n) : io.Takes m :=
  fun w hw => hmn.trans (h w hw)

theorem Machine.HostIo.Answers.mono {io : HostIo} {m n : Nat} (h : io.Answers n) (hmn : m ≤ n) : io.Answers m :=
  fun w hw => hmn.trans (h w hw)

/-! ### The three places where ENCODE writes -/

/-- A new ENCODE before it has written anything (42_host_encoder.md R101, step 1; log entries 20, 30). -/
def Machine.State.begun (s : State) : State :=
  { s with
    text := []
    ioErr := none
    enc := .filling (s.snk.length + s.oq.length) (s.snk.length + s.oq.length)
    hold := none }

theorem beginEncode_of_idle {s : State} (he : s.enc = .idle) : beginEncode s = textWrite (preamble s.cfg) s.begun := by
  rw [beginEncode, he]
  rfl

theorem beginEncode_of_filling {s : State} {base pos : Nat} (he : s.enc = .filling base pos) : beginEncode s = s := by
  rw [beginEncode, he]

/-- The characters of the next line. -/
def Machine.State.nextLine (s : State) (pos : Nat) : List Byte := dataLine s.cfg ((s.unwritten pos).take chunkSize)

theorem flushLine_fits {s : State} {base pos : Nat} (h : s.io.Takes (s.nextLine pos).length) :
    flushLine base pos s = { s with
      text := s.text ++ s.nextLine pos
      enc := .filling base (pos + ((s.unwritten pos).take chunkSize).length)
      io := s.io.afterWrite (s.nextLine pos).length } :=
  textWrite_fits h

theorem flushLine_cutOff {s : State} {base pos m : Nat} (hw : s.io.writable = some m)
    (hm : m < (s.nextLine pos).length) : flushLine base pos s = s.cutOff (s.nextLine pos) m :=
  textWrite_cutOff hw hm

theorem finishEncode_fits {s : State} (h : s.io.Takes (postamble s.cfg).length) :
    finishEncode s = { s with
      text := s.text ++ postamble s.cfg
      enc := .idle
      io := s.io.afterWrite (postamble s.cfg).length
      hold := none } := by
  rw [finishEncode, textWrite_fits h]

theorem finishEncode_cutOff {s : State} {m : Nat} (hw : s.io.writable = some m) (hm : m < (postamble s.cfg).length) :
    finishEncode s = s.cutOff (postamble s.cfg) m := by
  rw [finishEncode, textWrite_cutOff hw hm]
  rfl

/-- What the sink kept of a write that was cut off begins what should have been written. -/
theorem cutOff_text_prefix (s : State) (bs : List Byte) (m : Nat) : (s.cutOff bs m).text <+: s.text ++ bs :=
  (List.take_prefix _ _).trans ((List.prefix_append_right_inj _).2 (List.take_prefix _ _))

end Sys2Proof
end

