-- ==== Sys2Proof/Proofs/EncodeLaw.lean ====
section
/-! The law of an ENCODE under way (42_host_encoder.md R101, R109). The symbols delivered, on their way and still to come are
one list that no step of the block changes; the law says how far the text sink has come in it. A LOOKUP or an EMIT leaves the
text, a line takes it one chunk further, and the short last line is followed by POSTAMBLE in the same ENCODE, for which the
turns of the loop are enough. -/

namespace Sys2Proof

open Sys2Proof.Machine

/-- The symbols delivered, those on their way and those of the samples that the source still offers. -/
def Machine.State.symbols (s : State) : List Byte := s.snk ++ s.oq ++ s.src.map Q

theorem Forward.symbols_eq {s t : State} (h : Forward s t) : t.symbols = s.symbols := by
  obtain ⟨acc, hsrc, hout⟩ := h.streams
  rw [State.symbols, State.symbols, hout, hsrc, List.map_append, ← List.append_assoc]

theorem symbols_length (s : State) : s.symbols.length = s.snk.length + s.oq.length + s.src.length := by
  rw [State.symbols, List.length_append, List.length_append, List.length_map]

/-- Where the stream of an ENCODE begins in `State.symbols` (42_host_encoder.md R101; log entry 30). -/
def encodeBase (s : State) : Nat :=
  match s.enc with
  | .idle => s.snk.length + s.oq.length
  | .filling base _ => base

theorem symbols_drop {s : State} {n : Nat} (h : n ≤ s.snk.length + s.oq.length) :
    s.symbols.drop n = (s.snk ++ s.oq).drop n ++ s.src.map Q :=
  List.drop_append_of_le_length (by rwa [List.length_append])

/-- A part of `snk` is the same part of `State.symbols`. -/
theorem drop_take_symbols {s : State} {base n : Nat} (hb : base ≤ s.snk.length) (h : base + n ≤ s.snk.length) :
    (s.symbols.drop base).take n = (s.snk.drop base).take n := by
  rw [State.symbols, List.append_assoc, List.drop_append_of_le_length hb, List.take_append_of_le_length]
  rw [List.length_drop]
  omega

/-- The law of an ENCODE that stands at `pos`, with the text as lines of `State.symbols`. -/
structure Encoding (s : State) (base pos : Nat) : Prop where
  enc : s.enc = .filling base pos
  noErr : s.ioErr = none
  base_le : base ≤ pos
  pos_le : pos ≤ s.snk.length + s.oq.length
  entered : pos = base ∨ pos ≤ s.snk.length
  whole : chunkSize ∣ pos - base
  text : s.text = preamble s.cfg ++ dataLines s.cfg ((s.symbols.drop base).take (pos - base))

theorem encoding_iff {s : State} {base pos : Nat} :
    Encoding s base pos ↔ s.enc = .filling base pos ∧ s.ioErr = none ∧ base ≤ pos ∧ pos ≤ s.snk.length + s.oq.length ∧
      (pos = base ∨ pos ≤ s.snk.length) ∧ chunkSize ∣ pos - base ∧
      s.text = preamble s.cfg ++ (chunks ((s.snk.drop base).take (pos - base))).flatMap (dataLine s.cfg) := by
  have hsame : base ≤ pos → (pos = base ∨ pos ≤ s.snk.length) →
      (s.symbols.drop base).take (pos - base) = (s.snk.drop base).take (pos - base) := by
    rintro hb (rfl | hp)
    · simp
    · exact drop_take_symbols (by omega) (by omega)
  constructor
  · rintro ⟨he, hn, hb, hp, hs, hw, ht⟩
    exact ⟨he, hn, hb, hp, hs, hw, hsame hb hs ▸ ht⟩
  · rintro ⟨he, hn, hb, hp, hs, hw, ht⟩
    exact ⟨he, hn, hb, hp, hs, hw, (hsame hb hs).symm ▸ ht⟩

theorem EncodeLaw.encoding {s : State} {base pos : Nat} (h : EncodeLaw s) (he : s.enc = .filling base pos) :
    Encoding s base pos :=
  encoding_iff.2 ⟨he, h base pos he⟩

theorem encodeLaw_of_idle {s : State} (he : s.enc = .idle) : EncodeLaw s := fun base pos hf => by simp [he] at hf

theorem Encoding.encodeLaw {s : State} {base pos : Nat} (h : Encoding s base pos) : EncodeLaw s := fun base' pos' he => by
  rw [h.enc, EncPhase.filling.injEq] at he
  obtain ⟨rfl, rfl⟩ := he
  exact (encoding_iff.1 h).2

/-- A step of the block leaves an ENCODE where it stands. -/
theorem Encoding.of_forward {s t : State} {base pos : Nat} (h : Encoding s base pos) (hf : Forward s t)
    (henc : t.enc = s.enc) (herr : t.ioErr = s.ioErr) (htext : t.text = s.text) : Encoding t base pos where
  enc := henc.trans h.enc
  noErr := herr.trans h.noErr
  base_le := h.base_le
  pos_le := by
    obtain ⟨acc, -, hout⟩ := hf.streams
    have hlen := congrArg List.length hout
    have hpos := h.pos_le
    simp only [List.length_append] at hlen
    omega
  entered := h.entered.imp_right fun hp => hp.trans hf.snk_prefix.length_le
  whole := h.whole
  text := by rw [htext, hf.cfg, hf.symbols_eq]; exact h.text

/-! ### A line -/

section
variable {s : State} {base pos : Nat} (h : Encoding s base pos)
include h

/-- The text with the next line, where the next chunk is in `snk`. -/
theorem Encoding.text_nextLine (hlt : pos < s.symbols.length)
    (hchunk : (s.symbols.drop pos).take chunkSize = (s.unwritten pos).take chunkSize) :
    s.text ++ s.nextLine pos =
      preamble s.cfg ++ dataLines s.cfg ((s.symbols.drop base).take (pos - base + chunkSize)) := by
  have hb := h.base_le
  rw [h.text, dataLines_take_add _ h.whole (by rw [List.length_drop]; omega), List.drop_drop,
    Nat.add_sub_cancel' hb, hchunk, List.append_assoc]
  rfl

/-- The text so far begins the whole text. -/
theorem Encoding.text_prefix : s.text <+: wholeText s.cfg (s.symbols.drop base) :=
  h.text ▸ preamble_dataLines_prefix _ _ h.whole

/-- So it does with the next line, of which a sink that fails keeps a part. -/
theorem Encoding.text_nextLine_prefix (hlt : pos < s.symbols.length)
    (hchunk : (s.symbols.drop pos).take chunkSize = (s.unwritten pos).take chunkSize) :
    s.text ++ s.nextLine pos <+: wholeText s.cfg (s.symbols.drop base) := by
  rw [h.text_nextLine hlt hchunk]
  exact preamble_dataLines_prefix _ _ (dvd_add h.whole (dvd_refl _))

end

/-! ### The turns of the loop -/

/-- How many turns ENCODE takes at most from `pos` on (`encodeFuel`): each turn but a last one makes it less. -/
def turnsLeft (s : State) (pos : Nat) : Nat := 3 * s.src.length + 2 * s.oq.length + (s.snk.length - pos) + 2

theorem turnsLeft_emitOne {s u : State} (hr : emitOne s = .next u) (hu : u.hold = none) (pos : Nat) :
    turnsLeft u pos < turnsLeft s pos := by
  unfold turnsLeft
  rcases emitOne_next hr with ⟨k, rfl⟩ | ⟨-, -, y, rest, hq, rfl⟩ | ⟨-, -, y, rest, hq, rfl⟩
  · cases hu
  · simp [hq]; omega
  · simp [hq]; omega

theorem turnsLeft_lookupOne {x : Byte} {s u : State} (hr : lookupOne x s = .next u) (hu : u.hold = none) (pos : Nat) :
    turnsLeft u pos < turnsLeft s pos := by
  unfold turnsLeft
  rcases lookupOne_next hr with ⟨k, rfl⟩ | ⟨-, hx, v, -, rfl⟩
  · cases hu
  · obtain ⟨rest, hs⟩ := List.head?_eq_some_iff.1 hx
    simp [hs]; omega

/-- What an ENCODE of the stream `ys`, which begins at `base` in `snk`, ends in. -/
inductive EncodeOutcome (base : Nat) (ys : List Byte) (t : State) : Prop
  /-- It waits, where the law says. -/
  | waits (pos : Nat) (law : Encoding t base pos)
  /-- It has written the whole text of the symbols that `snk` has received. -/
  | ends (enc : t.enc = .idle) (noErr : t.ioErr = none) (text : t.text = wholeText t.cfg ys)
      (delivered : ys = t.snk.drop base) (src : t.src = [])
  /-- A file has failed. -/
  | fails (e : IoError) (enc : t.enc = .idle) (err : t.ioErr = some e) (text : t.text <+: wholeText t.cfg ys)
      (readable : e = .sourceUnreadable → t.io.readable = some 0) (writable : e = .sinkUnwritable → t.io.writable = some 0)

/-- A write that is cut off. -/
theorem outcome_cutOff {s : State} {base m : Nat} {ys bs : List Byte} (h : s.text ++ bs <+: wholeText s.cfg ys) :
    EncodeOutcome base ys (s.cutOff bs m) :=
  .fails .sinkUnwritable rfl rfl ((cutOff_text_prefix s bs m).trans h) nofun fun _ => rfl

theorem outcome_unreadable {s : State} {base : Nat} {ys : List Byte} (h : s.text <+: wholeText s.cfg ys)
    (hio : s.io.readable = some 0) : EncodeOutcome base ys (s.abortEncode .sourceUnreadable) :=
  .fails .sourceUnreadable rfl rfl ((List.take_prefix _ _).trans h) (fun _ => hio) nofun

/-- Once ENCODE has ended its turns do nothing. -/
theorem encodeLoop_of_idle {s : State} (he : s.enc = .idle) (n : Nat) : encodeLoop n s = .next s := by
  cases n with
  | zero => rfl
  | succ n => simp only [encodeLoop, he]

/-- A write in the loop: it is cut off and ENCODE has ended, or it fits. -/
theorem outcome_of_write {s t : State} {base pos n : Nat} {ys : List Byte}
    (hpre : s.text ++ s.nextLine pos <+: wholeText s.cfg ys) (hr : encodeLoop n (flushLine base pos s) = .next t)
    (hfit : s.io.Takes (s.nextLine pos).length → EncodeOutcome base ys t) : EncodeOutcome base ys t := by
  by_cases hw : s.io.Takes (s.nextLine pos).length
  · exact hfit hw
  · obtain ⟨m, hw, hm⟩ := HostIo.not_takes.1 hw
    rw [flushLine_cutOff hw hm, encodeLoop_of_idle rfl] at hr
    cases hr
    exact outcome_cutOff hpre

/-- The lines of the whole stream are written, and nothing of it is on its way. -/
structure AllWritten (s : State) (base pos : Nat) (ys : List Byte) : Prop where
  enc : s.enc = .filling base pos
  noErr : s.ioErr = none
  src : s.src = []
  delivered : ys = s.snk.drop base
  waiting : s.snk.length + s.oq.length ≤ pos
  text : s.text = preamble s.cfg ++ dataLines s.cfg ys

/-- POSTAMBLE ends the text. -/
theorem AllWritten.finish {s : State} {base pos : Nat} {ys : List Byte} (h : AllWritten s base pos ys) :
    EncodeOutcome base ys (finishEncode s.sourceRead) := by
  have hwhole : s.text ++ postamble s.cfg = wholeText s.cfg ys := by rw [h.text, wholeText_eq]
  by_cases hw : s.sourceRead.io.Takes (postamble s.sourceRead.cfg).length
  · rw [finishEncode_fits hw]
    exact .ends rfl h.noErr hwhole h.delivered h.src
  · obtain ⟨m, hw, hm⟩ := HostIo.not_takes.1 hw
    rw [finishEncode_cutOff hw hm]
    exact outcome_cutOff (hwhole ▸ List.prefix_refl _)

/-- The turn that finds the end of the stream. -/
theorem AllWritten.outcome {s t : State} {base pos n : Nat} {ys : List Byte} (h : AllWritten s base pos ys)
    (hr : encodeLoop (n + 1) s = .next t) : EncodeOutcome base ys t := by
  have hwait := h.waiting
  have hnone : s.unwritten pos = [] := List.drop_eq_nil_of_le (by omega)
  have hshort : (s.unwritten pos).length < chunkSize := by rw [hnone]; decide
  have hawait : s.awaited pos = false := by simp [State.awaited, hwait]
  by_cases hio : s.io.readable = some 0
  · rw [encodeLoop_unreadable h.enc hshort hawait hio] at hr
    cases hr
    exact outcome_unreadable (by rw [h.text, wholeText_eq]; exact List.prefix_append _ _) hio
  · rw [encodeLoop_nothing h.enc hshort hawait hio h.src, readNothing, hnone] at hr
    cases hr
    exact h.finish

theorem awaited_eq_false {s : State} {pos : Nat} :
    s.awaited pos = false ↔ s.oq = [] ∨ s.snk.length + s.oq.length ≤ pos := by
  rw [State.awaited, Bool.and_eq_false_iff, Bool.not_eq_false', List.isEmpty_iff, decide_eq_false_iff_not, not_lt]

theorem length_unwritten (s : State) (pos : Nat) : (s.unwritten pos).length = s.snk.length - pos := List.length_drop

/-- A chunk that is full in `snk` is the next chunk of the stream. -/
theorem full_chunk {s : State} {pos : Nat} (hc : chunkSize ≤ (s.unwritten pos).length) :
    pos < s.symbols.length ∧ (s.symbols.drop pos).take chunkSize = (s.unwritten pos).take chunkSize := by
  have hlen := length_unwritten s pos
  have hpos : 0 < chunkSize := by decide
  exact ⟨by rw [symbols_length]; omega, drop_take_symbols (by omega) (by omega)⟩

/-- So is a short one that ends the stream, and nothing of the stream is on its way. -/
theorem last_chunk {s : State} {pos : Nat} (hne : s.unwritten pos ≠ []) (ha : s.awaited pos = false) (hs : s.src = []) :
    s.oq = [] ∧ s.symbols = s.snk ∧ pos < s.symbols.length := by
  have hlen := length_unwritten s pos
  have hpos : 0 < (s.unwritten pos).length := List.length_pos_iff.2 hne
  have hq : s.oq = [] := (awaited_eq_false.1 ha).elim id fun hle => List.length_eq_zero_iff.1 (by omega)
  have hsym : s.symbols = s.snk := by rw [State.symbols, hs, hq, List.map_nil, List.append_nil, List.append_nil]
  exact ⟨hq, hsym, by rw [hsym]; omega⟩

section
variable {s : State} {base pos : Nat} (h : Encoding s base pos)
include h

/-- The files do not matter to the law. -/
theorem Encoding.sourceRead : Encoding s.sourceRead base pos := h.of_forward (.of_same rfl rfl rfl rfl) rfl rfl rfl

/-- The end of the stream after a full chunk, or of an empty one: everything is written. -/
theorem Encoding.allWritten (ha : s.awaited pos = false) (hs : s.src = []) (hu : s.snk.length ≤ pos) :
    AllWritten s base pos (s.symbols.drop base) := by
  have hsym : s.symbols = s.snk ++ s.oq := by rw [State.symbols, hs, List.map_nil, List.append_nil]
  have hwait : s.snk.length + s.oq.length ≤ pos := (awaited_eq_false.1 ha).elim (fun hq => by simpa [hq] using hu) id
  refine ⟨h.enc, h.noErr, hs, ?_, hwait, ?_⟩
  · rcases h.entered with rfl | hp
    · rw [hsym, List.drop_eq_nil_of_le (by rwa [List.length_append]), List.drop_eq_nil_of_le hu]
    · have hq : s.oq = [] := List.length_eq_zero_iff.1 (by omega)
      rw [hsym, hq, List.append_nil]
  · rw [h.text, List.take_of_length_le]
    rw [List.length_drop, hsym, List.length_append]
    omega

/-- The line of a full chunk takes the law one chunk further. -/
theorem Encoding.flushLine_full (hc : chunkSize ≤ (s.unwritten pos).length) (hw : s.io.Takes (s.nextLine pos).length) :
    Encoding (flushLine base pos s) base (pos + chunkSize) := by
  have hlen := length_unwritten s pos
  have hpos : 0 < chunkSize := by decide
  have hb := h.base_le
  obtain ⟨hlt, hchunk⟩ := full_chunk hc
  have htext := h.text_nextLine hlt hchunk
  rw [flushLine_fits hw, List.length_take_of_le hc]
  refine ⟨rfl, h.noErr, by omega, by show _ ≤ s.snk.length + s.oq.length; omega, .inr (by show _ ≤ s.snk.length; omega), ?_, ?_⟩
  · rw [Nat.sub_add_comm hb]
    exact dvd_add h.whole (dvd_refl _)
  · rw [Nat.sub_add_comm hb]
    exact htext

/-- The short line of the last chunk: everything is written. -/
theorem Encoding.flushLine_last (hc : (s.unwritten pos).length < chunkSize) (hne : s.unwritten pos ≠ [])
    (ha : s.awaited pos = false) (hs : s.src = []) (hw : s.io.Takes (s.nextLine pos).length) :
    AllWritten (flushLine base pos s) base (pos + (s.unwritten pos).length) (s.symbols.drop base) := by
  have hlen := length_unwritten s pos
  have hb := h.base_le
  obtain ⟨hq, hsym, hlt⟩ := last_chunk hne ha hs
  have htext := h.text_nextLine hlt (by rw [hsym]; rfl)
  rw [List.take_of_length_le (by rw [List.length_drop, hsym]; omega)] at htext
  rw [flushLine_fits hw, List.take_of_length_le hc.le]
  exact ⟨rfl, h.noErr, hs, by rw [hsym], by simp only [hq, List.length_nil]; omega, htext⟩

end

/-- An operation of the block leaves an ENCODE where it stands. -/
theorem Encoding.exec {i : Instr} {s u : State} {base pos : Nat} (h : Encoding s base pos) (hinv : BlockInv s)
    (hi : i ≠ .encode) (hi' : i ≠ .reset) (hr : exec i s = .next u) : Encoding u base pos := by
  obtain ⟨htext, henc, herr⟩ := exec_same_encoder hi hi' hr
  exact h.of_forward (exec_forward hinv hi' hr) henc herr htext

theorem Machine.HostStep.forward {s t : State} (h : HostStep s t) : Forward s t :=
  .of_same (by rw [h]) (by rw [h]) (by rw [h]) (by rw [h])

/-- A line leaves what is to do but for the symbols it writes. -/
theorem turnsLeft_flushLine {s : State} (base pos pos' : Nat) :
    turnsLeft (flushLine base pos s) pos' = turnsLeft s pos' := by
  rw [flushLine_host base pos s]
  rfl

/-- The loop, with turns enough, under the law. -/
theorem encodeLoop_outcome {n base pos : Nat} {s t : State} (hinv : BlockInv s) (h : Encoding s base pos)
    (hfuel : turnsLeft s pos ≤ n) (hr : encodeLoop n s = .next t) : EncodeOutcome base (s.symbols.drop base) t := by
  induction n generalizing s pos with
  | zero => cases hfuel
  | succ n ih =>
    have hblock : ∀ i : Instr, i ≠ .encode → i ≠ .reset →
        (∀ u, exec i s = .next u → u.hold = none → turnsLeft u pos < turnsLeft s pos) →
        thenIfDone (exec i s) (encodeLoop n) = .next t → EncodeOutcome base (s.symbols.drop base) t := by
      intro i hi hi' hless hr
      rcases thenIfDone_next hr with ⟨h1, -⟩ | ⟨u, h1, hu, h2⟩
      · exact .waits pos (h.exec hinv hi hi' h1)
      · have hlt := hless u h1 hu
        rw [← (exec_forward hinv hi' h1).symbols_eq]
        exact ih (exec_keeps_blockInv hinv h1) (h.exec hinv hi hi' h1) (by omega) h2
    rcases encodeLoop_cases hr with ⟨he, -⟩ | ⟨base', pos', he, hturn⟩
    · simp [h.enc] at he
    rw [h.enc, EncPhase.filling.injEq] at he
    obtain ⟨rfl, rfl⟩ := he
    rcases hturn with ⟨hc, hr⟩ | ⟨-, -, hr⟩ | ⟨-, -, hio, rfl⟩ | ⟨hc, ha, -, hs, hu, rfl⟩ | ⟨hc, ha, -, hs, hu, hr⟩ |
      ⟨-, -, -, x, l, -, ⟨-, hr⟩ | ⟨-, hr⟩⟩
    · obtain ⟨hlt, hchunk⟩ := full_chunk hc
      refine outcome_of_write (h.text_nextLine_prefix hlt hchunk) hr fun hw => ?_
      have hhost := flushLine_host base pos s
      have hless : turnsLeft s (pos + chunkSize) ≤ n := by
        have hlen := length_unwritten s pos
        have hsize : chunkSize = 32 := rfl
        unfold turnsLeft at hfuel ⊢
        omega
      rw [← hhost.forward.symbols_eq]
      exact ih (blockInv_keptByMoves.host hinv hhost) (h.flushLine_full hc hw) (by rwa [turnsLeft_flushLine]) hr
    · exact hblock .emit nofun nofun (fun u h1 hu => turnsLeft_emitOne h1 hu pos) hr
    · exact outcome_unreadable h.text_prefix hio
    · exact (h.allWritten ha hs (List.drop_eq_nil_iff.1 hu)).finish
    · obtain ⟨-, hsym, hlt⟩ := last_chunk hu ha hs
      have hchunk : (s.symbols.drop pos).take chunkSize = (s.unwritten pos).take chunkSize := by rw [hsym]; rfl
      refine outcome_of_write (h.sourceRead.text_nextLine_prefix hlt hchunk) hr fun hw => ?_
      obtain ⟨m, rfl⟩ : ∃ m, n = m + 1 := Nat.exists_eq_add_one_of_ne_zero (by unfold turnsLeft at hfuel; omega)
      exact (h.sourceRead.flushLine_last hc hu ha hs hw).outcome hr
    · exact hblock (.lookup x) nofun nofun (fun u h1 hu => turnsLeft_lookupOne h1 hu pos) hr
    · exact hblock .emit nofun nofun (fun u h1 hu => turnsLeft_emitOne h1 hu pos) hr

/-! ### ENCODE -/

/-- A new ENCODE whose PREAMBLE is written stands at the start of its stream. -/
theorem encoding_beginEncode {s : State} (he : s.enc = .idle) (hw : s.io.Takes (preamble s.cfg).length) :
    Encoding (beginEncode s) (encodeBase s) (encodeBase s) := by
  rw [beginEncode_of_idle he, textWrite_fits (s := s.begun) hw, encodeBase, he]
  exact ⟨rfl, rfl, le_rfl, le_rfl, .inl rfl, by simp, by simp [State.begun]⟩

theorem symbols_drop_encodeBase {s : State} (hlaw : EncodeLaw s) : s.symbols.drop (encodeBase s) = encodeStream s := by
  cases he : s.enc with
  | idle =>
    rw [encodeBase, encodeStream, he, symbols_drop le_rfl, List.drop_eq_nil_of_le (by rw [List.length_append]),
      List.nil_append]
  | filling base pos =>
    have h := hlaw.encoding he
    rw [encodeBase, encodeStream, he, symbols_drop (h.base_le.trans h.pos_le)]

/-- An ENCODE, new or going on. -/
theorem execEncode_outcome {s t : State} (hinv : BlockInv s) (hlaw : EncodeLaw s) (hr : exec .encode s = .next t) :
    EncodeOutcome (encodeBase s) (encodeStream s) t := by
  have hhost := beginEncode_host s
  have hloop : ∀ pos, Encoding (beginEncode s) (encodeBase s) pos → turnsLeft (beginEncode s) pos ≤ encodeFuel s →
      EncodeOutcome (encodeBase s) (encodeStream s) t := fun pos h hfuel => by
    rw [← symbols_drop_encodeBase hlaw, ← hhost.forward.symbols_eq]
    exact encodeLoop_outcome (blockInv_keptByMoves.host hinv hhost) h hfuel hr
  have hturns : ∀ pos, turnsLeft (beginEncode s) pos ≤ encodeFuel s := fun pos => by
    rw [hhost]
    unfold turnsLeft encodeFuel
    simp only
    omega
  cases he : s.enc with
  | idle =>
    by_cases hw : s.io.Takes (preamble s.cfg).length
    · exact hloop _ (encoding_beginEncode he hw) (hturns _)
    · obtain ⟨m, hw, hm⟩ := HostIo.not_takes.1 hw
      have hcut : exec .encode s = .next (s.begun.cutOff (preamble s.cfg) m) := by
        show encodeLoop (encodeFuel s) (beginEncode s) = _
        rw [beginEncode_of_idle he, textWrite_cutOff (s := s.begun) hw hm, encodeLoop_of_idle rfl]
      rw [hcut] at hr
      cases hr
      exact outcome_cutOff ((List.prefix_append _ _).trans (List.prefix_append _ _))
  | filling base pos =>
    have hbase : encodeBase s = base := by rw [encodeBase, he]
    refine hloop pos ?_ (hturns pos)
    rw [beginEncode_of_filling he, hbase]
    exact hlaw.encoding he

theorem exec_keeps_encodeLaw {i : Instr} {s t : State} (hinv : BlockInv s) (hlaw : EncodeLaw s) (hr : exec i s = .next t) :
    EncodeLaw t := by
  by_cases hreset : i = .reset
  · subst hreset
    cases hr
    exact encodeLaw_of_idle rfl
  by_cases hencode : i = .encode
  · subst hencode
    cases execEncode_outcome hinv hlaw hr with
    | waits pos law => exact law.encodeLaw
    | ends enc => exact encodeLaw_of_idle enc
    | fails e enc => exact encodeLaw_of_idle enc
  · intro base pos he
    have henc := (exec_same_encoder hencode hreset hr).2.1
    exact ((hlaw.encoding (henc ▸ he)).exec hinv hencode hreset hr).encodeLaw base pos he

/-- The host's turns leave what the law speaks of, or end the ENCODE. -/
theorem Machine.HostTurn.encodeLaw {s t : State} (ht : HostTurn s t) (hlaw : EncodeLaw s) : EncodeLaw t := by
  rcases ht.enc_same with henc | henc
  · intro base pos he
    rw [ht.frame]
    exact hlaw base pos (henc ▸ he)
  · exact encodeLaw_of_idle henc

/-- Settles O44: by what an ENCODE ends in, and because the other operations leave the Encoder and only extend `snk`. -/
theorem encodeLawKeptByStep : Obligations.EncodeLawKeptByStep := by
  refine ⟨fun s t hinv hlaw hr => ?_, fun s t base pos hinv hlaw he hr hidle hnone => ?_⟩
  · rcases step_next hr with ⟨i, rest, -, h⟩ | ⟨rest, l, io, -, rfl⟩ | ⟨ht, -⟩
    · exact exec_keeps_encodeLaw (hinv.advance rest) hlaw h
    · exact encodeLaw_of_idle rfl
    · exact ht.encodeLaw hlaw
  · have hcfg : t.cfg = s.cfg := (exec_sameSetting hr).1
    have hbase : encodeBase s = base := by rw [encodeBase, he]
    cases execEncode_outcome hinv hlaw hr with
    | waits pos law => simp [law.enc] at hidle
    | fails e _ err => simp [err] at hnone
    | ends _ _ text delivered => rw [text, delivered, hcfg, hbase]

end Sys2Proof
end

