-- ==== Sys2Proof/Proofs/EncodeFlow.lean ====
section
/-! ENCODE where the block takes every sample and the sink every symbol (42_host_encoder.md R101, R108, R109). Every turn of
the loop then goes forward, and what the ENCODE still needs of the files, the bytes to write and the reads to be answered, is
what the turn has used and what the state after it needs. So it ends with the whole text if the files have that much, and with
an error if not. -/

namespace Sys2Proof

open Sys2Proof.Machine

/-! ### What an ENCODE still needs -/

/-- The bytes that an ENCODE which stands at `pos` has still to write. -/
def bytesLeft (s : State) (pos : Nat) : Nat := (dataLines s.cfg (s.symbols.drop pos)).length + (postamble s.cfg).length

/-- The reads that it still asks for: one for each sample, one for the end of a chunk that is not full, and one for the end of
the stream. -/
def readsLeft (s : State) (pos : Nat) : Nat :=
  s.src.length + (if (s.symbols.drop pos).length % chunkSize = 0 then 1 else 2)

/-- The files have what it needs. -/
def FilesSuffice (s : State) (pos : Nat) : Prop := s.io.Takes (bytesLeft s pos) ∧ s.io.Answers (readsLeft s pos)

/-- The state in which it ends. -/
def Machine.State.encoded (s : State) (pos : Nat) : State :=
  { s with
    src := []
    snk := s.symbols
    oq := []
    text := s.text ++ dataLines s.cfg (s.symbols.drop pos) ++ postamble s.cfg
    enc := .idle
    io := (s.io.afterReads (readsLeft s pos)).afterWrite (bytesLeft s pos)
    hold := none }

/-- It ends in `done` if the files suffice, and with an error if not. -/
def EndsBy (suffice : Prop) (done : State) (r : Result) : Prop :=
  (suffice ∧ r = .next done) ∨ (¬ suffice ∧ ∃ t e, r = .next t ∧ t.enc = .idle ∧ t.ioErr = some e)

theorem EndsBy.of_cutOff {suffice : Prop} {done s : State} {bs : List Byte} {m : Nat} {r : Result} (hno : ¬ suffice)
    (hr : r = .next (s.cutOff bs m)) : EndsBy suffice done r :=
  .inr ⟨hno, _, .sinkUnwritable, hr, rfl, rfl⟩

theorem EndsBy.congr {p q : Prop} {d d' : State} {r : Result} (h : EndsBy p d r) (hpq : p ↔ q) (hd : d = d') :
    EndsBy q d' r := hpq.eq ▸ hd ▸ h

theorem FilesSuffice.answers_one {s : State} {pos : Nat} (h : FilesSuffice s pos) : s.io.Answers 1 := by
  refine h.2.mono ?_
  unfold readsLeft
  split <;> omega

/-- A turn that finds the source unreadable. -/
theorem EndsBy.of_unreadable {s done : State} {suffice : Prop} {r : Result} (hno : suffice → s.io.Answers 1)
    (hio : s.io.readable = some 0) (hr : r = .next (s.abortEncode .sourceUnreadable)) : EndsBy suffice done r :=
  .inr ⟨fun h => HostIo.answers_one.1 (hno h) hio, _, .sourceUnreadable, hr, rfl, rfl⟩

/-- Where the stream is written, one read and POSTAMBLE are left. -/
theorem left_of_nothingLeft {s : State} {pos : Nat} (hp : s.snk.length + s.oq.length ≤ pos) (hs : s.src = []) :
    readsLeft s pos = 1 ∧ bytesLeft s pos = (postamble s.cfg).length := by
  have hrest : s.symbols.drop pos = [] := List.drop_eq_nil_of_le (by rw [symbols_length, hs]; exact hp)
  simp [bytesLeft, readsLeft, hrest, hs]

/-- The last turn: nothing is left but POSTAMBLE. Symbols that wait in the queue are not of this stream (log entry 30). -/
theorem encodeLoop_nothingLeft {base pos : Nat} {s : State} (n : Nat) (he : s.enc = .filling base pos)
    (hp : s.snk.length + s.oq.length ≤ pos) (hs : s.src = []) :
    EndsBy (s.io.Takes (postamble s.cfg).length ∧ s.io.Answers 1)
      { s with
        text := s.text ++ postamble s.cfg
        enc := .idle
        io := (s.io.afterReads 1).afterWrite (postamble s.cfg).length
        hold := none }
      (encodeLoop (n + 1) s) := by
  have hnone : s.unwritten pos = [] := List.drop_eq_nil_of_le (by omega)
  have hshort : (s.unwritten pos).length < chunkSize := by rw [hnone]; decide
  have hawait : s.awaited pos = false := awaited_eq_false.2 (.inr hp)
  by_cases hio : s.io.readable = some 0
  · exact .of_unreadable And.right hio (encodeLoop_unreadable he hshort hawait hio)
  · rw [encodeLoop_nothing he hshort hawait hio hs, readNothing, hnone]
    by_cases hw : s.sourceRead.io.Takes (postamble s.sourceRead.cfg).length
    · exact .inl ⟨⟨hw, HostIo.answers_one.2 hio⟩, congrArg _ (finishEncode_fits hw)⟩
    · obtain ⟨m, hm, hlt⟩ := HostIo.not_takes.1 hw
      exact .of_cutOff (fun h => hw h.1) (congrArg _ (finishEncode_cutOff hm hlt))

/-- Where the source and the queue are empty the block is left as it is. -/
theorem encoded_of_drained {s : State} (hs : s.src = []) (hq : s.oq = []) (pos : Nat) :
    s.encoded pos = { s with
      text := s.text ++ dataLines s.cfg (s.snk.drop pos) ++ postamble s.cfg
      enc := .idle
      io := (s.io.afterReads (readsLeft s pos)).afterWrite (bytesLeft s pos)
      hold := none } := by
  have hsym : s.symbols = s.snk := by rw [State.symbols, hs, hq, List.map_nil, List.append_nil, List.append_nil]
  rw [State.encoded, hsym]
  simp only [hs, hq]

/-! ### The turns -/

/-- The block takes every sample, and the sink every symbol, without the serialiser. -/
structure Flowing (s : State) : Prop where
  inv : BlockInv s
  ready : s.ready = true
  rst : s.rst = false
  accepts : s.sinkAccepts = true
  noMod : s.cfg.hasMod = false

theorem Flowing.emitOne {s : State} (h : Flowing s) {y : Byte} {rest : List Byte} (hq : s.oq = y :: rest) :
    Machine.emitOne s = .next (s.delivered y) :=
  emitOne_delivered h.noMod h.rst hq h.accepts

theorem Flowing.lookupOne {s : State} (h : Flowing s) {x : Byte} {rest : List Byte} (hq : s.oq = []) (hs : s.src = x :: rest)
    (hio : s.io.readable ≠ some 0) : Machine.lookupOne x s = .next (s.accepted (Q x)) :=
  lookupOne_accepted h.inv (lookupHold_drained h.inv h.ready h.rst hq hio (by simp [hs])) hs

/-- A write that fits leaves the block and the sink as they are. -/
theorem Flowing.of_host {s t : State} (h : Flowing s) (hstep : HostStep s t) (herr : t.ioErr = s.ioErr) : Flowing t where
  inv := blockInv_keptByMoves.host h.inv hstep
  ready := by rw [hstep]; exact h.ready
  rst := by rw [hstep]; exact h.rst
  accepts := by rw [State.sinkAccepts, herr, hstep]; exact h.accepts
  noMod := by rw [hstep]; exact h.noMod

theorem Flowing.delivered {s : State} (h : Flowing s) {y : Byte} {rest : List Byte} (hq : s.oq = y :: rest) :
    Flowing (s.delivered y) :=
  ⟨h.inv.delivered hq, h.ready, h.rst, h.accepts, h.noMod⟩

theorem Flowing.accepted {s : State} (h : Flowing s) {x : Byte} {rest : List Byte} (hq : s.oq = []) (hs : s.src = x :: rest)
    (hio : s.io.readable ≠ some 0) : Flowing (s.accepted (Q x)) := by
  have hinv : BlockInv (s.accepted (Q x)) := exec_keeps_blockInv (i := .lookup x) h.inv (h.lookupOne hq hs hio)
  exact ⟨hinv, h.ready, h.rst, h.accepts, h.noMod⟩

/-- A delivery leaves what the ENCODE needs and where it ends. -/
theorem suffice_delivered {s : State} {y : Byte} {rest : List Byte} (hq : s.oq = y :: rest) (pos : Nat) :
    (FilesSuffice (s.delivered y) pos ↔ FilesSuffice s pos) ∧ (s.delivered y).encoded pos = s.encoded pos := by
  have hsym := (forward_delivered hq).symbols_eq
  have hbytes : bytesLeft (s.delivered y) pos = bytesLeft s pos := by rw [bytesLeft, hsym]; rfl
  have hreads : readsLeft (s.delivered y) pos = readsLeft s pos := by rw [readsLeft, hsym]; rfl
  constructor
  · rw [FilesSuffice, hbytes, hreads]; rfl
  · rw [State.encoded, hsym, hbytes, hreads]; rfl

/-- An accepted sample uses one read. -/
theorem suffice_accepted {s : State} {x : Byte} {rest : List Byte} (hs : s.src = x :: rest)
    (hio : s.io.readable ≠ some 0) (pos : Nat) :
    (FilesSuffice (s.accepted (Q x)) pos ↔ FilesSuffice s pos) ∧ (s.accepted (Q x)).encoded pos = s.encoded pos := by
  have hsym := (forward_accepted (s := s) (x := x) (by rw [hs, List.head?_cons])).symbols_eq
  have hbytes : bytesLeft (s.accepted (Q x)) pos = bytesLeft s pos := by rw [bytesLeft, hsym]; rfl
  have hreads : readsLeft s pos = 1 + readsLeft (s.accepted (Q x)) pos := by
    rw [readsLeft, readsLeft, hsym, State.accepted_src, hs, List.tail_cons, List.length_cons]
    omega
  constructor
  · rw [FilesSuffice, FilesSuffice, hbytes, hreads, ← HostIo.afterReads_answers (HostIo.answers_one.2 hio)]
    rfl
  · rw [State.encoded, State.encoded, hsym, hbytes, hreads, ← HostIo.afterReads_add]
    rfl

/-- The next chunk of the stream is the next one in `snk`. -/
def ChunkInSnk (s : State) (pos : Nat) : Prop :=
  s.symbols.drop pos ≠ [] ∧ (s.symbols.drop pos).take chunkSize = (s.unwritten pos).take chunkSize

theorem chunkInSnk_of_full {s : State} {pos : Nat} (hc : chunkSize ≤ (s.unwritten pos).length) : ChunkInSnk s pos := by
  obtain ⟨hlt, hchunk⟩ := full_chunk hc
  exact ⟨by simpa using hlt, hchunk⟩

/-- The bytes that are left are those of the next line and those left after it. -/
theorem dataLines_nextLine {s : State} {pos : Nat} (h : ChunkInSnk s pos) :
    dataLines s.cfg (s.symbols.drop pos) =
      s.nextLine pos ++ dataLines s.cfg (s.symbols.drop (pos + chunkSize)) := by
  rw [dataLines_of_ne_nil _ h.1, h.2, List.drop_drop]
  rfl

/-- A line that does not fit ends the ENCODE, and the files did not suffice. -/
theorem endsBy_of_line {s done : State} {n base pos : Nat} {suffice : Prop}
    (hbytes : suffice → s.io.Takes (s.nextLine pos).length)
    (hfit : s.io.Takes (s.nextLine pos).length → EndsBy suffice done (encodeLoop n (flushLine base pos s))) :
    EndsBy suffice done (encodeLoop n (flushLine base pos s)) := by
  by_cases hw : s.io.Takes (s.nextLine pos).length
  · exact hfit hw
  · obtain ⟨m, hm, hlt⟩ := HostIo.not_takes.1 hw
    rw [flushLine_cutOff hm hlt]
    exact .of_cutOff (mt hbytes hw) (encodeLoop_of_idle rfl n)

theorem nextLine_length_le_bytesLeft {s : State} {pos : Nat} (h : ChunkInSnk s pos) :
    (s.nextLine pos).length ≤ bytesLeft s pos := by
  rw [bytesLeft, dataLines_nextLine h, List.length_append]
  omega

/-- The line of a full chunk uses its bytes. -/
theorem suffice_flushLine_full {s : State} {base pos : Nat} (hc : chunkSize ≤ (s.unwritten pos).length)
    (hw : s.io.Takes (s.nextLine pos).length) :
    (FilesSuffice (flushLine base pos s) (pos + chunkSize) ↔ FilesSuffice s pos) ∧
      (flushLine base pos s).encoded (pos + chunkSize) = s.encoded pos := by
  have hchunk := chunkInSnk_of_full hc
  have hlen := length_unwritten s pos
  have hcfg : (flushLine base pos s).cfg = s.cfg := (flushLine_host base pos s).forward.cfg
  have hsym : (flushLine base pos s).symbols = s.symbols := (flushLine_host base pos s).forward.symbols_eq
  have hsrc : (flushLine base pos s).src = s.src := by rw [flushLine_host base pos s]
  have hbytes : bytesLeft s pos = (s.nextLine pos).length + bytesLeft (flushLine base pos s) (pos + chunkSize) := by
    rw [bytesLeft, bytesLeft, hsym, hcfg, dataLines_nextLine hchunk, List.length_append, Nat.add_assoc]
  have hreads : readsLeft (flushLine base pos s) (pos + chunkSize) = readsLeft s pos := by
    have hmod : (s.symbols.length - (pos + chunkSize)) % chunkSize = (s.symbols.length - pos) % chunkSize := by
      rw [symbols_length]
      rw [chunkSize] at hc ⊢
      omega
    rw [readsLeft, readsLeft, hsym, hsrc, List.length_drop, List.length_drop, hmod]
  constructor
  · rw [FilesSuffice, FilesSuffice, hreads, hbytes, ← HostIo.afterWrite_takes hw, flushLine_fits hw]
    rfl
  · rw [State.encoded, State.encoded, hsym, hreads, hbytes, ← HostIo.afterWrite_add, hcfg, dataLines_nextLine hchunk,
      flushLine_fits hw]
    simp only [List.append_assoc]
    rfl

/-- The end of the stream in the middle of a chunk: the short line, and then POSTAMBLE. -/
theorem endsBy_lastLine {s : State} {n base pos : Nat} (hc : (s.unwritten pos).length < chunkSize)
    (hne : s.unwritten pos ≠ []) (ha : s.awaited pos = false) (hs : s.src = []) (hio : s.io.readable ≠ some 0) :
    EndsBy (FilesSuffice s pos) (s.encoded pos) (encodeLoop (n + 1) (flushLine base pos s.sourceRead)) := by
  obtain ⟨hq, hsym, hlt⟩ := last_chunk hne ha hs
  have hlen := length_unwritten s pos
  have hchunk : ChunkInSnk s pos := ⟨by simpa using hlt, by rw [hsym]; rfl⟩
  have hdone : s.symbols.drop (pos + chunkSize) = [] := List.drop_eq_nil_of_le (by rw [hsym]; omega)
  have hline := dataLines_nextLine hchunk
  rw [hdone, dataLines_nil, List.append_nil] at hline
  have hbytes : bytesLeft s pos = (s.nextLine pos).length + (postamble s.cfg).length := by rw [bytesLeft, hline]
  have hsym_line : s.nextLine pos = dataLines s.cfg (s.snk.drop pos) := by rw [← hline, hsym]
  have hreads : readsLeft s pos = 1 + 1 := by
    have hshort : (s.symbols.drop pos).length % chunkSize ≠ 0 := by
      rw [List.length_drop, hsym] at *
      rw [chunkSize] at *
      omega
    rw [readsLeft, if_neg hshort, hs]
    rfl
  refine endsBy_of_line (fun h => h.1.mono (nextLine_length_le_bytesLeft hchunk)) fun hw => ?_
  have hu := flushLine_fits (base := base) hw
  rw [List.take_of_length_le (l := s.sourceRead.unwritten pos) hc.le] at hu
  rw [hu]
  refine EndsBy.congr (encodeLoop_nothingLeft (base := base) (pos := pos + (s.unwritten pos).length) n ?_ ?_ ?_) ?_ ?_
  · rfl
  · show s.snk.length + s.oq.length ≤ pos + (s.unwritten pos).length
    rw [hq, List.length_nil]
    omega
  · exact hs
  · rw [FilesSuffice, hbytes, hreads, ← HostIo.afterReads_answers (HostIo.answers_one.2 hio)]
    exact and_congr_left' (HostIo.afterWrite_takes hw)
  · rw [encoded_of_drained hs hq, ← hsym_line, hbytes, hreads, ← HostIo.afterWrite_add, ← HostIo.afterReads_add]
    rfl

/-- The whole of ENCODE from `pos` on. -/
theorem encodeLoop_flow {n base pos : Nat} {s : State} (h : Flowing s) (he : s.enc = .filling base pos)
    (hp : pos ≤ s.snk.length + s.oq.length) (hwork : s.src ≠ [] ∨ s.oq = [] ∨ pos < s.snk.length + s.oq.length)
    (hfuel : turnsLeft s pos ≤ n) : EndsBy (FilesSuffice s pos) (s.encoded pos) (encodeLoop n s) := by
  induction n generalizing s pos with
  | zero => cases hfuel
  | succ n ih =>
    have hlen := length_unwritten s pos
    have hemit : ∀ {y rest}, s.oq = y :: rest → (s.src ≠ [] ∨ pos < s.snk.length + s.oq.length) →
        EndsBy (FilesSuffice s pos) (s.encoded pos) (thenIfDone (emitOne s) (encodeLoop n)) := by
      intro y rest hq hmore
      have hr := h.emitOne hq
      have hless := turnsLeft_emitOne hr rfl pos
      have hsame : (s.delivered y).snk.length + (s.delivered y).oq.length = s.snk.length + s.oq.length := by
        simp [hq]; omega
      obtain ⟨hsuffice, hdone⟩ := suffice_delivered hq pos
      rw [thenIfDone_done hr rfl]
      exact (ih (h.delivered hq) he (hsame ▸ hp) (hmore.imp_right fun hlt => .inr (hsame ▸ hlt)) (by omega)).congr hsuffice
        hdone
    by_cases hc : chunkSize ≤ (s.unwritten pos).length
    · rw [encodeLoop_flush he hc]
      refine endsBy_of_line (fun h => h.1.mono (nextLine_length_le_bytesLeft (chunkInSnk_of_full hc))) fun hw => ?_
      obtain ⟨hsuffice, hdone⟩ := suffice_flushLine_full (base := base) hc hw
      have hhost := flushLine_host base pos s
      have hu := flushLine_fits (base := base) hw
      have hpos : 0 < chunkSize := by decide
      refine EndsBy.congr (ih (pos := pos + chunkSize) (h.of_host hhost (by rw [hu])) ?_ ?_ ?_ ?_) hsuffice hdone
      · rw [hu, List.length_take_of_le hc]
      · rw [hhost]
        show pos + chunkSize ≤ s.snk.length + s.oq.length
        omega
      · rw [hhost]
        show s.src ≠ [] ∨ s.oq = [] ∨ pos + chunkSize < s.snk.length + s.oq.length
        rcases hq : s.oq with _ | ⟨y, rest⟩
        · exact .inr (.inl rfl)
        · exact .inr (.inr (by rw [List.length_cons]; omega))
      · rw [turnsLeft_flushLine]
        unfold turnsLeft at hfuel ⊢
        omega
    have hc := Nat.not_le.1 hc
    cases ha : s.awaited pos with
    | true =>
      rw [encodeLoop_emit he hc ha]
      obtain ⟨hq, hlt⟩ : s.oq ≠ [] ∧ pos < s.snk.length + s.oq.length := by simpa [State.awaited] using ha
      obtain ⟨y, rest, hq⟩ := List.exists_cons_of_ne_nil hq
      exact hemit hq (.inr hlt)
    | false =>
      by_cases hio : s.io.readable = some 0
      · exact .of_unreadable FilesSuffice.answers_one hio (encodeLoop_unreadable he hc ha hio)
      cases hs : s.src with
      | nil =>
        by_cases hne : s.unwritten pos = []
        · have hq : s.oq = [] := by
            have hle := awaited_eq_false.1 ha
            have hq := hwork.resolve_left (by simp [hs])
            exact hq.elim id fun hlt => hle.elim id fun hle => absurd hlt (Nat.not_lt.2 hle)
          have hwait : s.snk.length + s.oq.length ≤ pos := by
            rw [hq, List.length_nil]
            exact List.drop_eq_nil_iff.1 hne
          obtain ⟨hreads, hbytes⟩ := left_of_nothingLeft hwait hs
          refine EndsBy.congr (encodeLoop_nothingLeft n he hwait hs) (by rw [FilesSuffice, hreads, hbytes]) ?_
          rw [encoded_of_drained hs hq, hreads, hbytes, List.drop_eq_nil_iff.2 (List.drop_eq_nil_iff.1 hne), dataLines_nil,
            List.append_nil]
        · rw [encodeLoop_nothing he hc ha hio hs, readNothing, if_neg (by simpa using hne)]
          obtain ⟨m, rfl⟩ : ∃ m, n = m + 1 := Nat.exists_eq_add_one_of_ne_zero (by unfold turnsLeft at hfuel; omega)
          exact endsBy_lastLine hc hne ha hs hio
      | cons x l =>
        rw [encodeLoop_sample he hc ha hio hs, readSample]
        by_cases hq : s.oq = []
        · have hr := h.lookupOne hq hs hio
          have hless := turnsLeft_lookupOne hr rfl pos
          obtain ⟨hsuffice, hdone⟩ := suffice_accepted hs hio pos
          have hgrown : pos < (s.accepted (Q x)).snk.length + (s.accepted (Q x)).oq.length := by
            rw [State.accepted_snk, State.accepted_oq, List.length_append, List.length_singleton]
            omega
          rw [if_pos (List.isEmpty_iff.2 hq), thenIfDone_done hr rfl]
          exact (ih (h.accepted hq hs hio) he hgrown.le (.inr (.inr hgrown)) (by omega)).congr hsuffice hdone
        · obtain ⟨y, rest, hq'⟩ := List.exists_cons_of_ne_nil hq
          rw [if_neg (mt List.isEmpty_iff.1 hq)]
          exact hemit hq' (.inl (by simp [hs]))

end Sys2Proof
end

