-- ==== Sys2Proof/Proofs/Encode.lean ====
section
/-! ENCODE from end to end (42_host_encoder.md R101, R108, R109, R111): a new one and one that goes on, with files that
suffice and with files that fail, and the places where the block holds it. -/

namespace Sys2Proof

open Sys2Proof.Machine

/-! ### The start and the end -/

theorem execEncode_of_filling {s : State} {base pos : Nat} (he : s.enc = .filling base pos) :
    exec .encode s = encodeLoop (encodeFuel s) s := by
  show encodeLoop _ (beginEncode s) = _
  rw [beginEncode_of_filling he]

/-- A new ENCODE that has written PREAMBLE. -/
def Machine.State.opened (s : State) : State :=
  { s with
    text := preamble s.cfg
    ioErr := none
    enc := .filling (s.snk.length + s.oq.length) (s.snk.length + s.oq.length)
    io := s.io.afterWrite (preamble s.cfg).length
    hold := none }

theorem execEncode_of_idle {s : State} (he : s.enc = .idle) (hw : s.io.Takes (preamble s.cfg).length) :
    exec .encode s = encodeLoop (encodeFuel s) s.opened := by
  show encodeLoop _ (beginEncode s) = _
  rw [beginEncode_of_idle he, textWrite_fits (s := s.begun) hw]
  rfl

/-- PREAMBLE that is cut off ends a new ENCODE. -/
theorem execEncode_cutOff {s : State} {m : Nat} (he : s.enc = .idle) (hm : s.io.writable = some m)
    (hlt : m < (preamble s.cfg).length) : exec .encode s = .next (s.begun.cutOff (preamble s.cfg) m) := by
  show encodeLoop _ (beginEncode s) = _
  rw [beginEncode_of_idle he, textWrite_cutOff (s := s.begun) hm hlt, encodeLoop_of_idle rfl]

theorem EndsBy.done {p : Prop} {d : State} {r : Result} (h : EndsBy p d r) (hp : p) : r = .next d :=
  h.elim And.right fun hno => absurd hp hno.1

/-- Where the files decide, an error is surfaced exactly when they do not suffice. -/
theorem EndsBy.error_iff {p : Prop} {d : State} {r : Result} (h : EndsBy p d r) (henc : d.enc = .idle)
    (herr : d.ioErr = none) : ∃ t, r = .next t ∧ t.enc = .idle ∧ ((∃ e, t.ioErr = some e) ↔ ¬ p) := by
  rcases h with ⟨hp, hr⟩ | ⟨hp, t, e, hr, hidle, he⟩
  · exact ⟨d, hr, henc, by simp [herr, hp]⟩
  · exact ⟨t, hr, hidle, by simp [he, hp]⟩

theorem not_suffice_iff {io : HostIo} {m n : Nat} : ¬ (io.Takes m ∧ io.Answers n) ↔
    (∃ w, io.writable = some w ∧ w < m) ∨ (∃ r, io.readable = some r ∧ r < n) := by
  rw [not_and_or, HostIo.not_takes, HostIo.not_answers]

/-! ### A new ENCODE -/

theorem symbols_drop_opened (s : State) : s.opened.symbols.drop (s.snk.length + s.oq.length) = s.src.map Q := by
  refine (symbols_drop (s := s.opened) le_rfl).trans ?_
  show (s.snk ++ s.oq).drop (s.snk.length + s.oq.length) ++ s.src.map Q = _
  rw [List.drop_eq_nil_of_le (by rw [List.length_append]), List.nil_append]

/-- A new ENCODE needs a whole text and the reads of its stream. -/
theorem filesSuffice_opened {s : State} (hw : s.io.Takes (preamble s.cfg).length) :
    FilesSuffice s.opened (s.snk.length + s.oq.length) ↔
      s.io.Takes (wholeText s.cfg (s.src.map Q)).length ∧ s.io.Answers (encodeReads s.src.length) := by
  have hlen : (wholeText s.cfg (s.src.map Q)).length =
      (preamble s.cfg).length + bytesLeft s.opened (s.snk.length + s.oq.length) := by
    rw [bytesLeft, symbols_drop_opened, wholeText_eq, List.append_assoc, List.length_append, List.length_append]
    rfl
  have hreads : readsLeft s.opened (s.snk.length + s.oq.length) = encodeReads s.src.length := by
    rw [readsLeft, symbols_drop_opened, List.length_map]
    rfl
  rw [FilesSuffice, hreads, hlen, ← HostIo.afterWrite_takes hw]
  rfl

/-- The conditions under which the block takes every sample and the sink every symbol of a new ENCODE, which knows of no
error. -/
theorem flowing_opened {s : State} (h : BlockInv s) (hready : s.ready = true) (hrst : s.rst = false) (haccepts : s.mReady = true)
    (hm : s.cfg.hasMod = false) : Flowing s.opened :=
  ⟨h.of_sameBlock rfl, hready, hrst, sinkAccepts_eq_true.2 ⟨haccepts, nofun⟩, hm⟩

theorem turnsLeft_opened (s : State) : turnsLeft s.opened (s.snk.length + s.oq.length) ≤ encodeFuel s := by
  show 3 * s.src.length + 2 * s.oq.length + (s.snk.length - _) + 2 ≤ 3 * s.src.length + 2 * s.oq.length + s.snk.length + 2
  omega

/-- Fewer symbols than a chunk stand in `snk` behind `pos`. -/
theorem length_unwritten_lt {s : State} {pos : Nat} (h : s.snk.length < pos + chunkSize) :
    (s.unwritten pos).length < chunkSize := by
  have hpos : 0 < chunkSize := by decide
  rw [length_unwritten]
  omega

theorem length_unwritten_opened_lt (s : State) :
    (s.opened.unwritten (s.snk.length + s.oq.length)).length < chunkSize :=
  length_unwritten_lt (s := s.opened) (by
    have hpos : 0 < chunkSize := by decide
    show s.snk.length < _
    omega)

/-- Settles O35: the files of `EncodeReady` do not fail, so the flow ends with the text of the stream. -/
theorem encodeWritesText : Obligations.EncodeWritesText := by
  intro s h he hwork
  have hw := HostIo.takes_unlimited h.writable
  have hflow := encodeLoop_flow (flowing_opened h.inv h.ready h.rst h.accepts h.noMod) rfl le_rfl
    (hwork.imp_right Or.inl) (turnsLeft_opened s)
  have hfiles := (filesSuffice_opened (hw _)).2 ⟨hw _, HostIo.answers_unlimited h.readable _⟩
  rw [execEncode_of_idle he (hw _), hflow.done hfiles, State.encoded, symbols_drop_opened]
  simp only [State.opened, HostIo.afterWrite_unlimited h.writable, HostIo.afterReads_unlimited h.readable]
  rfl

/-- Settles O37: PREAMBLE, and then nothing is left but POSTAMBLE. -/
theorem encodeEmptyStream : Obligations.EncodeEmptyStream := by
  intro s he hs hr hw
  have hend := encodeLoop_nothingLeft (s := s.opened) (3 * s.src.length + 2 * s.oq.length + s.snk.length + 1) rfl le_rfl hs
  have hio : s.opened.io = s.io := HostIo.afterWrite_unlimited hw _
  rw [hio] at hend
  rw [execEncode_of_idle he (HostIo.takes_unlimited hw _)]
  refine (hend.done ⟨HostIo.takes_unlimited hw _, HostIo.answers_unlimited hr _⟩).trans ?_
  rw [HostIo.afterReads_unlimited hr, HostIo.afterWrite_unlimited hw]
  rfl

/-- Settles O39: neither PREAMBLE nor a line is empty. -/
theorem encodeUnwritable : Obligations.EncodeUnwritable := by
  refine ⟨fun s he hw => ?_, fun s base pos m he hp hw hm => ?_⟩
  · rw [execEncode_cutOff he hw (by rw [preamble_length]; omega)]
    simp [State.cutOff, State.begun, State.abortEncode]
  · have hfull : chunkSize ≤ (s.unwritten pos).length := by rw [length_unwritten]; omega
    have hline : m < (s.nextLine pos).length := by
      rw [State.nextLine, dataLine_length, List.length_take_of_le hfull]
      exact hm
    rw [execEncode_of_filling he, encodeFuel, encodeLoop_flush he hfull, flushLine_cutOff hw hline, encodeLoop_of_idle rfl]
    rfl

/-- Settles O40: with no symbol of the stream waiting the next turn is a read. -/
theorem encodeUnreadable : Obligations.EncodeUnreadable := by
  refine ⟨fun s he hw hr => ?_, fun s base pos he hp hq hr => ?_⟩
  · have hshort : (s.opened.unwritten (s.snk.length + s.oq.length)).length < chunkSize := length_unwritten_opened_lt s
    have hawait : s.opened.awaited (s.snk.length + s.oq.length) = false := awaited_eq_false.2 (.inr le_rfl)
    rw [execEncode_of_idle he (HostIo.takes_unlimited hw _), encodeFuel, encodeLoop_unreadable rfl hshort hawait hr]
    simp only [State.abortEncode, State.opened, HostIo.afterWrite_unlimited hw]
  · have hshort : (s.unwritten pos).length < chunkSize := length_unwritten_lt hp
    rw [execEncode_of_filling he, encodeFuel, encodeLoop_unreadable he hshort (awaited_eq_false.2 hq) hr]
    rfl

/-! ### A failure -/

theorem turnsLeft_le_encodeFuel (s : State) (pos : Nat) : turnsLeft s pos ≤ encodeFuel s := by
  unfold turnsLeft encodeFuel
  omega

/-- A LOOKUP of a source that cannot be read is held, and so is an EMIT, without the serialiser, to a sink that could not be
written to (60_exceptions.md R131; log entry 36). -/
theorem lookupOne_held_of_unreadable {s : State} (h : s.io.readable = some 0) (x : Byte) :
    ∃ k, lookupOne x s = .next (s.held k) :=
  lookupOne_held (lookupHold_ne_none (.inr (.inr (.inr (by simp [State.sValid, h])))))

theorem emitOne_held_of_unwritable {s : State} (h : s.ioErr = some .sinkUnwritable) (hm : s.cfg.hasMod = false) :
    ∃ k, emitOne s = .next (s.held k) := by
  have hne : emitHold s ≠ none := by simp [emitHold_eq_none, sinkAccepts_eq_true, h]
  obtain ⟨k, hk⟩ := Option.ne_none_iff_exists'.1 hne
  exact ⟨k, emitOne_of_emitHold hm hk⟩

/-- Where the block and the sink let it flow, an ENCODE that goes on ends by whether the files suffice. -/
theorem encodeLoop_endsBy {n base pos : Nat} {s : State} (h : Flowing s) (he : s.enc = .filling base pos) (herr : s.ioErr = none)
    (hp : pos ≤ s.snk.length + s.oq.length) (hfuel : turnsLeft s pos ≤ n) :
    ∃ d : State, d.enc = .idle ∧ d.ioErr = none ∧ EndsBy (FilesSuffice s pos) d (encodeLoop n s) := by
  by_cases hwork : s.src ≠ [] ∨ s.oq = [] ∨ pos < s.snk.length + s.oq.length
  · exact ⟨s.encoded pos, rfl, herr, encodeLoop_flow h he hp hwork hfuel⟩
  · push Not at hwork
    obtain ⟨hs, -, hp'⟩ := hwork
    obtain ⟨hreads, hbytes⟩ := left_of_nothingLeft hp' hs
    obtain ⟨m, rfl⟩ : ∃ m, n = m + 1 := Nat.exists_eq_add_one_of_ne_zero (by unfold turnsLeft at hfuel; omega)
    refine ⟨_, ?_, ?_, EndsBy.congr (encodeLoop_nothingLeft m he hp' hs) (by rw [FilesSuffice, hreads, hbytes]) rfl⟩
    exacts [rfl, herr]

/-- So does a new one. -/
theorem execEncode_endsBy {s : State} (h : Flowing s.opened) (he : s.enc = .idle) :
    ∃ d : State, d.enc = .idle ∧ d.ioErr = none ∧
      EndsBy (s.io.Takes (wholeText s.cfg (s.src.map Q)).length ∧ s.io.Answers (encodeReads s.src.length)) d
        (exec .encode s) := by
  by_cases hw : s.io.Takes (preamble s.cfg).length
  · obtain ⟨d, henc, herr, hd⟩ := encodeLoop_endsBy h rfl rfl le_rfl (turnsLeft_opened s)
    rw [execEncode_of_idle he hw]
    exact ⟨d, henc, herr, hd.congr (filesSuffice_opened hw) rfl⟩
  · obtain ⟨m, hm, hlt⟩ := HostIo.not_takes.1 hw
    refine ⟨{ s with enc := .idle, ioErr := none }, rfl, rfl, .of_cutOff (fun h => hw ?_) (execEncode_cutOff he hm hlt)⟩
    refine h.1.mono ?_
    rw [wholeText_eq, List.append_assoc, List.length_append]
    omega

/-- Settles O38: what an ENCODE ends in says the first part; where the block and the sink let it flow, the files decide. -/
theorem encodeFailureLeavesPrefix : Obligations.EncodeFailureLeavesPrefix := by
  refine ⟨fun s t e hinv hlaw hr herr => ?_, fun s hinv hready hrst haccepts hm he => ?_,
    fun s base pos hinv hready hrst haccepts hm he hnone hp => ?_⟩
  · have hcfg : t.cfg = s.cfg := (exec_sameSetting hr).1
    cases execEncode_outcome hinv hlaw hr with
    | waits pos law => simp [law.noErr] at herr
    | ends _ noErr => simp [noErr] at herr
    | fails e' enc err text readable writable =>
      obtain rfl : e' = e := Option.some.inj (err.symm.trans herr)
      refine ⟨enc, hcfg ▸ text, fun he x => ?_, fun he => ⟨writable he, fun hm => ?_⟩⟩
      · exact lookupOne_held_of_unreadable (readable he) x
      · exact emitOne_held_of_unwritable (he ▸ err) hm
  · obtain ⟨d, henc, herr, hd⟩ := execEncode_endsBy (flowing_opened hinv hready hrst haccepts hm) he
    obtain ⟨t, hr, hidle, hiff⟩ := hd.error_iff henc herr
    exact ⟨t, hr, hidle, hiff.trans not_suffice_iff⟩
  · have hflow : Flowing s := ⟨hinv, hready, hrst, sinkAccepts_eq_true.2 ⟨haccepts, by simp [hnone]⟩, hm⟩
    obtain ⟨d, henc, herr, hd⟩ := encodeLoop_endsBy hflow he hnone hp (turnsLeft_le_encodeFuel s pos)
    obtain ⟨t, hr, hidle, hiff⟩ := hd.error_iff henc herr
    refine ⟨t, s.symbols.drop pos, symbols_drop hp, (execEncode_of_filling he).trans hr, hidle, hiff.trans ?_⟩
    exact not_suffice_iff

/-! ### An ENCODE that goes on -/

/-- A LOOKUP of the loop: the queue is empty and the source can be read. -/
theorem encodeLoop_lookup {n base pos : Nat} {s : State} {x : Byte} {rest : List Byte} (hinv : BlockInv s)
    (hready : s.ready = true) (hrst : s.rst = false) (he : s.enc = .filling base pos) (hc : s.snk.length < pos + chunkSize)
    (hq : s.oq = []) (hio : s.io.readable ≠ some 0) (hs : s.src = x :: rest) :
    encodeLoop (n + 1) s = encodeLoop n (s.accepted (Q x)) := by
  have hr := lookupOne_accepted hinv (lookupHold_drained hinv hready hrst hq hio (by simp [hs])) hs
  rw [encodeLoop_sample he (length_unwritten_lt hc) (awaited_eq_false.2 (.inl hq)) hio hs, readSample,
    if_pos (List.isEmpty_iff.2 hq), thenIfDone_done hr rfl]

theorem awaited_eq_true {s : State} {pos : Nat} : s.awaited pos = true ↔ s.oq ≠ [] ∧ pos < s.snk.length + s.oq.length := by
  simp [State.awaited]

/-- A delivery of the loop that MOD takes. -/
theorem encodeLoop_load {n base pos : Nat} {s : State} {y : Byte} {rest : List Byte} (hm : s.cfg.hasMod = true)
    (hrst : s.rst = false) (hidle : s.fcnt = 0#4) (he : s.enc = .filling base pos) (hc : s.snk.length < pos + chunkSize)
    (hp : pos ≤ s.snk.length) (hq : s.oq = y :: rest) : encodeLoop (n + 1) s = encodeLoop n (s.loaded y) := by
  have hawait : s.awaited pos = true := awaited_eq_true.2 ⟨by simp [hq], by rw [hq, List.length_cons]; omega⟩
  rw [encodeLoop_emit he (length_unwritten_lt hc) hawait, thenIfDone_done (emitOne_loaded hm hrst hidle hq) rfl]

/-- A delivery of the loop that is held: ENCODE waits. -/
theorem encodeLoop_waits {n base pos : Nat} {s : State} {k : Hold} (he : s.enc = .filling base pos)
    (hc : s.snk.length < pos + chunkSize) (hq : s.oq ≠ []) (hp : pos < s.snk.length + s.oq.length)
    (hr : emitOne s = .next (s.held k)) : encodeLoop (n + 1) s = .next (s.held k) := by
  rw [encodeLoop_emit he (length_unwritten_lt hc) (awaited_eq_true.2 ⟨hq, hp⟩), thenIfDone_held hr rfl]

/-- MOD has just taken a symbol: the next sample is accepted, and its symbol waits for MOD. -/
theorem encodeLoop_lookup_modBusy {n base pos : Nat} {s : State} {x : Byte} {rest : List Byte} (hinv : BlockInv s)
    (hready : s.ready = true) (hrst : s.rst = false) (hm : s.cfg.hasMod = true) (hbusy : s.fcnt ≠ 0#4)
    (he : s.enc = .filling base pos) (hc : s.snk.length < pos + chunkSize) (hp : pos ≤ s.snk.length) (hq : s.oq = [])
    (hio : s.io.readable ≠ some 0) (hs : s.src = x :: rest) :
    encodeLoop (n + 2) s = .next ((s.accepted (Q x)).held .modBusy) := by
  rw [encodeLoop_lookup hinv hready hrst he hc hq hio hs]
  refine encodeLoop_waits (s := s.accepted (Q x)) he hc (by simp) ?_ (emitOne_modBusy hm hrst hbusy)
  rw [State.accepted_snk, State.accepted_oq, List.length_append, List.length_singleton]
  omega

theorem Run.keeps_encodeLaw {s t : State} (hinv : BlockInv s) (hlaw : EncodeLaw s) (hrun : Run s t) : EncodeLaw t := by
  refine (hrun.keeps (P := fun u => BlockInv u ∧ EncodeLaw u) ?exec ?advance ?host ⟨hinv, hlaw⟩).2
  case exec => exact fun i u v _ hu hr => ⟨exec_keeps_blockInv hu.1 hr, exec_keeps_encodeLaw hu.1 hu.2 hr⟩
  case advance => exact fun u rest hu => ⟨hu.1.advance rest, hu.2⟩
  case host => exact fun u v hu ht _ => ⟨hu.1.hostTurn ht, ht.encodeLaw hu.2⟩

/-- A chunk that is not full is one line. -/
theorem dataLines_of_short (c : Config) {l : List Byte} (hne : l ≠ []) (hle : l.length ≤ chunkSize) :
    dataLines c l = dataLine c l := by
  rw [dataLines_of_ne_nil c hne, List.take_of_length_le hle, List.drop_eq_nil_of_le hle, dataLines_nil, List.append_nil]

/-- With an idle MOD and a symbol waiting, that symbol is loaded and the next sample accepted. -/
theorem encodeLoop_load_lookup {n base pos : Nat} {s : State} {x y : Byte} {rest : List Byte} (hinv : BlockInv s)
    (hready : s.ready = true) (hrst : s.rst = false) (hm : s.cfg.hasMod = true) (hidle : s.fcnt = 0#4)
    (he : s.enc = .filling base pos) (hc : s.snk.length + 1 < pos + chunkSize) (hp : pos ≤ s.snk.length) (hq : s.oq = [y])
    (hio : s.io.readable ≠ some 0) (hs : s.src = x :: rest) :
    encodeLoop (n + 3) s = .next (((s.loaded y).accepted (Q x)).held .modBusy) := by
  have hinv' : BlockInv (s.loaded y) := hinv.loaded (loadHold_eq_none.2 ⟨hm, hrst, hidle, by simp [hq]⟩) hq
  have hlen : (s.loaded y).snk.length = s.snk.length + 1 := by simp
  have hdrained : (s.loaded y).oq = [] := by simp [hq]
  rw [encodeLoop_load hm hrst hidle he (by omega) hp hq]
  exact encodeLoop_lookup_modBusy hinv' hready hrst hm (by simp) he (by omega) (by omega) hdrained hio hs

/-- With an idle MOD, the last symbol waiting and the source at its end, that symbol is loaded and the last line written. -/
theorem encodeLoop_load_ends {n base pos : Nat} {s : State} {y : Byte} (hrst : s.rst = false) (hm : s.cfg.hasMod = true)
    (hidle : s.fcnt = 0#4) (he : s.enc = .filling base pos) (hc : s.snk.length + 1 < pos + chunkSize)
    (hp : pos ≤ s.snk.length) (hq : s.oq = [y]) (hr : s.io.readable = none) (hw : s.io.writable = none) (hs : s.src = []) :
    encodeLoop (n + 4) s = .next ((s.loaded y).encoded pos) := by
  have hlen : (s.loaded y).snk.length = s.snk.length + 1 := by simp
  have hshort : ((s.loaded y).unwritten pos).length < chunkSize := length_unwritten_lt (by omega)
  have hne : (s.loaded y).unwritten pos ≠ [] := List.ne_nil_of_length_pos (by rw [length_unwritten]; omega)
  have hawait : (s.loaded y).awaited pos = false := awaited_eq_false.2 (.inl (by simp [hq]))
  have hfree : (s.loaded y).io.readable ≠ some 0 := by simp [hr]
  have hfiles : FilesSuffice (s.loaded y) pos := ⟨HostIo.takes_unlimited hw _, HostIo.answers_unlimited hr _⟩
  rw [encodeLoop_load hm hrst hidle he (by omega) hp hq, encodeLoop_nothing (s := s.loaded y) he hshort hawait hfree hs,
    readNothing, if_neg (mt List.isEmpty_iff.1 hne), (endsBy_lastLine hshort hne hawait hs hfree).done hfiles]

/-- What the loaded symbol leaves of the text is one line of the symbols behind `pos`. -/
theorem encoded_loaded {pos : Nat} {s : State} {y : Byte} (hc : s.snk.length + 1 < pos + chunkSize) (hp : pos ≤ s.snk.length)
    (hq : s.oq = [y]) (hr : s.io.readable = none) (hw : s.io.writable = none) (hs : s.src = []) :
    (s.loaded y).encoded pos =
      { s.loaded y with
        text := s.text ++ dataLine s.cfg (s.snk.drop pos ++ [y]) ++ postamble s.cfg
        enc := .idle } := by
  have hdrop : (s.loaded y).snk.drop pos = s.snk.drop pos ++ [y] := List.drop_append_of_le_length hp
  have hline : dataLines s.cfg (s.snk.drop pos ++ [y]) = dataLine s.cfg (s.snk.drop pos ++ [y]) :=
    dataLines_of_short _ (by simp) (by rw [List.length_append, List.length_drop, List.length_singleton]; omega)
  rw [encoded_of_drained (s := s.loaded y) hs (by simp [hq]), State.loaded_cfg, hdrop, hline]
  simp [HostIo.afterReads_unlimited hr, HostIo.afterWrite_unlimited hw, State.loaded, State.delivered]

/-- A new ENCODE that is held keeps the place where its stream began. -/
theorem encodeBase_of_held {s t : State} {base pos : Nat} (hinv : BlockInv s) (hlaw : EncodeLaw s)
    (hr : exec .encode s = .next t) (ht : t.enc = .filling base pos) : base = encodeBase s := by
  cases execEncode_outcome hinv hlaw hr with
  | waits p law => exact (EncPhase.filling.inj (ht.symm.trans law.enc)).1
  | ends enc => simp [enc] at ht
  | fails e enc => simp [enc] at ht

/-- Over a run from a held ENCODE its stream stays the samples that the source had when it began. -/
theorem encodeStream_of_run {s t u : State} {base pos pos' : Nat} (hinv : BlockInv s) (hidle : s.enc = .idle)
    (hr : exec .encode s = .next t) (ht : t.enc = .filling base pos) (hrun : Run t u) (hu : u.enc = .filling base pos') :
    EncodeLaw u ∧ encodeStream u = s.src.map Q := by
  have hlaw : EncodeLaw s := encodeLaw_of_idle hidle
  have hinvt : BlockInv t := exec_keeps_blockInv hinv hr
  have hlawu : EncodeLaw u := hrun.keeps_encodeLaw hinvt (exec_keeps_encodeLaw hinv hlaw hr)
  have hst : Forward s t := exec_forward (i := .encode) hinv nofun hr
  have htu : Forward t u := (hrun.invForward hinvt).2
  have hbase : encodeBase u = encodeBase s := by rw [← encodeBase_of_held hinv hlaw hr ht, encodeBase, hu]
  refine ⟨hlawu, ?_⟩
  calc encodeStream u
      = s.symbols.drop (encodeBase s) := by
        rw [← symbols_drop_encodeBase hlawu, hbase, htu.symbols_eq, hst.symbols_eq]
    _ = encodeStream s := symbols_drop_encodeBase hlaw
    _ = s.src.map Q := by rw [encodeStream, hidle]

/-- An ENCODE that ends without an error has read its source to the end and left the text of its stream. -/
theorem execEncode_ended {s t : State} (hinv : BlockInv s) (hlaw : EncodeLaw s) (hr : exec .encode s = .next t)
    (ht : t.enc = .idle) (hnone : t.ioErr = none) : t.src = [] ∧ t.text = wholeText t.cfg (encodeStream s) := by
  cases execEncode_outcome hinv hlaw hr with
  | waits pos law => simp [law.enc] at ht
  | fails e _ err => simp [err] at hnone
  | ends _ _ text _ src => exact ⟨src, text⟩

/-- Settles O36: what is left flows as in a new ENCODE; with the serialiser turn by turn; and over a run the law holds from
the start to the end. -/
theorem encodeGoesOn : Obligations.EncodeGoesOn := by
  refine ⟨fun s base pos h herr he hp hwork => ?flows, fun s base pos h he hp hs => ?nothingLeft,
    fun s base pos x y rest hinv hready hrst hm hidle he hp hq hc hio hs => ?loads,
    fun s base pos y hinv hrst hm hidle he hp hq hc hr hw hs => ?loadsLast,
    fun s t u v base pos pos' hinv hidle hr ht hrun hu hv hend hnone => ?overRun⟩
  case flows =>
    have hflow : Flowing s := ⟨h.inv, h.ready, h.rst, sinkAccepts_eq_true.2 ⟨h.accepts, herr⟩, h.noMod⟩
    have hfiles : FilesSuffice s pos := ⟨HostIo.takes_unlimited h.writable _, HostIo.answers_unlimited h.readable _⟩
    rw [execEncode_of_filling he, (encodeLoop_flow hflow he hp hwork (turnsLeft_le_encodeFuel s pos)).done hfiles,
      State.encoded, symbols_drop hp, HostIo.afterReads_unlimited h.readable, HostIo.afterWrite_unlimited h.writable]
    rfl
  case nothingLeft =>
    have hfiles := And.intro (HostIo.takes_unlimited h.writable (postamble s.cfg).length) (HostIo.answers_unlimited h.readable 1)
    rw [execEncode_of_filling he, encodeFuel, (encodeLoop_nothingLeft _ he hp.ge hs).done hfiles,
      HostIo.afterReads_unlimited h.readable, HostIo.afterWrite_unlimited h.writable]
  case loads =>
    have hfuel : encodeFuel s = encodeFuel s - 3 + 3 := by unfold encodeFuel; rw [hs, List.length_cons]; omega
    rw [execEncode_of_filling he, hfuel, encodeLoop_load_lookup hinv hready hrst hm hidle he hc hp hq (by simp [hio]) hs]
    simp [State.held, State.accepted, State.loaded, State.delivered, frameWord, hq, hs, HostIo.afterRead_unlimited hio]
  case loadsLast =>
    have hfuel : encodeFuel s = s.snk.length + 4 := by unfold encodeFuel; simp [hs, hq]; omega
    rw [execEncode_of_filling he, hfuel, encodeLoop_load_ends hrst hm hidle he hc hp hq hr hw hs,
      encoded_loaded hc hp hq hr hw hs, loaded_eq_of_oq hq]
  case overRun =>
    obtain ⟨hlawu, hstream⟩ := encodeStream_of_run hinv hidle hr ht hrun hu
    obtain ⟨hinvu, htu⟩ := hrun.invForward (exec_keeps_blockInv hinv hr)
    obtain ⟨hsrc, htext⟩ := execEncode_ended hinvu hlawu hv hend hnone
    have hcfg : v.cfg = s.cfg := (exec_sameSetting hv).1.trans (htu.cfg.trans (exec_sameSetting hr).1)
    exact ⟨s.src, by rw [hsrc, List.append_nil], by rw [htext, hstream, hcfg]⟩

/-! ### Where ENCODE waits -/

/-- A read of a block that is not built is held. -/
theorem encodeLoop_notReady {n base pos : Nat} {s : State} (hinv : BlockInv s) (hrst : s.rst = false) (hready : s.ready = false)
    (he : s.enc = .filling base pos) (hc : s.snk.length < pos + chunkSize) (hio : s.io.readable ≠ some 0) (hs : s.src ≠ []) :
    encodeLoop (n + 1) s = .next (s.held .notReady) := by
  obtain ⟨x, rest, hs⟩ := List.exists_cons_of_ne_nil hs
  have hq : s.oq = [] := hinv.oq_empty hready
  have hhold : lookupHold s = some .notReady := by simp [lookupHold, hrst, hready]
  rw [encodeLoop_sample he (length_unwritten_lt hc) (awaited_eq_false.2 (.inl hq)) hio hs, readSample,
    if_pos (List.isEmpty_iff.2 hq), thenIfDone_held (lookupOne_of_hold hhold x) rfl]

/-- With an idle MOD and an empty queue the first symbol is loaded, and the second waits for MOD. -/
theorem encodeLoop_lookup_load_lookup {n base : Nat} {s : State} {x y : Byte} {rest : List Byte} (hinv : BlockInv s)
    (hready : s.ready = true) (hrst : s.rst = false) (hm : s.cfg.hasMod = true) (hidle : s.fcnt = 0#4)
    (he : s.enc = .filling base s.snk.length) (hq : s.oq = []) (hio : s.io.readable = none) (hs : s.src = x :: y :: rest) :
    encodeLoop (n + 4) s = .next ((((s.accepted (Q x)).loaded (Q x)).accepted (Q y)).held .modBusy) := by
  have hchunk : 1 < chunkSize := by decide
  have hfree : s.io.readable ≠ some 0 := by simp [hio]
  have hn : lookupHold s = none := lookupHold_drained hinv hready hrst hq hfree (by simp [hs])
  have hinv' : BlockInv (s.accepted (Q x)) := exec_keeps_blockInv (i := .lookup x) hinv (lookupOne_accepted hinv hn hs)
  have hqx : (s.accepted (Q x)).oq = [Q x] := by simp [hq]
  have hsx : (s.accepted (Q x)).src = y :: rest := by simp [hs]
  have hfreex : (s.accepted (Q x)).io.readable ≠ some 0 := by simp [HostIo.afterRead, hio]
  rw [encodeLoop_lookup hinv hready hrst he (by omega) hq hfree hs]
  exact encodeLoop_load_lookup hinv' hready hrst hm hidle he (Nat.add_lt_add_left hchunk _) le_rfl hqx hfreex hsx

/-- Settles O41: by the turns up to the hold. -/
theorem encodeWaits : Obligations.EncodeWaits := by
  refine ⟨fun s hinv he hr hw hrst hready hs => ?notBuilt,
    fun s x y rest hinv hready hrst hm hidle hq he hr hw hs => ?secondSymbol,
    fun s base pos hrst he hq hc hp => ⟨fun hm hsink => ?sinkStall, fun hm hbusy => ?modBusy⟩⟩
  case notBuilt =>
    have hq : s.oq = [] := hinv.oq_empty hready
    have hinv' : BlockInv s.opened := hinv.of_sameBlock rfl
    have hfree : s.opened.io.readable ≠ some 0 := by simp [State.opened, HostIo.afterWrite, hr]
    have hchunk : s.snk.length < s.snk.length + s.oq.length + chunkSize := by
      rw [hq]
      exact Nat.lt_add_of_pos_right (by decide)
    rw [execEncode_of_idle he (HostIo.takes_unlimited hw _), encodeFuel,
      encodeLoop_notReady hinv' hrst hready rfl hchunk hfree hs]
    simp [State.held, State.opened, hq, HostIo.afterWrite_unlimited hw]
  case secondSymbol =>
    have hfuel : encodeFuel s = encodeFuel s - 4 + 4 := by unfold encodeFuel; simp [hs]; omega
    have hinv' : BlockInv s.opened := hinv.of_sameBlock rfl
    have hio : s.opened.io = s.io := HostIo.afterWrite_unlimited hw _
    have henc : s.opened.enc = .filling s.snk.length s.snk.length := by simp [State.opened, hq]
    rw [execEncode_of_idle he (HostIo.takes_unlimited hw _), hfuel,
      encodeLoop_lookup_load_lookup hinv' hready hrst hm hidle henc hq (hio ▸ hr) hs]
    simp [State.held, State.accepted, State.loaded, State.delivered, State.opened, frameWord, hq, hs,
      HostIo.afterRead_unlimited hr, HostIo.afterWrite_unlimited hw]
  case sinkStall =>
    have hhold : emitHold s = some .sinkStall := by simp [emitHold, hrst, hq, hsink]
    rw [execEncode_of_filling he, encodeFuel, encodeLoop_waits he hc hq hp (emitOne_of_emitHold hm hhold)]
  case modBusy =>
    rw [execEncode_of_filling he, encodeFuel, encodeLoop_waits he hc hq hp (emitOne_modBusy hm hrst hbusy)]

end Sys2Proof
end

