-- ==== Sys2Proof/Proofs/SmallSteps.lean ====
section
/-! LOOKUP, EMIT, QUANT, RESET and the steps of MOD, each where it is enabled and where it is held (41_lookup.md R91 to R93,
30_encoding.md R70, 43_pwm_frame.md R121 to R123, 70_reset_and_hazards.md R150). -/

namespace Sys2Proof

open Sys2Proof.Machine

/-! ### LOOKUP -/

theorem sReadyAllowed_eq_false {s : State} {k : Hold} (h : lookupHold s = some k) : s.sReadyAllowed = false := by
  rw [State.sReadyAllowed, h]
  rfl

/-- Settles O17: each condition is the first that `lookupHold` finds. -/
theorem lookupHolds : Obligations.LookupHolds := by
  refine fun s x hrst => ⟨fun hready => ?_, fun hready hfull => ?_, fun hready hroom hvalid => ?_⟩
  · have hk : lookupHold s = some .notReady := by simp [lookupHold, hrst, hready]
    exact ⟨lookupOne_of_hold hk x, sReadyAllowed_eq_false hk⟩
  · have hk : lookupHold s = some .outputFull := by simp [lookupHold, hrst, hready, hfull]
    exact ⟨lookupOne_of_hold hk x, sReadyAllowed_eq_false hk⟩
  · have hk : lookupHold s = some .noSample := by simp [lookupHold, hrst, hready, Nat.not_le.2 hroom, hvalid]
    exact ⟨lookupOne_of_hold hk x, sReadyAllowed_eq_false hk⟩

/-- Settles O18: the word is compared with the head of `src`. -/
theorem onlyOfferedAccepted : Obligations.OnlyOfferedAccepted := by
  intro s x y rest hn hs hxy
  have hne : s.src.head? ≠ some x := by
    rw [hs, List.head?_cons, Ne, Option.some.injEq]
    exact hxy.symm
  show lookupOne x s = _
  rw [lookupOne, unlessHeld_none hn, if_neg hne]

/-! ### EMIT -/

/-- Settles O19: by the three outcomes of `emitHold` at `rst = 0`. -/
theorem emitEffect : Obligations.EmitEffect := by
  refine ⟨fun s y rest hm hrst hq hsink => ⟨?_, ?_⟩, fun s hm hrst hq => ?_, fun s hm hrst hq hsink => ?_⟩
  · simp [State.mData, State.mValid, hrst, hq]
  · exact (emitOne_delivered hm hrst hq hsink).trans (congrArg _ (delivered_eq_of_oq hq))
  · exact emitOne_of_emitHold hm (by simp [emitHold, hrst, hq])
  · exact emitOne_of_emitHold hm (by simp [emitHold, hrst, hq, hsink])

/-! ### QUANT -/

/-- Settles O20: the queue is not empty after the LOOKUP, so the EMIT finds a symbol. -/
theorem quantEffect : Obligations.QuantEffect := by
  refine ⟨fun s x rest hinv hm hrst hready hroom hvalid hs hsink => ?_, fun s t u x hl hold he => ?_, fun s x h hk => ?_⟩
  · have hn : lookupHold s = none := lookupHold_eq_none.2 ⟨hrst, hready, hroom, hvalid⟩
    have hl := lookupOne_accepted hinv hn hs
    obtain ⟨y, l, hq⟩ : ∃ y l, s.oq ++ [Q x] = y :: l := List.exists_cons_of_ne_nil (by simp)
    have he := emitOne_delivered (s := s.accepted (Q x)) hm hrst hq hsink
    refine (thenIfDone_done hl rfl _).trans (he.trans ?_)
    rw [delivered_eq_of_oq (s := s.accepted (Q x)) hq, accepted_eq_of_src hs, hq]
    rfl
  · exact (thenIfDone_done hl hold emitOne).trans he
  · exact thenIfDone_held (lookupOne_of_hold hk x) rfl emitOne

/-! ### RESET -/

/-- Settles O12: RESET answers `s.toReset`. -/
theorem resetFrame : Obligations.ResetFrame := by
  intro s t hr
  cases hr
  exact ⟨⟨rfl, rfl, rfl, rfl, rfl⟩, rfl, rfl, rfl, rfl, rfl, rfl, rfl⟩

/-- Settles O10: the reset state is RESET of the environment's initial values. -/
theorem resetState : Obligations.ResetState := by
  refine ⟨rfl, fun c => ⟨State.resetWith c, rfl, rfl, ?_, rfl, rfl, rfl, fun a => mapRead_toReset _ a, fun hp => ?_, rfl, rfl,
    rfl, rfl⟩⟩
  · show (if c.prebuilt then bidxDone else 0#9).toNat = _
    split <;> rfl
  · have hready : (State.resetWith c).ready = false := hp
    have hk : lookupHold (State.resetWith c) = some .notReady := by
      rw [lookupHold, hready]
      rfl
    exact sReadyAllowed_eq_false hk

/-! ### MOD -/

/-- Settles O27: with the serialiser EMIT is the step MOD_LOAD; the holds are in the order of `loadHold`. -/
theorem modLoadEffect : Obligations.ModLoadEffect := by
  refine ⟨fun s y rest hm hrst hidle hq => ⟨?_, if_pos hm⟩, fun s hm hrst hbusy => ?_, fun s hm hrst hidle hq => ?_,
    fun s hm hrst => ?_⟩
  · have he : exec .emit s = exec .modLoad s := if_pos hm
    exact he.symm.trans ((emitOne_loaded hm hrst hidle hq).trans (congrArg _ (loaded_eq_of_oq hq)))
  · exact loadOne_of_hold (by simp [loadHold, hm, hrst, hbusy])
  · exact loadOne_of_hold (by simp [loadHold, hm, hrst, hidle, hq])
  · exact loadOne_of_hold (by simp [loadHold, hm, hrst])

theorem shiftMany_succ (n : Nat) {s t : State} (h : exec .modShift s = .next t) : shiftMany (n + 1) s = shiftMany n t := by
  rw [shiftMany, h]

/-- As many MOD_SHIFTs as the frame has slots left drive them, and leave the register and the line high. -/
theorem shiftMany_frameRest {n : Nat} {s : State} (hm : s.cfg.hasMod = true) (hn : s.fcnt.toNat = n) (hle : n ≤ 10)
    (hhigh : ∀ i, s.fcnt.toNat ≤ i → i < 10 → s.fr.getLsbD i = true) (hold : s.hold = none) :
    shiftMany n s = .next { s with
      tx := s.tx ++ frameRest s
      fcnt := 0#4
      fr := BitVec.allOnes 10
      line := (frameRest s).getLastD s.line
      hold := none } := by
  induction n generalizing s with
  | zero =>
    have hidle : s.fcnt = 0#4 := BitVec.eq_of_toNat_eq hn
    have hones : s.fr = BitVec.allOnes 10 := BitVec.eq_of_getLsbD_eq fun i hi => by
      rw [hhigh i (by omega) hi, BitVec.getLsbD_allOnes, decide_eq_true hi]
    rw [shiftMany, frameRest_of_fcnt_zero hidle, List.append_nil, List.getLastD_nil, ← hidle, ← hones, ← hold]
  | succ n ih =>
    have hbusy : s.fcnt ≠ 0#4 := fun h0 => by simp [h0] at hn
    have hcount := toNat_fcnt_sub_one (hn.le.trans hle) hbusy
    have hhigh' : ∀ i, s.shifted.fcnt.toNat ≤ i → i < 10 → s.shifted.fr.getLsbD i = true := fun i hi hlt => by
      rw [State.shifted_fcnt] at hi
      rw [State.shifted_fr, getLsbD_shiftedReg _ hlt]
      split_ifs
      · rfl
      · exact hhigh _ (by omega) (by omega)
    have hr := ih (s := s.shifted) hm (by rw [State.shifted_fcnt]; omega) (by omega) hhigh' rfl
    rw [shiftMany_succ n (shiftOne_shifted hm hbusy), ← frameRest_shifted (hn.le.trans hle) hbusy, List.getLastD_cons]
    refine hr.trans ?_
    rw [State.shifted_tx, List.append_assoc, List.singleton_append]
    rfl

/-- Settles O28: a frame just loaded has ten slots. -/
theorem modShiftEffect : Obligations.ModShiftEffect := by
  refine ⟨fun s hm hbusy => shiftOne_shifted hm hbusy, fun s y hm => ?_, fun s hm hidle => ?_⟩
  · have hten := shiftMany_frameRest (s := s.loaded y) hm rfl le_rfl (fun i hi hlt => absurd hlt (Nat.not_lt.2 hi)) rfl
    rw [frameRest_loaded] at hten
    exact hten
  · exact shiftOne_of_hold (by simp [shiftHold, hm, hidle])

theorem tickOps_waiting {s : State} (hm : s.cfg.hasMod = true) (hidle : s.fcnt = 0#4) (hq : s.oq ≠ []) :
    tickOps s = [.modLoad, .modShift] := by
  simp [tickOps, hm, hidle, hq]

/-- Settles O29: by `fcnt` and the queue. -/
theorem modIdleEffect : Obligations.ModIdleEffect := by
  refine ⟨fun s hm hidle hq => ⟨?_, ?_⟩, fun s hm hbusy => ?_, fun s hm hidle hq => ⟨?_, tickOps_waiting hm hidle hq⟩⟩
  · exact idleOne_idled hm hidle hq
  · simp [tickOps, hm, hidle, hq]
  · exact idleOne_of_hold (by simp [idleHold, hm, hbusy])
  · exact idleOne_of_hold (by simp [idleHold, hm, hidle, hq])

end Sys2Proof
end

