-- ==== Sys2Proof/Proofs/Pulse.lean ====
section
/-! The frame as a pulse (43_pwm_frame.md R117, R118). A symbol's set bits are its top ones, so its frame is a run of low
slots and a run of high ones; in a row of frames each run of high slots is followed by the low start slot of the next. -/

namespace Sys2Proof

open Sys2Proof.Machine

/-! ### High slots -/

/-- The stop slot and the bits that are set (43_pwm_frame.md R117). -/
theorem highSlots_frame (y : Byte) : highSlots (frame y) = bitsSet y + 1 := by
  rw [highSlots, frame, bitsSet, List.count_append, List.count_cons_of_ne (by decide)]
  rfl

theorem highSlots_append (l m : List Bool) : highSlots (l ++ m) = highSlots l + highSlots m := List.count_append

theorem bitsSet_le (y : Byte) : bitsSet y ≤ 8 := by
  have hle := List.count_le_length (a := true) (l := (List.range 8).map y.getLsbD)
  rwa [List.length_map, List.length_range] at hle

theorem duty_eq (y : Byte) : duty y = (1 + (bitsSet y : Rat)) / 10 := by
  rw [duty, highSlots_frame, Nat.cast_add, Nat.cast_one, add_comm]

/-- The entries of `SYM` are its nine windows (10_state.md R22). -/
theorem eq_symWindow_of_symTable {k : Nat} {y : Byte} (h : symTable[k]? = some y) : k < 9 ∧ y = symWindow k := by
  have hk : k < 9 := (List.getElem?_eq_some_iff.1 h).1
  exact ⟨hk, Option.some.inj (h.symm.trans (symTable_getElem?_eq_symWindow hk))⟩

theorem bitsSet_Q (s : Byte) : bitsSet (Q s) = (idx s).toNat := by
  rw [Q_eq_symWindow, bitsSet_symWindow (Nat.lt_succ_of_le (idx_toNat_le s))]

/-- Settles O25: of the ten slots the stop slot and the bits set are high. -/
theorem dutyCycle : Obligations.DutyCycle := by
  refine ⟨duty_eq, fun k y hy => ?_, fun y => ?_, fun l => ?_⟩
  · obtain ⟨hk, rfl⟩ := eq_symWindow_of_symTable hy
    rw [duty_eq, bitsSet_symWindow hk, add_comm]
  · have hle : (bitsSet y : Rat) ≤ 8 := by exact_mod_cast bitsSet_le y
    have hpos : (0 : Rat) ≤ bitsSet y := Nat.cast_nonneg _
    rw [duty_eq]
    constructor <;> linarith
  · induction l with
    | nil => rfl
    | cons s l ih =>
      rw [List.map_cons, List.flatMap_cons, highSlots_append, highSlots_frame, bitsSet_Q, ih, List.map_cons, List.sum_cons]

/-! ### Edges -/

/-- One pulse: low slots and then high slots. -/
theorem frame_symWindow {k : Nat} (hk : k < 9) :
    frame (symWindow k) = List.replicate (9 - k) false ++ List.replicate (k + 1) true := by
  have hbits : (List.range 8).map (symWindow k).getLsbD = (List.range 8).map fun b => decide (8 - k ≤ b) :=
    List.map_congr_left fun b hb => getLsbD_symWindow hk (List.mem_range.mp hb)
  rw [frame, hbits]
  exact (by decide : ∀ j < 9, false :: (List.range 8).map (fun b => decide (8 - j ≤ b)) ++ [true] =
    List.replicate (9 - j) false ++ List.replicate (j + 1) true) k hk

/-- No edge rises behind a high slot, and none falls behind a low one. -/
theorem risingEdges_true (l : List Bool) : risingEdges (true :: l) = risingEdges l := by
  cases l <;> simp [risingEdges]

theorem fallingEdges_false (l : List Bool) : fallingEdges (false :: l) = fallingEdges l := by
  cases l <;> simp [fallingEdges]

theorem risingEdges_highs (b : Nat) (l : List Bool) : risingEdges (List.replicate b true ++ l) = risingEdges l := by
  induction b with
  | zero => rfl
  | succ b ih => rw [List.replicate_succ, List.cons_append, risingEdges_true, ih]

theorem fallingEdges_lows (a : Nat) (l : List Bool) : fallingEdges (List.replicate a false ++ l) = fallingEdges l := by
  induction a with
  | zero => rfl
  | succ a ih => rw [List.replicate_succ, List.cons_append, fallingEdges_false, ih]

/-- A run of low slots before a high one has one rising edge, at its end. -/
theorem risingEdges_lows (a : Nat) (l : List Bool) :
    risingEdges (List.replicate (a + 1) false ++ true :: l) = 1 + risingEdges l := by
  induction a with
  | zero => simp [risingEdges, risingEdges_true]
  | succ a ih => rw [← ih, List.replicate_succ, List.cons_append, List.replicate_succ]; simp [risingEdges]

/-- A run of high slots before a low one has one falling edge, at its end. -/
theorem fallingEdges_highs (b : Nat) (l : List Bool) :
    fallingEdges (List.replicate (b + 1) true ++ false :: l) = 1 + fallingEdges (false :: l) := by
  induction b with
  | zero => simp [fallingEdges]
  | succ b ih => rw [← ih, List.replicate_succ, List.cons_append, List.replicate_succ]; simp [fallingEdges]

theorem fallingEdges_onlyHighs (b : Nat) : fallingEdges (List.replicate b true) = 0 := by
  induction b with
  | zero => rfl
  | succ b ih => cases b with
    | zero => rfl
    | succ b => rw [List.replicate_succ, List.replicate_succ, fallingEdges, ← List.replicate_succ, ih]; rfl

section
variable {y : Byte} (hy : y ∈ symTable)
include hy

/-- The pulse of a symbol, with at least one low and one high slot. -/
theorem frame_of_symbol : ∃ a b, frame y = List.replicate (a + 1) false ++ List.replicate (b + 1) true := by
  obtain ⟨k, hk⟩ := List.mem_iff_getElem?.1 hy
  obtain ⟨hlt, rfl⟩ := eq_symWindow_of_symTable hk
  exact ⟨8 - k, k, by rw [frame_symWindow hlt, show 9 - k = 8 - k + 1 by omega]⟩

theorem risingEdges_frame_append (l : List Bool) : risingEdges (frame y ++ l) = 1 + risingEdges l := by
  obtain ⟨a, b, hframe⟩ := frame_of_symbol hy
  rw [hframe, List.append_assoc, List.replicate_succ (n := b), List.cons_append, risingEdges_lows, risingEdges_highs]

theorem fallingEdges_frame : fallingEdges (frame y) = 0 := by
  obtain ⟨a, b, hframe⟩ := frame_of_symbol hy
  rw [hframe, fallingEdges_lows, fallingEdges_onlyHighs]

theorem fallingEdges_frame_append (l : List Bool) : fallingEdges (frame y ++ false :: l) = 1 + fallingEdges (false :: l) := by
  obtain ⟨a, b, hframe⟩ := frame_of_symbol hy
  rw [hframe, List.append_assoc, fallingEdges_lows, fallingEdges_highs]

end

/-- A rising edge in each frame. -/
theorem risingEdges_frames {ys : List Byte} (h : SymbolsOnly ys) : risingEdges (ys.flatMap frame) = ys.length := by
  induction ys with
  | nil => rfl
  | cons y ys ih =>
    rw [List.flatMap_cons, risingEdges_frame_append (h y (by simp)), ih fun z hz => h z (by simp [hz]), List.length_cons]
    omega

/-- A falling edge between two frames. -/
theorem fallingEdges_frames {ys : List Byte} (h : SymbolsOnly ys) : fallingEdges (ys.flatMap frame) = ys.length - 1 := by
  induction ys with
  | nil => rfl
  | cons y ys ih =>
    have hy : y ∈ symTable := h y (by simp)
    have ih := ih fun z hz => h z (by simp [hz])
    cases ys with
    | nil => rw [List.flatMap_cons, List.flatMap_nil, List.append_nil, fallingEdges_frame hy]; rfl
    | cons z zs =>
      have hstart : (z :: zs).flatMap frame = false :: ((List.range 8).map z.getLsbD ++ [true] ++ zs.flatMap frame) := rfl
      rw [hstart] at ih
      rw [List.flatMap_cons, hstart, fallingEdges_frame_append hy, ih]
      simp only [List.length_cons]
      omega

/-- Settles O26: the pulse of an entry of `SYM`, and the edges frame by frame. -/
theorem onePulsePerFrame : Obligations.OnePulsePerFrame := by
  refine ⟨fun k y hy => ?_, fun ys h => ⟨risingEdges_frames h, fallingEdges_frames h⟩⟩
  obtain ⟨hk, rfl⟩ := eq_symWindow_of_symTable hy
  exact frame_symWindow hk

end Sys2Proof
end

