-- ==== Sys2Proof/Proofs/Stall.lean ====
section
/-! A sink that accepts nothing (60_exceptions.md R131, R134). A delivery is then held; and while ENCODE is under way each
write to a sink that takes nothing more ends it, so that no turn of it finds the sink accepting. -/

namespace Sys2Proof

open Sys2Proof.Machine

/-- What LOOKUPs and EMITs keep while ENCODE is under way, and each of its writes and its reads at the end of the stream, ENCODE
keeps. -/
theorem encodeLoop_keeps_writes {P : State → Prop} (hl : ∀ x s t, s.enc ≠ .idle → P s → lookupOne x s = .next t → P t)
    (he : ∀ s t, s.enc ≠ .idle → P s → emitOne s = .next t → P t)
    (hflush : ∀ base pos s, s.enc ≠ .idle → P s → P (flushLine base pos s)) (hfinish : ∀ s, P s → P (finishEncode s))
    (habort : ∀ s, P s → P (s.abortEncode .sourceUnreadable)) (hread : ∀ s, s.src = [] → P s → P s.sourceRead) {n : Nat}
    {s t : State} (hs : P s) (hr : encodeLoop n s = .next t) : P t := by
  induction n generalizing s with
  | zero => cases hr; exact hs
  | succ n ih =>
    rcases encodeLoop_cases hr with ⟨-, rfl⟩ | ⟨base, pos, henc, h⟩
    · exact hs
    have hne : s.enc ≠ .idle := by simp [henc]
    have hemit : thenIfDone (emitOne s) (encodeLoop n) = .next t → P t := fun hr => by
      rcases thenIfDone_next hr with ⟨h1, -⟩ | ⟨u, h1, -, h2⟩
      · exact he _ _ hne hs h1
      · exact ih (he _ _ hne hs h1) h2
    rcases h with ⟨-, h⟩ | ⟨-, -, h⟩ | ⟨-, -, -, rfl⟩ | ⟨-, -, -, hsrc, -, rfl⟩ | ⟨-, -, -, hsrc, -, h⟩ |
      ⟨-, -, -, x, l, -, ⟨-, h⟩ | ⟨-, h⟩⟩
    · exact ih (hflush _ _ _ hne hs) h
    · exact hemit h
    · exact habort _ hs
    · exact hfinish _ (hread _ hsrc hs)
    · exact ih (hflush _ _ s.sourceRead hne (hread _ hsrc hs)) h
    · rcases thenIfDone_next h with ⟨h1, -⟩ | ⟨u, h1, -, h2⟩
      · exact hl _ _ _ hne hs h1
      · exact ih (hl _ _ _ hne hs h1) h2
    · exact hemit h

/-- From `s` to `t` nothing has been delivered and the queue has at most grown. -/
structure QueueKept (s t : State) : Prop where
  inv : BlockInv t
  cfg : t.cfg = s.cfg
  snk : t.snk = s.snk
  oq : s.oq <+: t.oq

/-- The sink is not willing, or has failed and takes nothing more. -/
def Stalled (s : State) : Prop := s.mReady = false ∨ (s.ioErr = some .sinkUnwritable ∧ s.io.writable = some 0)

theorem Stalled.sinkAccepts {s : State} (h : Stalled s) : s.sinkAccepts = false := by
  rcases h with h | h <;> simp [State.sinkAccepts, h]

section
variable {s u v : State}

theorem QueueKept.of_host (h : QueueKept s u) (hstep : HostStep u v) : QueueKept s v where
  inv := blockInv_keptByMoves.host h.inv hstep
  cfg := by rw [hstep]; exact h.cfg
  snk := by rw [hstep]; exact h.snk
  oq := by rw [hstep]; exact h.oq

theorem QueueKept.lookupOne {x : Byte} (h : QueueKept s u) (hr : lookupOne x u = .next v) : QueueKept s v := by
  refine ⟨exec_keeps_blockInv (i := .lookup x) h.inv hr, ?_, ?_, ?_⟩
  · rw [(lookupOne_frame hr).frame]; exact h.cfg
  · rw [(lookupOne_frame hr).frame]; exact h.snk
  · rcases lookupOne_next hr with ⟨k, rfl⟩ | ⟨-, -, w, -, rfl⟩
    · exact h.oq
    · exact h.oq.trans (List.prefix_append _ _)

/-- A delivery to a stalled sink is held. -/
theorem emitOne_of_stalled (hm : u.cfg.hasMod = false) (hstall : u.sinkAccepts = false) (hr : emitOne u = .next v) :
    ∃ k, v = u.held k := by
  rcases emitOne_next hr with hk | ⟨hm', -⟩ | ⟨-, hn, -⟩
  · exact hk
  · simp [hm] at hm'
  · simp [emitHold_eq_none, hstall] at hn

/-- A LOOKUP leaves a stalled sink as it is. -/
theorem Stalled.lookupOne {x : Byte} (h : Stalled u) (hr : lookupOne x u = .next v) : Stalled v := by
  rcases lookupOne_next hr with ⟨k, rfl⟩ | ⟨-, -, w, -, rfl⟩
  · exact h
  · exact h

/-- A write of at least a byte leaves the sink stalled, or has ended the ENCODE. -/
theorem Stalled.textWrite {bs : List Byte} (hbs : bs ≠ []) (h : Stalled u) :
    (textWrite bs u).enc = .idle ∨ Stalled (textWrite bs u) := by
  rcases h with h | ⟨-, hw⟩
  · exact .inr (.inl (by rw [textWrite_host bs u]; exact h))
  · rw [textWrite_cutOff hw (List.length_pos_iff.2 hbs)]
    exact .inl rfl

end

theorem dataLine_ne_nil (c : Config) (ys : List Byte) : dataLine c ys ≠ [] := by rw [dataLine_eq]; simp

/-- While ENCODE is under way the sink stays stalled. -/
def StalledUnderWay (s u : State) : Prop := QueueKept s u ∧ (u.enc = .idle ∨ Stalled u)

/-- A stalled sink lets ENCODE deliver nothing. -/
theorem execEncode_queueKept {s t : State} (h : BlockInv s) (hm : s.cfg.hasMod = false) (hstall : Stalled s)
    (hr : execEncode s = .next t) : QueueKept s t := by
  have hkept : QueueKept s (beginEncode s) :=
    QueueKept.of_host ⟨h, rfl, rfl, List.prefix_refl _⟩ (beginEncode_host s)
  have hbegin : StalledUnderWay s (beginEncode s) := by
    refine ⟨hkept, ?_⟩
    cases he : s.enc with
    | filling base pos => rw [beginEncode_of_filling he]; exact .inr hstall
    | idle =>
      rw [beginEncode_of_idle he]
      rcases hstall with hready | ⟨-, hw⟩
      · exact .inr (.inl (by rw [textWrite_host]; exact hready))
      · rw [textWrite_cutOff (s := s.begun) hw (by rw [preamble_length]; omega)]
        exact .inl rfl
  refine (encodeLoop_keeps_writes (P := StalledUnderWay s) ?lookup ?emit ?flush ?finish ?abort ?read hbegin hr).1
  case lookup => exact fun x u v hne hu hv => ⟨hu.1.lookupOne hv, .inr ((hu.2.resolve_left hne).lookupOne hv)⟩
  case emit =>
    intro u v hne hu hv
    have hstalled := hu.2.resolve_left hne
    obtain ⟨k, rfl⟩ := emitOne_of_stalled (by rw [hu.1.cfg, hm]) hstalled.sinkAccepts hv
    exact ⟨hu.1.of_host (held_host u k), .inr hstalled⟩
  case flush =>
    intro base pos u hne hu
    have hstalled : Stalled { u with enc := .filling base (pos + ((u.unwritten pos).take chunkSize).length) } :=
      hu.2.resolve_left hne
    exact ⟨hu.1.of_host (flushLine_host base pos u), hstalled.textWrite (dataLine_ne_nil _ _)⟩
  case finish => exact fun u hu => ⟨hu.1.of_host (finishEncode_host u), .inl rfl⟩
  case abort => exact fun u hu => ⟨hu.1.of_host rfl, .inl rfl⟩
  case read => exact fun u _ hu => ⟨hu.1.of_host (sourceRead_host u), hu.2⟩

/-- Settles O21: of the operations that deliver, without the serialiser each finds the sink stalled. -/
theorem sinkStallKeepsQueue : Obligations.SinkStallKeepsQueue := by
  intro i s t h hi hm hstall hr
  obtain ⟨-, -, -, hsnk, hoq, -⟩ := writersOfState i s t hr
  have hinv := exec_keeps_blockInv h hr
  have hcfg := (exec_sameSetting hr).1
  have hstay : t.snk = s.snk → t.oq = s.oq → QueueKept s t := fun h1 h2 => ⟨hinv, hcfg, h1, h2 ▸ List.prefix_refl _⟩
  have hemit : ∀ {u v : State}, u.cfg.hasMod = false → Stalled u → QueueKept s u → emitOne u = .next v → QueueKept s v := by
    intro u v hmu hstalled hu hv
    obtain ⟨k, rfl⟩ := emitOne_of_stalled hmu hstalled.sinkAccepts hv
    exact hu.of_host (held_host u k)
  have hrefl : QueueKept s s := ⟨h, rfl, rfl, List.prefix_refl _⟩
  have hkept : QueueKept s t := by
    cases i with
    | reset => exact absurd rfl hi
    | buildStep => exact hstay (hsnk nofun (by simp)) (hoq (by simp))
    | build => exact hstay (hsnk nofun (by simp)) (hoq (by simp))
    | modShift => exact hstay (hsnk nofun (by simp)) (hoq (by simp))
    | modIdle => exact hstay (hsnk nofun (by simp)) (hoq (by simp))
    | lookup x => exact hrefl.lookupOne hr
    | emit => exact hemit hm hstall hrefl hr
    | modLoad =>
      rw [show t = s.held .notPresent from Host.Outcome.next.inj (hr.symm.trans (loadOne_of_hold (if_pos (by simp [hm]))))]
      exact hrefl.of_host (held_host s _)
    | quant x =>
      rcases thenIfDone_next hr with ⟨h1, -⟩ | ⟨u, h1, -, h2⟩
      · exact hrefl.lookupOne h1
      · have hu := hrefl.lookupOne h1
        exact hemit (by rw [hu.cfg, hm]) (Stalled.lookupOne hstall h1) hu h2
    | encode => exact execEncode_queueKept h hm hstall hr
  obtain ⟨more, hmore⟩ := hkept.oq
  exact ⟨hkept.snk, more, hmore.symm, hcfg ▸ hkept.inv.oq_le⟩

end Sys2Proof
end

