-- ==== Sys2Proof/Proofs/Ports.lean ====
section
/-! The ports (10_state.md R29) and what falls at one clock edge (60_exceptions.md R136). A sample once offered stays the head
of `src`, of a source that can be read, until LOOKUP takes it: ENCODE reads the source without taking a sample only where
`src` is empty. -/

namespace Sys2Proof

open Sys2Proof.Machine

/-! ### An offer that stays -/

/-- The sample `x` is offered still, with `out` delivered or on its way; or it has been accepted behind `out`. -/
def OfferKept (x : Byte) (out : List Byte) (t : State) : Prop :=
  (t.src.head? = some x ∧ t.io.readable ≠ some 0 ∧ t.snk ++ t.oq = out) ∨ ∃ more, t.snk ++ t.oq = out ++ Q x :: more

section
variable {x : Byte} {out : List Byte} {s t : State}

/-- A step that leaves `src`, and of the files the reads. -/
theorem OfferKept.of_forward (h : OfferKept x out s) (hf : Forward s t) (hsrc : t.src = s.src)
    (hio : t.io.readable = s.io.readable) : OfferKept x out t := by
  obtain ⟨acc, hacc, hout⟩ := hf.streams
  have hnone : acc = [] := List.append_left_eq_self.1 (hsrc ▸ hacc).symm
  rw [hnone, List.map_nil, List.append_nil] at hout
  rw [OfferKept, hsrc, hio, hout]
  exact h

theorem OfferKept.of_host (h : OfferKept x out s) (hstep : HostStep s t) (hio : t.io.readable = s.io.readable) :
    OfferKept x out t :=
  h.of_forward hstep.forward (by rw [hstep]) hio

theorem OfferKept.of_accepted (h : ∃ more, s.snk ++ s.oq = out ++ Q x :: more) (hf : Forward s t) : OfferKept x out t := by
  obtain ⟨more, hmore⟩ := h
  obtain ⟨acc, -, hout⟩ := hf.streams
  exact .inr ⟨more ++ acc.map Q, by rw [hout, hmore, List.append_assoc, List.cons_append]⟩

/-- LOOKUP accepts the sample offered or none. -/
theorem OfferKept.lookupOne {y : Byte} (hinv : BlockInv s) (h : OfferKept x out s) (hr : lookupOne y s = .next t) :
    OfferKept x out t := by
  have hf : Forward s t := exec_forward (i := .lookup y) hinv nofun hr
  rcases h with ⟨hx, hio, hout⟩ | hacc
  · rcases lookupOne_next hr with ⟨k, rfl⟩ | ⟨hn, hy, v, hv, rfl⟩
    · exact .inl ⟨hx, hio, hout⟩
    · obtain rfl : y = x := Option.some.inj (hy.symm.trans hx)
      obtain rfl : v = Q y := Option.some.inj (hv.symm.trans (mapRead_eq_of_lookupHold hinv hn))
      exact .inr ⟨[], by rw [State.accepted_snk, State.accepted_oq, ← List.append_assoc, hout]⟩
  · exact .of_accepted hacc hf

theorem OfferKept.emitOne (hinv : BlockInv s) (h : OfferKept x out s) (hr : emitOne s = .next t) : OfferKept x out t :=
  h.of_forward (exec_forward (i := .emit) hinv nofun hr) (by rw [emitOne_frame hr]) (by rw [emitOne_frame hr])

end

/-- Writing does not touch the reads. -/
theorem textWrite_readable (bs : List Byte) (s : State) : (textWrite bs s).io.readable = s.io.readable := by
  rw [textWrite]
  split
  · rfl
  · split <;> rfl

theorem beginEncode_readable (s : State) : (beginEncode s).io.readable = s.io.readable := by
  cases he : s.enc with
  | idle => rw [beginEncode_of_idle he, textWrite_readable]; rfl
  | filling base pos => rw [beginEncode_of_filling he]

theorem execEncode_offerKept {x : Byte} {out : List Byte} {s t : State} (hinv : BlockInv s) (h : OfferKept x out s)
    (hr : execEncode s = .next t) : OfferKept x out t := by
  have hhost : ∀ {u v : State}, BlockInv u ∧ OfferKept x out u → HostStep u v → v.io.readable = u.io.readable →
      BlockInv v ∧ OfferKept x out v := fun hu hstep hio =>
    ⟨blockInv_keptByMoves.host hu.1 hstep, hu.2.of_host hstep hio⟩
  refine (encodeLoop_keeps_writes (P := fun u => BlockInv u ∧ OfferKept x out u) ?lookup ?emit ?flush ?finish ?abort ?read
    (hhost ⟨hinv, h⟩ (beginEncode_host s) (beginEncode_readable s)) hr).2
  case lookup => exact fun y u v _ hu hv => ⟨exec_keeps_blockInv (i := .lookup y) hu.1 hv, hu.2.lookupOne hu.1 hv⟩
  case emit => exact fun u v _ hu hv => ⟨exec_keeps_blockInv (i := .emit) hu.1 hv, hu.2.emitOne hu.1 hv⟩
  case flush => exact fun base pos u _ hu => hhost hu (flushLine_host base pos u) (textWrite_readable _ _)
  case finish => exact fun u hu => hhost hu (finishEncode_host u) (textWrite_readable _ _)
  case abort => exact fun u hu => hhost hu rfl rfl
  case read =>
    intro u hsrc hu
    refine ⟨blockInv_keptByMoves.host hu.1 (sourceRead_host u), ?_⟩
    rcases hu.2 with ⟨hx, -⟩ | hacc
    · simp [hsrc] at hx
    · exact .of_accepted hacc (sourceRead_host u).forward

theorem exec_offerKept {i : Instr} {x : Byte} {out : List Byte} {s t : State} (hinv : BlockInv s) (hi : i ≠ .reset)
    (h : OfferKept x out s) (hr : exec i s = .next t) : OfferKept x out t := by
  obtain ⟨-, -, hsrc, -, -, -, hhost, -⟩ := writersOfState i s t hr
  have hf : Forward s t := exec_forward hinv hi hr
  have hstay : t.src = s.src → SameHost s t → OfferKept x out t := fun h1 ⟨_, _, hio, _⟩ => h.of_forward hf h1 (by rw [hio])
  cases i with
  | reset => exact absurd rfl hi
  | lookup y => exact h.lookupOne hinv hr
  | quant y =>
    rcases thenIfDone_next hr with ⟨h1, -⟩ | ⟨u, h1, -, h2⟩
    · exact h.lookupOne hinv h1
    · exact (h.lookupOne hinv h1).emitOne (exec_keeps_blockInv (i := .lookup y) hinv h1) h2
  | encode => exact execEncode_offerKept hinv h hr
  | buildStep => exact hstay (hsrc nofun nofun nofun) (hhost nofun nofun nofun nofun)
  | build => exact hstay (hsrc nofun nofun nofun) (hhost nofun nofun nofun nofun)
  | emit => exact hstay (hsrc nofun nofun nofun) (hhost nofun nofun nofun nofun)
  | modLoad => exact hstay (hsrc nofun nofun nofun) (hhost nofun nofun nofun nofun)
  | modShift => exact hstay (hsrc nofun nofun nofun) (hhost nofun nofun nofun nofun)
  | modIdle => exact hstay (hsrc nofun nofun nofun) (hhost nofun nofun nofun nofun)

theorem step_offerKept {x : Byte} {out : List Byte} {s t : State} (hinv : BlockInv s) (hq : quiet s) (h : OfferKept x out s)
    (hr : step s = .next t) : OfferKept x out t := by
  rcases step_next_of_quiet hq hr with ⟨i, rest, hi, hx⟩ | ⟨ht, hsrc⟩
  · exact exec_offerKept (hinv.advance rest) hi h hx
  · refine h.of_forward (.of_same ?_ hsrc ?_ ?_) hsrc ?_
    all_goals rw [ht.frame]

/-! ### The port table -/

theorem mValid_eq_true {s : State} : s.mValid = true ↔ s.rst = false ∧ s.oq ≠ [] := by simp [State.mValid]

theorem sReadyAllowed_eq_true {s : State} : s.sReadyAllowed = true ↔
    s.rst = false ∧ s.ready = true ∧ s.oq.length < s.cfg.oqDepth ∧ s.sValid = true := by
  rw [State.sReadyAllowed, Option.isNone_iff_eq_none, lookupHold_eq_none]

/-- Settles O22: the table is the definitions of the ports, and the offer is kept by every quiet step. -/
theorem portOutputs : Obligations.PortOutputs := by
  refine fun s => ⟨fun hrst => ?_, fun hv => ?_, fun hready => ?_, sReadyAllowed_eq_true, rfl, sValid_eq_true, ?_, rfl,
    fun t x hr hold => ?_, fun t x hinv hq hvalid hx hr => ?_⟩
  · rw [mValid_eq_true, List.length_pos_iff]
    exact and_iff_right hrst
  · obtain ⟨y, rest, hq⟩ := List.exists_cons_of_ne_nil (mValid_eq_true.1 hv).2
    rw [State.mData, if_pos hv, hq, List.head?_cons, List.headD_cons]
  · rw [← Bool.not_eq_true, sReadyAllowed_eq_true, hready]
    simp
  · simp only [State.mReadyPort, State.sinkAccepts, beq_eq_decide, bne, ne_eq, decide_not]
  · rcases lookupOne_next hr with ⟨k, rfl⟩ | ⟨-, -, v, -, rfl⟩
    · cases hold
    · rfl
  · have hoffer : OfferKept x (s.snk ++ s.oq) s := .inl ⟨hx, (sValid_eq_true.1 hvalid).2, rfl⟩
    refine (step_offerKept hinv hq hoffer hr).imp_left fun ⟨hx', hio, _⟩ => ⟨sValid_eq_true.2 ⟨?_, hio⟩, hx'⟩
    exact fun hnil => by simp [hnil] at hx'

/-! ### One clock edge -/

/-- The delivery of `y`, by the sink that the parameters give the block (43_pwm_frame.md R121). -/
def Machine.State.sent (s : State) (y : Byte) : State := if s.cfg.hasMod then s.loaded y else s.delivered y

/-- EMIT where the sink, or an idle MOD, accepts. -/
theorem emitOne_sent {s : State} {y : Byte} {rest : List Byte} (hrst : s.rst = false) (hready : s.mReadyPort = true)
    (hq : s.oq = y :: rest) : emitOne s = .next (s.sent y) := by
  cases hm : s.cfg.hasMod with
  | true =>
    rw [State.sent, if_pos hm]
    exact emitOne_loaded hm hrst (by simpa [State.mReadyPort, hm] using hready) hq
  | false =>
    rw [State.sent, if_neg (by simp [hm])]
    exact emitOne_delivered hm hrst hq (by simpa [State.mReadyPort, hm] using hready)

theorem sent_accepted {s : State} (hq : s.oq ≠ []) (y v : Byte) : (s.accepted v).sent y = (s.sent y).accepted v := by
  have htail : (s.oq ++ [v]).tail = s.oq.tail ++ [v] := List.tail_append_of_ne_nil hq
  unfold State.sent
  rw [State.accepted_cfg]
  split
  · simp only [State.accepted, State.loaded, State.delivered, htail]
  · simp only [State.accepted, State.delivered, htail]

theorem transfersOut_eq {s : State} (hrst : s.rst = false) (hq : s.oq ≠ []) : s.transfersOut = s.mReadyPort := by
  rw [State.transfersOut, mValid_eq_true.2 ⟨hrst, hq⟩, Bool.true_and]

section
variable {s : State} {e : Edge}

theorem isNone_buildHold_of_ready (h : s.ready = true) : (buildHold s).isNone = false := by
  rw [Option.isNone_eq_false_iff, ← Option.ne_none_iff_isSome, Ne, buildHold_eq_none, h]
  simp

theorem edgeBuild_of_ready (h : s.ready = true) : edgeBuild s e = [] := by
  rw [edgeBuild, isNone_buildHold_of_ready h, Bool.and_false]
  rfl

/-- With a transfer the output channel takes a symbol; a slot tick that falls there drives its first slot. -/
theorem edgeOut_of_transfer (h : s.transfersOut = true) :
    edgeOut s e = if s.cfg.hasMod then (if e.tick then tickOps s else [.modLoad]) else [.emit] := by
  rw [edgeOut, h]
  cases s.cfg.hasMod <;> cases e.tick <;> rfl

theorem edgeOut_of_no_transfer (h : s.transfersOut = false) :
    edgeOut s e = if s.cfg.hasMod && e.tick then tickOps s else [] := by
  rw [edgeOut, h]
  rfl

theorem edgeIn_of_offer {x : Byte} {rest : List Byte} (hs : s.src = x :: rest) (hwill : e.sReadyWill = true) :
    edgeIn s e = if s.afterOut.sReadyAllowed then [.lookup x] else [] := by
  rw [edgeIn, hs, hwill]
  rfl

theorem afterOut_sValid : s.afterOut.sValid = s.sValid := by
  rw [State.afterOut]
  split <;> rfl

/-- A tick on a MOD that is not idle shifts. -/
theorem tickOps_busy (hm : s.cfg.hasMod = true) (hbusy : s.fcnt ≠ 0#4) : tickOps s = [.modShift] := by
  simp [tickOps, hm, hbusy]

/-- The operations of an edge of a ready block without reset. -/
theorem edgeOps_of_ready (hready : s.ready = true) (he : e.rst = false) : edgeOps s e = edgeOut s e ++ edgeIn s e := by
  rw [edgeOps, if_neg (by simp [he]), edgeBuild_of_ready hready, List.nil_append]

theorem lookup_mem_edgeIn {x : Byte} (h : .lookup x ∈ edgeOps s e) : .lookup x ∈ edgeIn s e := by
  have hbuild : .lookup x ∉ edgeBuild s e := by
    rw [edgeBuild]
    split <;> simp
  have hout : .lookup x ∉ edgeOut s e := by
    rw [edgeOut, tickOps]
    split_ifs <;> simp
  rw [edgeOps] at h
  split at h
  · simp at h
  · simpa [hbuild, hout] using h

theorem mem_edgeIn {i : Instr} (h : i ∈ edgeIn s e) : ∃ x, i = .lookup x := by
  rw [edgeIn] at h
  split at h
  · cases h
  · split at h
    · exact ⟨_, List.mem_singleton.1 h⟩
    · cases h

/-- LOOKUP runs at an edge only where the source offers. -/
theorem sValid_of_lookup_mem_edgeIn {x : Byte} (h : .lookup x ∈ edgeIn s e) : s.sValid = true := by
  rw [edgeIn] at h
  split at h
  · simp at h
  · split at h
    case isTrue hallowed =>
      rw [← afterOut_sValid]
      exact (sReadyAllowed_eq_true.1 (Bool.and_eq_true_iff.1 hallowed).2).2.2.2
    case isFalse => simp at h

end

/-- EMIT and LOOKUP commute on a queue that is neither empty nor full (60_exceptions.md R136). -/
theorem emit_lookup_commute {s : State} {x y : Byte} {rest l : List Byte} (hinv : BlockInv s) (hn : lookupHold s = none)
    (hport : s.mReadyPort = true) (hq : s.oq = y :: l) (hs : s.src = x :: rest) :
    emitOne s = .next (s.sent y) ∧ lookupOne x (s.sent y) = .next ((s.sent y).accepted (Q x)) ∧
      lookupOne x s = .next (s.accepted (Q x)) ∧ emitOne (s.accepted (Q x)) = .next ((s.sent y).accepted (Q x)) := by
  obtain ⟨hrst, hready, hroom, hvalid⟩ := lookupHold_eq_none.1 hn
  have hemit := emitOne_sent hrst hport hq
  have hinv' : BlockInv (s.sent y) := exec_keeps_blockInv (i := .emit) hinv hemit
  have hframe := emitOne_frame hemit
  have hhead : s.src.head? = some x := by rw [hs, List.head?_cons]
  have hn' : lookupHold (s.sent y) = none := by
    have hoq : (s.sent y).oq = s.oq.tail := by unfold State.sent; split <;> rfl
    rw [lookupHold_eq_none, hoq, hframe]
    exact ⟨hrst, hready, (List.length_tail.trans_le (Nat.sub_le _ _)).trans_lt hroom, hvalid⟩
  refine ⟨hemit, ?_, lookupOne_of_mapRead_some hn hhead (mapRead_eq_of_lookupHold hinv hn), ?_⟩
  · exact lookupOne_of_mapRead_some hn' (by rw [hframe]; exact hhead) (mapRead_eq_of_lookupHold hinv' hn')
  · rw [← sent_accepted (by simp [hq])]
    exact emitOne_sent (s := s.accepted (Q x)) hrst hport (by rw [State.accepted_oq, hq]; rfl)

/-- Settles O23: by the definitions of an edge's operations. -/
theorem simultaneousEvents : Obligations.SimultaneousEvents := by
  refine ⟨fun s e he => if_pos he,
    fun s x hinv hready => ⟨lookupOne_held (lookupHold_ne_none (.inl hready)), emitOne_held_of_empty (hinv.oq_empty hready)⟩,
    fun s x rest hinv hready hrst hport hpos hroom hvalid hs => ?_,
    fun s e x rest hinv hready hrst hport hq hvalid hs he hwill => ?_,
    fun s e x rest hinv hready hrst hport hvalid hs he hwill => ?_, fun s e hready hq he i hi => ?_,
    fun s e x hvalid hmem => ?_, fun s hm hidle hq => tickOps_waiting hm hidle hq⟩
  · obtain ⟨y, l, hq⟩ := List.exists_cons_of_ne_nil (List.length_pos_iff.1 hpos)
    obtain ⟨h1, h2, h3, h4⟩ := emit_lookup_commute hinv (lookupHold_eq_none.2 ⟨hrst, hready, hroom, hvalid⟩) hport hq hs
    exact ⟨_, _, _, h1, h2, h3, h4⟩
  · have hout : s.transfersOut = true := (transfersOut_eq hrst hq).trans hport
    have hallowed : s.afterOut.sReadyAllowed = true := by
      have hpos : 0 < s.oq.length := List.length_pos_iff.2 hq
      have hle := hinv.oq_le
      rw [sReadyAllowed_eq_true, afterOut_sValid, State.afterOut, if_pos hout]
      refine ⟨hrst, hready, ?_, hvalid⟩
      show s.oq.tail.length < s.cfg.oqDepth
      rw [List.length_tail]
      omega
    rw [edgeOps_of_ready hready he, edgeOut_of_transfer hout, edgeIn_of_offer hs hwill, if_pos hallowed]
    cases hm : s.cfg.hasMod with
    | false => rfl
    | true => rw [tickOps_waiting hm (by simpa [State.mReadyPort, hm] using hport) hq]
  · have hout : s.transfersOut = false := by rw [State.transfersOut, hport, Bool.and_false]
    have hallowed : s.afterOut.sReadyAllowed = true ↔ s.oq.length < s.cfg.oqDepth := by
      rw [State.afterOut, if_neg (by simp [hout]), sReadyAllowed_eq_true]
      exact ⟨fun h => h.2.2.1, fun h => ⟨hrst, hready, h, hvalid⟩⟩
    rw [edgeOps_of_ready hready he, edgeOut_of_no_transfer hout, edgeIn_of_offer hs hwill]
    simp only [hallowed]
    cases hm : s.cfg.hasMod with
    | false => rfl
    | true => rw [tickOps_busy hm (by simpa [State.mReadyPort, hm] using hport)]
  · have hout : s.transfersOut = false := by simp [State.transfersOut, State.mValid, hq]
    rw [edgeOps_of_ready hready he, edgeOut_of_no_transfer hout, List.mem_append] at hi
    rcases hi with hi | hi
    · split at hi
      case isTrue hmod =>
        obtain ⟨hm, htick⟩ := Bool.and_eq_true_iff.1 hmod
        refine .inr ⟨hm, htick, ?_⟩
        by_cases hidle : s.fcnt = 0#4
        · simpa [tickOps, hm, hidle, hq] using hi
        · simpa [tickOps_busy hm hidle, hidle] using hi
      case isFalse => cases hi
    · exact .inl (mem_edgeIn hi)
  · exact absurd (sValid_of_lookup_mem_edgeIn (lookup_mem_edgeIn hmem)) (by simp [hvalid])

end Sys2Proof
end

