-- ==== Sys2Proof/Proofs/Numerics.lean ====
section
/-! The source's real-valued index formula (40_build.md R82): `lerp` from 0 to 9 over 256 samples is `9 i / 256`, whose
truncation is the integer index, and each intermediate of its evaluation is a fraction of at most 12 bits over a power of two.
-/

namespace Sys2Proof

open Sys2Proof.Machine

theorem lerpIndex_eq (i : Byte) : lerpIndex i = 9 * (i.toNat : Rat) / 256 := by
  rw [lerpIndex, lerp]
  ring

/-- The truncation of a fraction of naturals is their quotient. -/
theorem trunc_natCast_div (m n : Nat) : trunc ((m : Rat) / n) = ((m / n : Nat) : Int) := by
  have hpos : (0 : Rat) ≤ (m : Rat) / n := by positivity
  rw [trunc, if_pos hpos]
  exact Rat.floor_natCast_div_natCast m n

/-- Settles O3: the quotient of R64 is the truncation. -/
theorem indexIsTruncatedLerp : Obligations.IndexIsTruncatedLerp := by
  refine fun i => ⟨lerpIndex_eq i, ?_⟩
  have hfrac : lerpIndex i = ((i.toNat * 9 : Nat) : Rat) / (256 : Nat) := by
    rw [lerpIndex_eq]
    push_cast
    ring
  rw [hfrac, trunc_natCast_div, idx_toNat]

/-- A fraction of at most 12 bits over a power of two is exact with 12 significand bits or more. -/
theorem exactIn_of_twelve {p m e : Nat} {x : Rat} (hp : 12 ≤ p) (hm : m < 2 ^ 12) (hx : x = (m : Rat) / 2 ^ e) : ExactIn p x :=
  ⟨m, e, hm.trans_le (Nat.pow_le_pow_right (by decide) hp), hx⟩

/-- Settles O4: the numerators are at most `9 * 255`. -/
theorem floatEvaluationExact : Obligations.FloatEvaluationExact := by
  intro i p hp
  have hi : i.toNat < 256 := i.isLt
  refine ⟨fun x hx => ?_, ?_, ?_, ?_⟩
  · simp only [floatIntermediates, List.mem_cons, List.not_mem_nil, or_false] at hx
    rcases hx with rfl | rfl | rfl | rfl | rfl | rfl
    · exact exactIn_of_twelve hp (m := i.toNat * 9) (e := 0) (by omega) (by push_cast; ring)
    · exact exactIn_of_twelve hp (m := i.toNat * 9) (e := 8) (by omega) (by push_cast; ring)
    · exact exactIn_of_twelve hp (m := i.toNat) (e := 8) (by omega) (by norm_num)
    · exact exactIn_of_twelve hp (m := i.toNat * 9) (e := 8) (by omega) (by push_cast; ring)
    · exact exactIn_of_twelve hp (m := 9) (e := 8) (by decide) (by norm_num)
    · exact exactIn_of_twelve hp (m := i.toNat * 9) (e := 8) (by omega) (by push_cast; ring)
  all_goals rw [lerpIndex_eq]; ring

end Sys2Proof
end

