-- ==== Sys2Proof/Proofs/PrintedMap.lean ====
section
/-! The printed map (30_encoding.md R66), compared row by row, the high nibble of the sample choosing the row. -/

namespace Sys2Proof

open Sys2Proof.Machine

/-- The row of the map that the high nibble `r` chooses. -/
def mapRow (r : Nat) : List Nat := (List.range 16).map fun c => (Q (BitVec.ofNat 8 (16 * r + c))).toNat

/-- A list over the first `16 n` numbers, cut into rows of 16. -/
theorem map_range_rows {α : Type} (f : Nat → α) (n : Nat) :
    (List.range (16 * n)).map f = ((List.range n).map fun r => (List.range 16).map fun c => f (16 * r + c)).flatten := by
  induction n with
  | zero => rfl
  | succ n ih =>
    rw [Nat.mul_succ, List.range_add, List.map_append, ih, List.range_succ (n := n), List.map_append, List.flatten_append,
      List.map_map, List.map_singleton, List.flatten_singleton]
    rfl

theorem printedRows_eq : printedRows = (List.range 16).map mapRow := by decide

/-- Settles O9: the sixteen rows one after the other; `builtMap` lists the same cells with their addresses. -/
theorem printedMap : Obligations.PrintedMap := by
  refine ⟨?_, fun c hp => if_pos hp⟩
  rw [printedRows_eq]
  exact map_range_rows (fun a => (Q (BitVec.ofNat 8 a)).toNat) 16

end Sys2Proof
end

