-- ==== Sys2Proof/Proofs/Selection.lean ====
section
/-! Selection (30_encoding.md R60, R68), and what a step makes of the turn it takes (00_scope.md R12; 10_state.md R29). -/

namespace Sys2Proof

open Sys2Proof.Machine

/-- Settles O57: a row of 8 bits is one word of the input channel. -/
theorem selectionsDecode : Obligations.SelectionsDecode := ⟨rfl, rfl, rfl, rfl, rfl⟩

theorem decode_encode (i : Instr) : decode (encode i).1 (encode i).2 = .ok i := by cases i <;> rfl

theorem decodeNone_eq_ok {i j : Instr} {w : List Byte} (h : decodeNone i w = .ok j) : j = i ∧ w = [] := by
  cases w with
  | nil => exact ⟨(Except.ok.inj h).symm, rfl⟩
  | cons => cases h

theorem decodeSample_eq_ok {f : Byte → Instr} {j : Instr} {w : List Byte} (h : decodeSample f w = .ok j) :
    ∃ x, j = f x ∧ w = [x] := by
  match w, h with
  | [x], h => exact ⟨x, (Except.ok.inj h).symm, rfl⟩

/-- What decodes to an operation is its selection: each event has one operation, and its words are all operand. -/
theorem encode_of_decode {sel : Selector} {w : List Byte} {i : Instr} (h : decode sel w = .ok i) : encode i = (sel, w) := by
  cases sel with
  | inputChannel => obtain ⟨x, rfl, rfl⟩ := decodeSample_eq_ok h; rfl
  | traceQuant => obtain ⟨x, rfl, rfl⟩ := decodeSample_eq_ok h; rfl
  | resetEdge => obtain ⟨rfl, rfl⟩ := decodeNone_eq_ok h; rfl
  | builder => obtain ⟨rfl, rfl⟩ := decodeNone_eq_ok h; rfl
  | outputChannel => obtain ⟨rfl, rfl⟩ := decodeNone_eq_ok h; rfl
  | modTake => obtain ⟨rfl, rfl⟩ := decodeNone_eq_ok h; rfl
  | slotOfFrame => obtain ⟨rfl, rfl⟩ := decodeNone_eq_ok h; rfl
  | slotIdle => obtain ⟨rfl, rfl⟩ := decodeNone_eq_ok h; rfl
  | traceBuild => obtain ⟨rfl, rfl⟩ := decodeNone_eq_ok h; rfl
  | traceEncode => obtain ⟨rfl, rfl⟩ := decodeNone_eq_ok h; rfl

/-- Settles O58: `decode` and `encode` are inverse to each other where `decode` succeeds. -/
theorem encodeThenDecode : Obligations.EncodeThenDecode := ⟨decode_encode, fun _ _ _ h => encode_of_decode h⟩

/-- A step that runs an operation. -/
theorem step_of_run {i : Instr} {s u : State} (h : fetch s = .run i u) : step s = exec i u := by rw [step, h, runFetched]

theorem step_of_settle {s u : State} (h : fetch s = .settle u) : step s = .next u := by rw [step, h, runFetched]

/-- The block's own move where nothing is scheduled (log entry 9). -/
theorem fetch_auto {i : Instr} {s : State} (hs : s.sched = []) (ha : autoOp s = some i) : fetch s = .run i (s.advance []) := by
  simp only [fetch, hs, ha]

/-- Settles O59: by the turn that `fetch` takes. -/
theorem stepRunsSelected : Obligations.StepRunsSelected := by
  refine ⟨fun s sel w rest i hs hd => ?_, fun s i hs ha => ?_, fun s e rest hs => ?_, fun s hs ha => ?_,
    fun s sel w rest e hs hd => ?_⟩
  · exact step_of_run (by simp only [fetch, hs, hd]; rfl)
  · exact step_of_run (fetch_auto hs ha)
  · exact step_of_settle (by simp only [fetch, hs]; rfl)
  · have hidle : s.advance [] = { s with free := s.free + 1 } := by rw [State.advance, ← hs]
    exact step_of_settle (by simp only [fetch, hs, ha, hidle])
  · rw [step, fetch, hs]
    simp only [hd]
    rfl

/-- Settles O60: the turns of the host and the tick, as `fetch` takes them. -/
theorem stepHostTurns : Obligations.StepHostTurns := by
  refine fun s rest => ⟨fun x hs => ?_, fun b hs => ?_, fun b hs => ?_, fun hs => ?_, fun l io hs => ?_, fun hs => ?_⟩
  · exact step_of_settle (by rw [fetch, hs]; rfl)
  · exact step_of_settle (by rw [fetch, hs]; rfl)
  · exact step_of_settle (by rw [fetch, hs]; rfl)
  · exact step_of_settle (by rw [fetch, hs]; rfl)
  · exact step_of_run (by rw [fetch, hs]; rfl)
  · exact step_of_settle (by rw [fetch, hs]; rfl)

end Sys2Proof
end

