-- ==== Sys2Proof/Proofs/Progress.lean ====
section
/-! Progress of the block left to itself (10_state.md R33, R34, 70_reset_and_hazards.md R160; log entry 9). The builder takes
one entry a step; once the map is built each step of a free run takes one from the count `stepsLeft`, and where nothing is
left the run is finished. -/

namespace Sys2Proof

open Sys2Proof.Machine

/-! ### The builder -/

theorem autoOp_buildStep {s : State} (hn : buildHold s = none) : autoOp s = some .buildStep := by
  obtain ⟨-, hrst, -⟩ := buildHold_eq_none.1 hn
  simp [autoOp, hrst, hn]

/-- Settles O51: by induction on the entries that are left. -/
theorem builderFinishes : Obligations.BuilderFinishes := by
  intro s h hsched hrst hready
  obtain ⟨n, hn⟩ : ∃ n, 256 - s.bidx.toNat = n := ⟨_, rfl⟩
  rw [hn]
  induction n generalizing s with
  | zero => exact absurd (bidx_lt_of_not_ready h hready) (by omega)
  | succ n ih =>
    have hp : s.cfg.prebuilt = false := by
      by_contra hp
      simp [h.prebuilt_ready (by simpa using hp)] at hready
    have hhold : buildHold s = none := buildHold_eq_none.2 ⟨hp, hrst, hready⟩
    obtain ⟨u, hu⟩ : ∃ u, u = (s.advance []).built (Q (buildAddress s.bidx)) := ⟨_, rfl⟩
    have hrun : exec .buildStep (s.advance []) = .next u := hu ▸ buildOne_enabled (s := s.advance []) hhold
    have hinv : BlockInv u := exec_keeps_blockInv (h.advance []) hrun
    have hbidx : u.bidx.toNat = s.bidx.toNat + 1 := by
      rw [hu, State.built_bidx, State.advance_bidx]
      exact toNat_bidx_add_one (bidx_lt_of_not_ready h hready)
    have hstep : stepMany (n + 1) s = stepMany n u := by
      rw [stepMany, step_of_run (fetch_auto hsched (autoOp_buildStep hhold)), hrun]
    have hsame : u.oq = s.oq ∧ u.src = s.src ∧ u.snk = s.snk ∧ SameMod s u := by
      rw [hu]
      exact ⟨rfl, rfl, rfl, rfl, rfl, rfl, rfl⟩
    obtain ⟨hoq, hsrc, hsnk, hmod⟩ := hsame
    rw [hstep]
    cases hready' : u.ready with
    | true =>
      have hdone : n = 0 := by have := hinv.ready_iff.1 hready'; omega
      rw [hdone]
      exact ⟨u, rfl, hready', hoq.trans (h.oq_empty hready), hsrc, hsnk, hmod⟩
    | false =>
      obtain ⟨t, ht, htready, htoq, htsrc, htsnk, htmod⟩ := ih u hinv (hu ▸ rfl) (hu ▸ hrst) hready' (by omega)
      obtain ⟨hfr, hfcnt, hline, htx⟩ := htmod
      obtain ⟨hfr', hfcnt', hline', htx'⟩ := hmod
      exact ⟨t, ht, htready, htoq, htsrc.trans hsrc, htsnk.trans hsnk, hfr.trans hfr', hfcnt.trans hfcnt', hline.trans hline',
        htx.trans htx'⟩

/-! ### The free run -/

theorem Run.head {s t u : State} (hq : quiet s) (hr : Machine.step s = .next u) (h : Run u t) : Run s t := by
  induction h with
  | refl => exact .step (.refl s) hq hr
  | step _ hq' hr' ih => exact .step ih hq' hr'

/-- A free run after the operation `i` of the block has taken one of the steps that are left. -/
structure FreeStep (s : State) (i : Instr) (u : State) : Prop where
  noReset : i ≠ .reset
  auto : autoOp s = some i
  run : exec i (s.advance []) = .next u
  free : FreeRunning u
  ready : u.ready = true
  left : stepsLeft s = stepsLeft u + 1

/-- A source that can be read to the end offers what there is. -/
theorem FreeRunning.sValid {s : State} (hf : FreeRunning s) (hs : s.src ≠ []) : s.sValid = true := by
  obtain ⟨-, -, -, hread⟩ := hf
  refine sValid_eq_true.2 ⟨hs, fun h0 => ?_⟩
  exact hs (List.length_eq_zero_iff.1 (Nat.le_zero.1 (hread 0 h0)))

/-- Where the output port does not move, the queue is empty or MOD is busy. -/
theorem FreeRunning.blocked {s : State} (hf : FreeRunning s) (hout : s.transfersOut = false) :
    s.oq = [] ∨ (s.cfg.hasMod = true ∧ s.fcnt ≠ 0#4) := by
  obtain ⟨-, hrst, hsink, -⟩ := hf
  by_cases hq : s.oq = []
  · exact .inl hq
  · rw [transfersOut_eq hrst hq, State.mReadyPort] at hout
    cases hm : s.cfg.hasMod with
    | true => exact .inr ⟨rfl, by simpa [hm] using hout⟩
    | false => simp [hm, hsink hm] at hout

section
variable {s : State} (hf : FreeRunning s) (hready : s.ready = true)
include hf hready

/-- The output port moves. -/
theorem freeStep_send (hout : s.transfersOut = true) : ∃ i u, FreeStep s i u := by
  obtain ⟨hsched, hrst, hsink, hread⟩ := hf
  obtain ⟨hvalid, hport⟩ := Bool.and_eq_true_iff.1 hout
  obtain ⟨y, rest, hq⟩ := List.exists_cons_of_ne_nil (mValid_eq_true.1 hvalid).2
  have hemit : emitOne (s.advance []) = .next ((s.advance []).sent y) := emitOne_sent (s := s.advance []) hrst hport hq
  have hauto : autoOp s = some (if s.cfg.hasMod then .modLoad else .emit) := by
    simp [autoOp, hrst, isNone_buildHold_of_ready hready, hout]
  cases hm : s.cfg.hasMod with
  | true =>
    have hidle : s.fcnt = 0#4 := by simpa [State.mReadyPort, hm] using hport
    have hsent : (s.advance []).sent y = (s.advance []).loaded y := if_pos hm
    refine ⟨.modLoad, (s.advance []).loaded y, nofun, by rw [hauto, hm]; rfl, ?_, ⟨rfl, hrst, fun hm' => ?_, hread⟩, hready, ?_⟩
    · rw [← hsent, ← hemit]
      exact (if_pos hm).symm
    · simp [hm] at hm'
    · simp [stepsLeft, hm, hidle, hq]
      omega
  | false =>
    have hsent : (s.advance []).sent y = (s.advance []).delivered y := if_neg (by simp [hm])
    refine ⟨.emit, (s.advance []).delivered y, nofun, by rw [hauto, hm]; rfl, hsent ▸ hemit, ⟨rfl, hrst, hsink, hread⟩,
      hready, ?_⟩
    simp [stepsLeft, hm, hq]
    omega

variable (h : BlockInv s)
include h

/-- The next sample is accepted. -/
theorem freeStep_lookup (hout : s.transfersOut = false) {x : Byte} {rest : List Byte} (hs : s.src = x :: rest)
    (hallowed : s.sReadyAllowed = true) : ∃ i u, FreeStep s i u := by
  have hn : lookupHold (s.advance []) = none := Option.isNone_iff_eq_none.1 hallowed
  obtain ⟨hsched, hrst, hsink, hread⟩ := hf
  refine ⟨.lookup x, (s.advance []).accepted (Q x), nofun, ?_, ?_, ⟨rfl, hrst, hsink, fun r hr => ?_⟩, hready, ?_⟩
  · simp [autoOp, hrst, isNone_buildHold_of_ready hready, hout, hs, hallowed]
  · exact lookupOne_of_mapRead_some hn (by rw [State.advance_src, hs, List.head?_cons]) (mapRead_of_ready (h.advance []) hready x)
  · obtain ⟨w, hw, rfl⟩ := Option.map_eq_some_iff.1 hr
    have hle := hread w hw
    rw [State.accepted_src, State.advance_src, List.length_tail]
    omega
  · simp only [stepsLeft, State.accepted_cfg, State.advance_cfg, State.accepted_fcnt, State.advance_fcnt, State.accepted_oq,
      State.advance_oq, State.accepted_src, State.advance_src, hs, List.tail_cons, List.length_append, List.length_cons,
      List.length_nil]
    split <;> omega

/-- MOD sends a slot of its frame. -/
theorem freeStep_shift (hout : s.transfersOut = false) (hno : s.src = [] ∨ s.sReadyAllowed = false)
    (hm : s.cfg.hasMod = true) (hbusy : s.fcnt ≠ 0#4) : ∃ i u, FreeStep s i u := by
  have hcount := toNat_fcnt_sub_one h.fcnt_le hbusy
  obtain ⟨hsched, hrst, hsink, hread⟩ := hf
  refine ⟨.modShift, (s.advance []).shifted, nofun, ?_, shiftOne_shifted hm hbusy, ⟨rfl, hrst, hsink, hread⟩, hready, ?_⟩
  · cases hs : s.src with
    | nil => simp [autoOp, hrst, isNone_buildHold_of_ready hready, hout, hs, hm, hbusy]
    | cons x rest =>
      have hno := hno.resolve_left (by simp [hs])
      simp [autoOp, hrst, isNone_buildHold_of_ready hready, hout, hs, hm, hbusy, hno]
  · simp only [stepsLeft, State.shifted_cfg, State.advance_cfg, hm, if_true, State.shifted_fcnt, State.advance_fcnt,
      State.shifted_oq, State.advance_oq, State.shifted_src, State.advance_src]
    omega

/-- One step of a free run, or its end. -/
theorem freeStep_or_finished : (∃ i u, FreeStep s i u) ∨ (stepsLeft s = 0 ∧ Finished s) := by
  cases hout : s.transfersOut with
  | true => exact .inl (freeStep_send hf hready hout)
  | false =>
    by_cases hbusy : s.cfg.hasMod = true ∧ s.fcnt ≠ 0#4
    · cases hs : s.src with
      | nil => exact .inl (freeStep_shift hf hready h hout (.inl hs) hbusy.1 hbusy.2)
      | cons x rest =>
        cases hallowed : s.sReadyAllowed with
        | true => exact .inl (freeStep_lookup hf hready h hout hs hallowed)
        | false => exact .inl (freeStep_shift hf hready h hout (.inr hallowed) hbusy.1 hbusy.2)
    · have hq : s.oq = [] := (hf.blocked hout).resolve_right hbusy
      cases hs : s.src with
      | nil =>
        have hidle : s.cfg.hasMod = true → s.fcnt = 0#4 := fun hm => by_contra fun hne => hbusy ⟨hm, hne⟩
        refine .inr ⟨?_, hs, hq, hidle⟩
        rw [stepsLeft, hs, hq]
        split
        case isTrue hm => rw [hidle hm]; rfl
        case isFalse => rfl
      | cons x rest =>
        have hroom : s.oq.length < s.cfg.oqDepth := by rw [hq]; exact h.depth
        have hvalid := hf.sValid (by simp [hs])
        exact .inl (freeStep_lookup hf hready h hout hs (sReadyAllowed_eq_true.2 ⟨hf.2.1, hready, hroom, hvalid⟩))

end

/-- A free run takes the steps that are left, each of them quiet. -/
theorem freeRun {n : Nat} {s : State} (h : BlockInv s) (hf : FreeRunning s) (hready : s.ready = true) (hn : stepsLeft s = n) :
    ∃ t, stepMany n s = .next t ∧ Run s t ∧ Finished t := by
  induction n generalizing s with
  | zero =>
    rcases freeStep_or_finished hf hready h with ⟨i, u, hstep⟩ | ⟨-, hfin⟩
    · exact absurd hstep.left (by omega)
    · exact ⟨s, rfl, .refl s, hfin⟩
  | succ n ih =>
    rcases freeStep_or_finished hf hready h with ⟨i, u, hstep⟩ | ⟨hzero, -⟩
    · have hfetch := fetch_auto hf.1 hstep.auto
      have hnext : step s = .next u := (step_of_run hfetch).trans hstep.run
      have hleft := hstep.left
      obtain ⟨t, ht, hrun, hfin⟩ := ih (exec_keeps_blockInv (h.advance []) hstep.run) hstep.free hstep.ready (by omega)
      have hquiet : quiet s := by
        rw [quiet, hf.1]
        intro v hv
        rw [hfetch, Fetched.run.injEq] at hv
        exact hstep.noReset hv.1
      exact ⟨t, by rw [stepMany, hnext]; exact ht, hrun.head hquiet hnext, hfin⟩
    · omega

/-- Settles O52: the free run is a run, so what it has delivered at its end is O47's. -/
theorem freeRunFinishes : Obligations.FreeRunFinishes := by
  intro s h hf hready
  obtain ⟨t, ht, hrun, hfin⟩ := freeRun h hf hready rfl
  exact ⟨t, ht, hfin, finishedRunDelivers s t h hrun hfin⟩

end Sys2Proof
end
